-- ==== Sys2Proof/Word.lean ====
section
/-! DEFINITION. The words of AU128 (spec/00_scope.md R6, R7): only names for widths; every slice, concatenation and
arithmetic function is in the files under Machine/. -/

namespace Sys2Proof

/-- One byte of the text buffer (10_state.md R29). -/
abbrev Byte := BitVec 8

/-- A 64-bit limb, and every 64-bit word that crosses a port (10_state.md R20, R33). -/
abbrev Limb := BitVec 64

/-- A 128-bit value, `hi * 2^64 + lo` (10_state.md R20). -/
abbrev Value := BitVec 128

/-- The command word `CW` (30_encoding.md R70). -/
abbrev CmdWord := BitVec 32

/-- The number of a value register; all eight exist (10_state.md R20). -/
abbrev Reg := Fin 8

end Sys2Proof
end

