-- ==== Sys2Proof/Config.lean ====
section
/-! DEFINITION. What is fixed for one AU128: the open parameters of spec/00_scope.md R6. -/

namespace Sys2Proof

/-- The rounding attributes `FP_ROUND` may name (R6, 92_eei_decisions.md D14). The spec names roundTiesToEven and speaks of
"other modes"; that these are the other four of IEEE 754 is PRESUMED (log 6). AU128 uses `tiesToEven` only. -/
inductive RoundingMode where
  | tiesToEven
  | tiesToAway
  | towardZero
  | towardPositive
  | towardNegative
  deriving DecidableEq, Repr

/-- The open parameters of R6. -/
structure Config where
  /-- `CHECKED`: every precondition violation is detected and halts the unit (60_exceptions.md R300, D10). -/
  checked : Bool
  /-- `SIGNED_OVF_IS_VIOLATION` (D15). -/
  signedOvfIsViolation : Bool
  /-- `FP_ROUND` (D14). -/
  fpRound : RoundingMode
  deriving DecidableEq, Repr

/-- AU128 as specified: the defaults of R6. -/
def config : Config := { checked := true, signedOvfIsViolation := false, fpRound := .tiesToEven }

end Sys2Proof
end

