-- ==== Sys2Proof/Syntax.lean ====
section
/-! DEFINITION. The 44 instructions of AU128 (spec/30_encoding.md R73) with their operands: register fields of R71, the
sub-fields of `FL` of R72 and the payload operands of R76. An operand whose encoding has a reserved value (R75 c) has a
type without that value. A payload word an instruction ignores (R70) is no operand of it. -/

namespace Sys2Proof

/-- The constants `LDC` can load, `K` of R72 (10_state.md R22). -/
inductive Konst where
  | umax
  | smax
  | smin
  deriving DecidableEq, Repr

/-- `WD` of R72: the width of a native integer. -/
inductive NativeWidth where
  | w8
  | w16
  | w32
  | w64
  deriving DecidableEq, Repr

/-- `FP` of R72: the float format (47_float.md R260). -/
inductive FpFormat where
  | binary32
  | binary64
  deriving DecidableEq, Repr

/-- `BASE` of R72. -/
inductive Base where
  | dec
  | oct
  | hex
  deriving DecidableEq, Repr

/-- `N` of R72: the control registers of 10_state.md R26 to R28. -/
inductive CtrlReg where
  | flt
  | finfo
  | cfg
  deriving DecidableEq, Repr

/-- A word of the text buffer, `K` of `RDTXT` (R72): 0 to 5. -/
abbrev TextWord := Fin 6

/-- The instructions. Register operands stand in the order of R78 (destination first). -/
inductive Instr where
  -- 40_construct_convert.md
  | mkhl (rd : Reg) (x y : Limb)
  | gethi (ra : Reg)
  | getlo (ra : Reg)
  | ldc (rd : Reg) (k : Konst)
  | mov (rd ra : Reg)
  | fromint (rd : Reg) (wd : NativeWidth) (sg : Bool) (x : Limb)
  | toint (ra : Reg) (wd : NativeWidth) (sg : Bool)
  -- 41_add_sub_mul.md
  | add (rd ra rb : Reg)
  | sub (rd ra rb : Reg)
  | mul (rd ra rb : Reg)
  | neg (rd ra : Reg)
  | negs (rd ra : Reg)
  -- 45_divide.md
  | divu (rd ra rb : Reg)
  | modu (rd ra rb : Reg)
  | divmodu (rd re ra rb : Reg)
  | divs (rd ra rb : Reg)
  | mods (rd ra rb : Reg)
  | divmods (rd re ra rb : Reg)
  -- 42_shift_rotate.md
  | shl (rd ra : Reg) (x : Limb)
  | shr (rd ra : Reg) (x : Limb)
  | sar (rd ra : Reg) (x : Limb)
  | rol (rd ra : Reg) (x : Limb)
  | ror (rd ra : Reg) (x : Limb)
  -- 44_bitwise.md
  | and (rd ra rb : Reg)
  | or (rd ra rb : Reg)
  | xor (rd ra rb : Reg)
  | not (rd ra : Reg)
  -- 43_compare.md
  | eq (ra rb : Reg)
  | ne (ra rb : Reg)
  | ltu (ra rb : Reg)
  | leu (ra rb : Reg)
  | gtu (ra rb : Reg)
  | geu (ra rb : Reg)
  | lts (ra rb : Reg)
  | les (ra rb : Reg)
  | gts (ra rb : Reg)
  | ges (ra rb : Reg)
  -- 47_float.md
  | fromfu (rd : Reg) (fp : FpFormat) (x : Limb)
  | fromfs (rd : Reg) (fp : FpFormat) (x : Limb)
  | tofu (ra : Reg) (fp : FpFormat)
  | tofs (ra : Reg) (fp : FpFormat)
  -- 46_format.md
  | fmt (ra : Reg) (base : Base) (sg uc sb sp : Bool)
  | rdtxt (k : TextWord)
  -- 48_system.md
  | rdcr (n : CtrlReg)
  deriving DecidableEq, Repr

/-- A command packet (R70): the command word and the two payload words. -/
structure Packet where
  cw : CmdWord
  x : Limb
  y : Limb
  deriving DecidableEq, Repr

end Sys2Proof
end

