-- ==== Sys2Proof/WellFormed.lean ====
section
/-! DEFINITION. Which instructions have an encoding (spec/30_encoding.md R75). The reserved sub-field values of R75 (c) cannot
be written as operands; what is left to check is R75 (d): the two destinations of a combined divide-modulo differ. -/

namespace Sys2Proof

/-- The check of R75 (d), for every constructor. -/
def Instr.wellFormed : Instr → Bool
  | .divmodu rd re _ _ => rd != re
  | .divmods rd re _ _ => rd != re
  | .mkhl _ _ _ | .gethi _ | .getlo _ | .ldc _ _ | .mov _ _ | .fromint _ _ _ _ | .toint _ _ _ => true
  | .add _ _ _ | .sub _ _ _ | .mul _ _ _ | .neg _ _ | .negs _ _ => true
  | .divu _ _ _ | .modu _ _ _ | .divs _ _ _ | .mods _ _ _ => true
  | .shl _ _ _ | .shr _ _ _ | .sar _ _ _ | .rol _ _ _ | .ror _ _ _ => true
  | .and _ _ _ | .or _ _ _ | .xor _ _ _ | .not _ _ => true
  | .eq _ _ | .ne _ _ | .ltu _ _ | .leu _ _ | .gtu _ _ | .geu _ _ => true
  | .lts _ _ | .les _ _ | .gts _ _ | .ges _ _ => true
  | .fromfu _ _ _ | .fromfs _ _ _ | .tofu _ _ | .tofs _ _ => true
  | .fmt _ _ _ _ _ _ | .rdtxt _ | .rdcr _ => true

end Sys2Proof
end

