-- ==== Sys2Proof/Decode.lean ====
section
/-! DEFINITION. Decoding a command packet into an instruction or a named reason why it is illegal (spec/30_encoding.md R70 to
R76), and encoding an instruction as its packet. `CW` is first cut into the fields of R71; both directions work on fields. -/

namespace Sys2Proof

/-- The fields of a command word (R71). A field an encoding leaves out is zero (R74). -/
structure Fields where
  opc : BitVec 8
  rd : BitVec 3 := 0
  ra : BitVec 3 := 0
  rb : BitVec 3 := 0
  re : BitVec 3 := 0
  fl : BitVec 8 := 0
  z4 : BitVec 4 := 0
  deriving DecidableEq, Repr

/-- R71, first column: bits 31:24, 23:21, 20:18, 17:15, 14:12, 11:4 and 3:0. -/
def unpackWord (w : CmdWord) : Fields where
  opc := w.extractLsb' 24 8
  rd := w.extractLsb' 21 3
  ra := w.extractLsb' 18 3
  rb := w.extractLsb' 15 3
  re := w.extractLsb' 12 3
  fl := w.extractLsb' 4 8
  z4 := w.extractLsb' 0 4

/-- `CW = OPC<<24 | RD<<21 | RA<<18 | RB<<15 | RE<<12 | FL<<4` (R71), as the concatenation of the fields. -/
def packWord (f : Fields) : CmdWord :=
  f.opc ++ f.rd ++ f.ra ++ f.rb ++ f.re ++ f.fl ++ f.z4

/-- Why a command word is illegal (R75 a to d). -/
inductive Illegal where
  /-- R75 (a): `OPC` is not one of the 44 values. -/
  | unknownOpcode
  /-- R75 (b), R74: a must-be-zero bit is set. -/
  | mustBeZero
  /-- R75 (c): a sub-field holds a reserved value. -/
  | reservedField
  /-- R75 (d): `RD = RE` of a combined divide-modulo. -/
  | equalDestinations
  deriving DecidableEq, Repr

/-! Sub-fields of `FL` (R72), read and written. -/

def regOf (b : BitVec 3) : Reg := b.toFin

def regBits (r : Reg) : BitVec 3 := BitVec.ofFin r

def konstOf (k : BitVec 2) : Option Konst :=
  match k.toNat with
  | 0 => some .umax
  | 1 => some .smax
  | 2 => some .smin
  | _ => none

def konstBits : Konst → BitVec 2
  | .umax => 0
  | .smax => 1
  | .smin => 2

def widthOf (b : BitVec 2) : NativeWidth :=
  match b.toNat with
  | 0 => .w8
  | 1 => .w16
  | 2 => .w32
  | _ => .w64

def widthBits : NativeWidth → BitVec 2
  | .w8 => 0
  | .w16 => 1
  | .w32 => 2
  | .w64 => 3

def fpOf (b : Bool) : FpFormat := if b then .binary64 else .binary32

def fpBit : FpFormat → Bool
  | .binary32 => false
  | .binary64 => true

def baseOf (b : BitVec 2) : Option Base :=
  match b.toNat with
  | 0 => some .dec
  | 1 => some .oct
  | 2 => some .hex
  | _ => none

def baseBits : Base → BitVec 2
  | .dec => 0
  | .oct => 1
  | .hex => 2

def textWordOf (k : BitVec 3) : Option TextWord :=
  if h : k.toNat < 6 then some ⟨k.toNat, h⟩ else none

def textWordBits (k : TextWord) : BitVec 3 := BitVec.ofNat 3 k.val

def ctrlRegOf (n : BitVec 2) : Option CtrlReg :=
  match n.toNat with
  | 0 => some .flt
  | 1 => some .finfo
  | 2 => some .cfg
  | _ => none

def ctrlRegBits : CtrlReg → BitVec 2
  | .flt => 0
  | .finfo => 1
  | .cfg => 2

/-- One bit of `FL` as a word. -/
def bit (b : Bool) : BitVec 1 := BitVec.ofBool b

/-! The checks of R75, in the order b, c, d (all four raise the same fault, so the order shows in the name only). -/

/-- R75 (b): every field and bit the instruction does not use is zero. -/
def needZero (zero : Bool) (r : Except Illegal Instr) : Except Illegal Instr :=
  if zero then r else .error .mustBeZero

/-- R75 (c): a sub-field must not hold a reserved value. -/
def needNamed {α : Type} (o : Option α) (k : α → Instr) : Except Illegal Instr :=
  match o with
  | some a => .ok (k a)
  | none => .error .reservedField

/-- R75 (d): the two destinations differ. -/
def needDistinct (rd re : BitVec 3) (i : Instr) : Except Illegal Instr :=
  if rd = re then .error .equalDestinations else .ok i

/-- The unused fields of the rows of R73 that name only `RD`, only `RA`, and so on; `flHigh` are the bits of `FL` the row does
not name (R72). -/
def zeroButRd {n : Nat} (f : Fields) (flHigh : BitVec n) : Bool :=
  f.ra == 0 && f.rb == 0 && f.re == 0 && flHigh == 0 && f.z4 == 0

def zeroButRa {n : Nat} (f : Fields) (flHigh : BitVec n) : Bool :=
  f.rd == 0 && f.rb == 0 && f.re == 0 && flHigh == 0 && f.z4 == 0

def zeroButRdRa (f : Fields) : Bool := f.rb == 0 && f.re == 0 && f.fl == 0 && f.z4 == 0

def zeroButRaRb (f : Fields) : Bool := f.rd == 0 && f.re == 0 && f.fl == 0 && f.z4 == 0

def zeroButRdRaRb (f : Fields) : Bool := f.re == 0 && f.fl == 0 && f.z4 == 0

def zeroButRegs (f : Fields) : Bool := f.fl == 0 && f.z4 == 0

def zeroButFl {n : Nat} (f : Fields) (flHigh : BitVec n) : Bool :=
  f.rd == 0 && f.ra == 0 && f.rb == 0 && f.re == 0 && flHigh == 0 && f.z4 == 0

/-- The opcode map R73 on the fields of a command word and the payload. -/
def decodeFields (f : Fields) (x y : Limb) : Except Illegal Instr :=
  let rd := regOf f.rd
  let ra := regOf f.ra
  let rb := regOf f.rb
  let re := regOf f.re
  match f.opc.toNat with
  | 0x01 => needZero (zeroButRd f f.fl) (.ok (.mkhl rd x y))
  | 0x02 => needZero (zeroButRa f f.fl) (.ok (.gethi ra))
  | 0x03 => needZero (zeroButRa f f.fl) (.ok (.getlo ra))
  | 0x04 => needZero (zeroButRd f (f.fl.extractLsb' 2 6))
      (needNamed (konstOf (f.fl.extractLsb' 0 2)) fun k => .ldc rd k)
  | 0x05 => needZero (zeroButRdRa f) (.ok (.mov rd ra))
  | 0x06 => needZero (zeroButRd f (f.fl.extractLsb' 3 5))
      (.ok (.fromint rd (widthOf (f.fl.extractLsb' 0 2)) (f.fl.getLsbD 2) x))
  | 0x07 => needZero (zeroButRa f (f.fl.extractLsb' 3 5))
      (.ok (.toint ra (widthOf (f.fl.extractLsb' 0 2)) (f.fl.getLsbD 2)))
  | 0x10 => needZero (zeroButRdRaRb f) (.ok (.add rd ra rb))
  | 0x11 => needZero (zeroButRdRaRb f) (.ok (.sub rd ra rb))
  | 0x12 => needZero (zeroButRdRaRb f) (.ok (.mul rd ra rb))
  | 0x13 => needZero (zeroButRdRa f) (.ok (.neg rd ra))
  | 0x14 => needZero (zeroButRdRa f) (.ok (.negs rd ra))
  | 0x18 => needZero (zeroButRdRaRb f) (.ok (.divu rd ra rb))
  | 0x19 => needZero (zeroButRdRaRb f) (.ok (.modu rd ra rb))
  | 0x1A => needZero (zeroButRegs f) (needDistinct f.rd f.re (.divmodu rd re ra rb))
  | 0x1C => needZero (zeroButRdRaRb f) (.ok (.divs rd ra rb))
  | 0x1D => needZero (zeroButRdRaRb f) (.ok (.mods rd ra rb))
  | 0x1E => needZero (zeroButRegs f) (needDistinct f.rd f.re (.divmods rd re ra rb))
  | 0x20 => needZero (zeroButRdRa f) (.ok (.shl rd ra x))
  | 0x21 => needZero (zeroButRdRa f) (.ok (.shr rd ra x))
  | 0x22 => needZero (zeroButRdRa f) (.ok (.sar rd ra x))
  | 0x23 => needZero (zeroButRdRa f) (.ok (.rol rd ra x))
  | 0x24 => needZero (zeroButRdRa f) (.ok (.ror rd ra x))
  | 0x28 => needZero (zeroButRdRaRb f) (.ok (.and rd ra rb))
  | 0x29 => needZero (zeroButRdRaRb f) (.ok (.or rd ra rb))
  | 0x2A => needZero (zeroButRdRaRb f) (.ok (.xor rd ra rb))
  | 0x2B => needZero (zeroButRdRa f) (.ok (.not rd ra))
  | 0x30 => needZero (zeroButRaRb f) (.ok (.eq ra rb))
  | 0x31 => needZero (zeroButRaRb f) (.ok (.ne ra rb))
  | 0x32 => needZero (zeroButRaRb f) (.ok (.ltu ra rb))
  | 0x33 => needZero (zeroButRaRb f) (.ok (.leu ra rb))
  | 0x34 => needZero (zeroButRaRb f) (.ok (.gtu ra rb))
  | 0x35 => needZero (zeroButRaRb f) (.ok (.geu ra rb))
  | 0x36 => needZero (zeroButRaRb f) (.ok (.lts ra rb))
  | 0x37 => needZero (zeroButRaRb f) (.ok (.les ra rb))
  | 0x38 => needZero (zeroButRaRb f) (.ok (.gts ra rb))
  | 0x39 => needZero (zeroButRaRb f) (.ok (.ges ra rb))
  | 0x40 => needZero (zeroButRd f (f.fl.extractLsb' 1 7)) (.ok (.fromfu rd (fpOf (f.fl.getLsbD 0)) x))
  | 0x41 => needZero (zeroButRd f (f.fl.extractLsb' 1 7)) (.ok (.fromfs rd (fpOf (f.fl.getLsbD 0)) x))
  | 0x42 => needZero (zeroButRa f (f.fl.extractLsb' 1 7)) (.ok (.tofu ra (fpOf (f.fl.getLsbD 0))))
  | 0x43 => needZero (zeroButRa f (f.fl.extractLsb' 1 7)) (.ok (.tofs ra (fpOf (f.fl.getLsbD 0))))
  | 0x50 => needZero (zeroButRa f (f.fl.extractLsb' 6 2))
      (needNamed (baseOf (f.fl.extractLsb' 0 2)) fun b =>
        .fmt ra b (f.fl.getLsbD 2) (f.fl.getLsbD 3) (f.fl.getLsbD 4) (f.fl.getLsbD 5))
  | 0x51 => needZero (zeroButFl f (f.fl.extractLsb' 3 5))
      (needNamed (textWordOf (f.fl.extractLsb' 0 3)) fun k => .rdtxt k)
  | 0x60 => needZero (zeroButFl f (f.fl.extractLsb' 2 6))
      (needNamed (ctrlRegOf (f.fl.extractLsb' 0 2)) fun n => .rdcr n)
  | _ => .error .unknownOpcode

/-- The decoder: total on every packet of 160 bits (R70, R80). -/
def decode (p : Packet) : Except Illegal Instr := decodeFields (unpackWord p.cw) p.x p.y

/-! ## The encoder -/

/-- The fields of an instruction's command word (R71 to R73); a field not given is zero (R74). -/
def encodeFields : Instr → Fields
  | .mkhl rd _ _ => { opc := 0x01, rd := regBits rd }
  | .gethi ra => { opc := 0x02, ra := regBits ra }
  | .getlo ra => { opc := 0x03, ra := regBits ra }
  | .ldc rd k => { opc := 0x04, rd := regBits rd, fl := 0#6 ++ konstBits k }
  | .mov rd ra => { opc := 0x05, rd := regBits rd, ra := regBits ra }
  | .fromint rd wd sg _ => { opc := 0x06, rd := regBits rd, fl := 0#5 ++ bit sg ++ widthBits wd }
  | .toint ra wd sg => { opc := 0x07, ra := regBits ra, fl := 0#5 ++ bit sg ++ widthBits wd }
  | .add rd ra rb => { opc := 0x10, rd := regBits rd, ra := regBits ra, rb := regBits rb }
  | .sub rd ra rb => { opc := 0x11, rd := regBits rd, ra := regBits ra, rb := regBits rb }
  | .mul rd ra rb => { opc := 0x12, rd := regBits rd, ra := regBits ra, rb := regBits rb }
  | .neg rd ra => { opc := 0x13, rd := regBits rd, ra := regBits ra }
  | .negs rd ra => { opc := 0x14, rd := regBits rd, ra := regBits ra }
  | .divu rd ra rb => { opc := 0x18, rd := regBits rd, ra := regBits ra, rb := regBits rb }
  | .modu rd ra rb => { opc := 0x19, rd := regBits rd, ra := regBits ra, rb := regBits rb }
  | .divmodu rd re ra rb =>
      { opc := 0x1A, rd := regBits rd, ra := regBits ra, rb := regBits rb, re := regBits re }
  | .divs rd ra rb => { opc := 0x1C, rd := regBits rd, ra := regBits ra, rb := regBits rb }
  | .mods rd ra rb => { opc := 0x1D, rd := regBits rd, ra := regBits ra, rb := regBits rb }
  | .divmods rd re ra rb =>
      { opc := 0x1E, rd := regBits rd, ra := regBits ra, rb := regBits rb, re := regBits re }
  | .shl rd ra _ => { opc := 0x20, rd := regBits rd, ra := regBits ra }
  | .shr rd ra _ => { opc := 0x21, rd := regBits rd, ra := regBits ra }
  | .sar rd ra _ => { opc := 0x22, rd := regBits rd, ra := regBits ra }
  | .rol rd ra _ => { opc := 0x23, rd := regBits rd, ra := regBits ra }
  | .ror rd ra _ => { opc := 0x24, rd := regBits rd, ra := regBits ra }
  | .and rd ra rb => { opc := 0x28, rd := regBits rd, ra := regBits ra, rb := regBits rb }
  | .or rd ra rb => { opc := 0x29, rd := regBits rd, ra := regBits ra, rb := regBits rb }
  | .xor rd ra rb => { opc := 0x2A, rd := regBits rd, ra := regBits ra, rb := regBits rb }
  | .not rd ra => { opc := 0x2B, rd := regBits rd, ra := regBits ra }
  | .eq ra rb => { opc := 0x30, ra := regBits ra, rb := regBits rb }
  | .ne ra rb => { opc := 0x31, ra := regBits ra, rb := regBits rb }
  | .ltu ra rb => { opc := 0x32, ra := regBits ra, rb := regBits rb }
  | .leu ra rb => { opc := 0x33, ra := regBits ra, rb := regBits rb }
  | .gtu ra rb => { opc := 0x34, ra := regBits ra, rb := regBits rb }
  | .geu ra rb => { opc := 0x35, ra := regBits ra, rb := regBits rb }
  | .lts ra rb => { opc := 0x36, ra := regBits ra, rb := regBits rb }
  | .les ra rb => { opc := 0x37, ra := regBits ra, rb := regBits rb }
  | .gts ra rb => { opc := 0x38, ra := regBits ra, rb := regBits rb }
  | .ges ra rb => { opc := 0x39, ra := regBits ra, rb := regBits rb }
  | .fromfu rd fp _ => { opc := 0x40, rd := regBits rd, fl := 0#7 ++ bit (fpBit fp) }
  | .fromfs rd fp _ => { opc := 0x41, rd := regBits rd, fl := 0#7 ++ bit (fpBit fp) }
  | .tofu ra fp => { opc := 0x42, ra := regBits ra, fl := 0#7 ++ bit (fpBit fp) }
  | .tofs ra fp => { opc := 0x43, ra := regBits ra, fl := 0#7 ++ bit (fpBit fp) }
  | .fmt ra base sg uc sb sp =>
      { opc := 0x50, ra := regBits ra, fl := 0#2 ++ bit sp ++ bit sb ++ bit uc ++ bit sg ++ baseBits base }
  | .rdtxt k => { opc := 0x51, fl := 0#5 ++ textWordBits k }
  | .rdcr n => { opc := 0x60, fl := 0#6 ++ ctrlRegBits n }

/-- The command word of an instruction (R71). -/
def encodeWord (i : Instr) : CmdWord := packWord (encodeFields i)

/-- Payload word `X` (R76); zero where the instruction ignores it, as the assembler sends it (R78). -/
def payloadX : Instr → Limb
  | .mkhl _ x _ | .fromint _ _ _ x => x
  | .shl _ _ x | .shr _ _ x | .sar _ _ x | .rol _ _ x | .ror _ _ x => x
  | .fromfu _ _ x | .fromfs _ _ x => x
  | .gethi _ | .getlo _ | .ldc _ _ | .mov _ _ | .toint _ _ _ => 0
  | .add _ _ _ | .sub _ _ _ | .mul _ _ _ | .neg _ _ | .negs _ _ => 0
  | .divu _ _ _ | .modu _ _ _ | .divmodu _ _ _ _ | .divs _ _ _ | .mods _ _ _ | .divmods _ _ _ _ => 0
  | .and _ _ _ | .or _ _ _ | .xor _ _ _ | .not _ _ => 0
  | .eq _ _ | .ne _ _ | .ltu _ _ | .leu _ _ | .gtu _ _ | .geu _ _ => 0
  | .lts _ _ | .les _ _ | .gts _ _ | .ges _ _ => 0
  | .tofu _ _ | .tofs _ _ | .fmt _ _ _ _ _ _ | .rdtxt _ | .rdcr _ => 0

/-- Payload word `Y` (R76); `MKHL` alone uses it. -/
def payloadY : Instr → Limb
  | .mkhl _ _ y => y
  | .gethi _ | .getlo _ | .ldc _ _ | .mov _ _ | .fromint _ _ _ _ | .toint _ _ _ => 0
  | .add _ _ _ | .sub _ _ _ | .mul _ _ _ | .neg _ _ | .negs _ _ => 0
  | .divu _ _ _ | .modu _ _ _ | .divmodu _ _ _ _ | .divs _ _ _ | .mods _ _ _ | .divmods _ _ _ _ => 0
  | .shl _ _ _ | .shr _ _ _ | .sar _ _ _ | .rol _ _ _ | .ror _ _ _ => 0
  | .and _ _ _ | .or _ _ _ | .xor _ _ _ | .not _ _ => 0
  | .eq _ _ | .ne _ _ | .ltu _ _ | .leu _ _ | .gtu _ _ | .geu _ _ => 0
  | .lts _ _ | .les _ _ | .gts _ _ | .ges _ _ => 0
  | .fromfu _ _ _ | .fromfs _ _ _ | .tofu _ _ | .tofs _ _ => 0
  | .fmt _ _ _ _ _ _ | .rdtxt _ | .rdcr _ => 0

/-- The packet of an instruction (R70). -/
def encode (i : Instr) : Packet := { cw := encodeWord i, x := payloadX i, y := payloadY i }

/-! ## The bits of a packet as one number -/

/-- The packet whose 160 bits are the low `nbits` bits of `w`, the others zero: `CW` is bits 31:0, `X` bits 95:32, `Y` bits
159:96, the order of the packet in R70 (log 8). -/
def packetOfBits (nbits w : Nat) : Packet :=
  let b := w % 2 ^ nbits
  { cw := BitVec.ofNat 32 b, x := BitVec.ofNat 64 (b / 2 ^ 32), y := BitVec.ofNat 64 (b / 2 ^ 96) }

/-- What the decoder reads from a packet given as a number; `none` where the packet is illegal. -/
def decodeTableWord (nbits w : Nat) : Option Instr :=
  match decode (packetOfBits nbits w) with
  | .ok i => some i
  | .error _ => none

end Sys2Proof
end

