-- ==== Sys2Proof/Machine/State.lean ====
section
/-! DEFINITION. The state of AU128 (spec/10_state.md), what its ports carry, and the state after reset. -/

namespace Sys2Proof.Machine

/-- A response packet (spec/30_encoding.md R77). -/
structure Response where
  st : BitVec 8
  z : Limb
  deriving DecidableEq, Repr

/-- What the host does to the unit next (10_state.md R33). -/
inductive Input where
  /-- A packet on the command port. -/
  | command (p : Packet)
  /-- `RST` asserted, with the command that is in progress at that moment, if any (70_reset_and_hazards.md R340). -/
  | reset (inProgress : Option Packet)
  deriving DecidableEq, Repr

/-- The architectural state (10_state.md R20, R26, R27, R29) and the two packet streams of the ports (R33, log 1). `CFG` and the
constants of R22 are hardwired and so no fields (log 10). -/
structure State where
  /-- `V[0]` to `V[7]` (R20). -/
  v : Vector Value 8
  /-- The text buffer `T[0]` to `T[47]` (R29). -/
  t : Vector Byte 48
  /-- `TLEN` (R29). -/
  tlen : BitVec 8
  /-- `FLT`, the fault cause; zero means running (R26). -/
  flt : BitVec 8
  /-- `FINFO`, the command word of the command that faulted (R27). -/
  finfo : CmdWord
  /-- What the host presents from now on, in order (R33, R57). -/
  inputs : List Input
  /-- The response packets sent so far, newest first (R33, R77). -/
  responses : List Response
  deriving DecidableEq, Repr

/-- Reasons for the model to stop with a fault: NONE. A fault of AU128 is a state it goes on from (60_exceptions.md R306, R307:
it answers, halts, and still executes `RDCR`), so no step of the model ends in one (log 7). Safe and unsafe do not arise. -/
inductive Fault where
  deriving DecidableEq, Repr

/-- Reasons for the model to have no next state. -/
inductive Refusal where
  /-- Raised by the arm of `exec` of an instruction that has no meaning yet; no arm raises it now. Safe. -/
  | notModelled (mnemonic : String)
  /-- Raised by `violation` and `wrapOrStop` past a precondition violation in a unit built with `CHECKED = 0`, or past a signed
  overflow in one built with `SIGNED_OVF_IS_VIOLATION` (spec/93_implementation_defined.md U9: "refuse"). AU128 is built with
  neither (`config`), so no step raises it. Safe (log 4, log 5). -/
  | uncheckedViolation
  deriving DecidableEq, Repr

/-- What a step answers. -/
abbrev Result := Host.Outcome State Fault Refusal

/-- The state after reset (10_state.md R34), with nothing presented and nothing answered yet (log 1). -/
def State.reset : State where
  v := Vector.replicate 8 0
  t := Vector.replicate 48 0
  tlen := 0
  flt := 0
  finfo := 0
  inputs := []
  responses := []

end Sys2Proof.Machine
end

