-- ==== Sys2Proof/Machine/Ops.lean ====
section
/-! DEFINITION. The named operations on the state: value registers, the text buffer, control registers, the response, a fault,
the halted refusal and reset. Every meaning is written with these. -/

namespace Sys2Proof.Machine

/-! ## Value registers (spec/10_state.md R20) -/

/-- `V[i]`. -/
def readV (s : State) (r : Reg) : Value := s.v[r]

/-- `V[i] <- x`. No register is hardwired (R20). -/
def writeV (s : State) (r : Reg) (x : Value) : State := { s with v := s.v.set r.val x r.isLt }

/-! ## The text buffer (R29) -/

/-- The 48 bytes that hold a text: its characters from `T[0]`, then zero bytes (46_format.md R227). -/
def fillText (text : List Byte) : Vector Byte 48 :=
  ⟨⟨(text ++ List.replicate 48 0).take 48⟩, by simp⟩

/-- The text buffer and `TLEN` written together, as only `FMT` does (R227). -/
def writeText (s : State) (text : List Byte) : State :=
  { s with t := fillText text, tlen := BitVec.ofNat 8 text.length }

/-- Word `K` of the text buffer, `Z[8*j+7 : 8*j] = T[8*K + j]` (20_memory.md R52). -/
def readTextWord (s : State) (k : TextWord) : Limb :=
  s.t[8 * k.val + 7] ++ s.t[8 * k.val + 6] ++ s.t[8 * k.val + 5] ++ s.t[8 * k.val + 4] ++
    s.t[8 * k.val + 3] ++ s.t[8 * k.val + 2] ++ s.t[8 * k.val + 1] ++ s.t[8 * k.val]

/-! ## Control registers (10_state.md R26 to R28) -/

/-- `CFG`, hardwired: `NV` = 8, a zero bit, `F64`, `F32`, `CHK` (R28). -/
def cfgReg : BitVec 8 := 8#4 ++ 0#1 ++ bit true ++ bit true ++ bit config.checked

/-- A control register zero-extended to 64 bits, as `RDCR` returns it (48_system.md R290). -/
def readCtrl (s : State) : CtrlReg → Limb
  | .flt => s.flt.setWidth 64
  | .finfo => s.finfo.setWidth 64
  | .cfg => cfgReg.setWidth 64

/-! ## The response of an executed command (30_encoding.md R77) -/

/-- `ST[6:0] = FLT[6:0]` with `ST[7] = 0`, and the scalar result `Z`. -/
def respond (s : State) (z : Limb) : State :=
  { s with responses := { st := s.flt &&& 0x7F, z := z } :: s.responses }

/-- A command that completes with scalar result `Z` (0 where it has none, R81 step 4). -/
def done (s : State) (z : Limb) : Result := .next (respond s z)

/-! ## Faults (60_exceptions.md) -/

/-- The fault causes of R301. -/
inductive Cause where
  | illegal
  | divzero
  | sdivovf
  | snegovf
  | shamt
  | fnan
  | frange
  deriving DecidableEq, Repr

/-- The codes of R301. -/
def Cause.code : Cause → BitVec 8
  | .illegal => 0x01
  | .divzero => 0x02
  | .sdivovf => 0x03
  | .snegovf => 0x04
  | .shamt => 0x05
  | .fnan => 0x06
  | .frange => 0x07

/-- `raise <Fault>(CW)`: fault entry (R306). Nothing but `FLT`, `FINFO` and the response changes; there is no return from it but
reset (R308). -/
def raise (c : Cause) (cw : CmdWord) (s : State) : State :=
  { s with flt := c.code, finfo := cw, responses := { st := 0x80 ||| c.code, z := 0 } :: s.responses }

/-- A precondition violation of class (a) (R300) by instruction `i`: fault entry in the checked build; in a build with
`CHECKED = 0` the model stops (spec/93_implementation_defined.md U9, log 4). -/
def violation (c : Cause) (i : Instr) (s : State) : Result :=
  if config.checked then .next (raise c (encodeWord i) s) else .refused .uncheckedViolation

/-- The result of an addition, subtraction or multiplication whose exact signed result is `exact`: it wraps silently, in both
views (D15); in a build with `SIGNED_OVF_IS_VIOLATION` a signed overflow stops the model (U9, log 5). -/
def wrapOrStop (exact : Int) (r : Result) : Result :=
  if config.signedOvfIsViolation && (decide (exact < -2 ^ 127) || decide (2 ^ 127 ≤ exact)) then
    .refused .uncheckedViolation
  else r

/-- The unit is halted: `FLT != 0` (10_state.md R26, 60_exceptions.md R307). -/
def halted (s : State) : Bool := s.flt != 0

/-- A packet refused by the halted unit (R307): no state change, `ST = 0x80 | FLT`, `Z = 0`. -/
def refuseHalted (s : State) : State :=
  { s with responses := { st := 0x80 ||| s.flt, z := 0 } :: s.responses }

/-! ## Reset (70_reset_and_hazards.md R340) -/

/-- `RST`: every piece of the unit's state at its value of 10_state.md R34, with no response. What the host presents next and
what it has received are not the unit's state and stay (log 3). -/
def resetUnit (s : State) : State :=
  { State.reset with inputs := s.inputs, responses := s.responses }

end Sys2Proof.Machine
end

