-- ==== Sys2Proof/Machine/Operands.lean ====
section
/-! DEFINITION. The operand forms: the limbs of a value (spec/10_state.md R20) and the payload operands of 30_encoding.md R76:
native integers, shift amounts and float bit patterns. -/

namespace Sys2Proof.Machine

/-! ## Limbs (00_scope.md R7) -/

/-- `v.hi = v[127:64]`. -/
def hi (v : Value) : Limb := v.extractLsb' 64 64

/-- `v.lo = v[63:0]`. -/
def lo (v : Value) : Limb := v.extractLsb' 0 64

/-- `{h, l}`. -/
def pair (h l : Limb) : Value := h ++ l

/-! What the limbs are, as numbers (`u(v) = v.hi * 2^64 + v.lo`, R7). -/

theorem toNat_hi (v : Value) : (hi v).toNat = v.toNat / 2 ^ 64 := by
  have := v.isLt
  rw [hi, BitVec.extractLsb'_toNat, Nat.shiftRight_eq_div_pow]; omega

theorem toNat_lo (v : Value) : (lo v).toNat = v.toNat % 2 ^ 64 := by
  rw [lo, BitVec.extractLsb'_toNat, Nat.shiftRight_zero]

theorem toNat_pair (h l : Limb) : (pair h l).toNat = h.toNat * 2 ^ 64 + l.toNat := by
  have := h.isLt; have := l.isLt
  rw [pair, BitVec.toNat_append, ← Nat.shiftLeft_add_eq_or_of_lt l.isLt, Nat.shiftLeft_eq]

@[simp] theorem hi_pair (h l : Limb) : hi (pair h l) = h := by
  have := l.isLt
  apply BitVec.eq_of_toNat_eq; rw [toNat_hi, toNat_pair]; omega

@[simp] theorem lo_pair (h l : Limb) : lo (pair h l) = l := by
  have := l.isLt
  apply BitVec.eq_of_toNat_eq; rw [toNat_lo, toNat_pair]; omega

@[simp] theorem pair_hi_lo (v : Value) : pair (hi v) (lo v) = v := by
  apply BitVec.eq_of_toNat_eq; rw [toNat_pair, toNat_hi, toNat_lo]; omega

/-- The constants of R22. -/
def constant : Konst → Value
  | .umax => pair 0xFFFFFFFFFFFFFFFF 0xFFFFFFFFFFFFFFFF
  | .smax => pair 0x7FFFFFFFFFFFFFFF 0xFFFFFFFFFFFFFFFF
  | .smin => pair 0x8000000000000000 0x0000000000000000

/-- The pattern of SignedMin (R22). -/
abbrev signedMin : Value := pair 0x8000000000000000 0

/-- The pattern of all ones, -1 in the signed view. -/
abbrev allOnes : Value := pair 0xFFFFFFFFFFFFFFFF 0xFFFFFFFFFFFFFFFF

/-! ## Native integers (R72, 40_construct_convert.md R105, R106) -/

/-- `W = 8 << WD`. -/
def nativeBits : NativeWidth → Nat
  | .w8 => 8
  | .w16 => 16
  | .w32 => 32
  | .w64 => 64

/-- `X[W-1:0]` of a word, read as a native integer of the given signedness, at width `n`. -/
def extendNative (wd : NativeWidth) (sg : Bool) (n : Nat) (x : Limb) : BitVec n :=
  let low := x.setWidth (nativeBits wd)
  if sg then low.signExtend n else low.setWidth n

/-! ## Shift amounts (42_shift_rotate.md R140) -/

/-- `s64(X)` when it lies in [0, 128); none otherwise. It is neither reduced nor clamped. -/
def shiftAmount (x : Limb) : Option (Fin 128) :=
  if h : 0 ≤ x.toInt ∧ x.toInt < 128 then some ⟨x.toInt.toNat, by omega⟩ else none

end Sys2Proof.Machine
end

