-- ==== Sys2Proof/Machine/Flags.lean ====
section
/-! DEFINITION. AU128 keeps no flag (spec/10_state.md R25). What other machines hold in flags is here: the carry and the borrow
between the limbs, which live inside one command, the two orders, and the truth value a comparison returns in `Z`. -/

namespace Sys2Proof.Machine

/-- The carry out of a limb sum, found by comparing the sum with the left operand (41_add_sub_mul.md R120). -/
def carry (left sum : Limb) : Limb := if sum.ult left then 1 else 0

/-- The borrow out of a limb difference, found by the same comparison (R122). -/
def borrow (left difference : Limb) : Limb := if left.ult difference then 1 else 0

/-- The unsigned order: `hi` first, `lo` as tiebreak (43_compare.md R162). -/
def ult (a b : Value) : Bool :=
  (hi a).ult (hi b) || (hi a == hi b && (lo a).ult (lo b))

/-- The signed order: `hi` as a signed limb, `lo` as an unsigned tiebreak (R167). -/
def slt (a b : Value) : Bool :=
  (hi a).slt (hi b) || (hi a == hi b && (lo a).ult (lo b))

/-- Equality compares both limbs (R160). -/
def eq128 (a b : Value) : Bool := hi a == hi b && lo a == lo b

/-- `Z = 1` for true, `Z = 0` for false (43_compare.md, D8). -/
def truth (b : Bool) : Limb := if b then 1 else 0

/-- `ult(a,b)` holds exactly when `u(a) < u(b)` (R162). -/
theorem ult_iff (a b : Value) : ult a b = true ↔ a.toNat < b.toNat := by
  simp only [ult, BitVec.ult, Bool.or_eq_true, Bool.and_eq_true, decide_eq_true_eq, beq_iff_eq, ← BitVec.toNat_inj, toNat_hi, toNat_lo]
  omega

end Sys2Proof.Machine
end

