-- ==== Sys2Proof/Machine/Arith.lean ====
section
/-! DEFINITION. The adder, subtractor, multiplier, negator and the limb-wise logic (spec/41_add_sub_mul.md, 44_bitwise.md). -/

namespace Sys2Proof.Machine

/-- R120: limb-wise addition, the carry found by comparison. -/
def add128 (a b : Value) : Value :=
  let l := lo a + lo b
  pair (hi a + hi b + carry (lo a) l) l

/-- R122: limb-wise subtraction, the borrow found by comparison. -/
def sub128 (a b : Value) : Value :=
  let l := lo a - lo b
  pair (hi a - hi b - borrow (lo a) l) l

/-! R183, R180 to R182: limb-wise logic. -/

def not128 (v : Value) : Value := pair (~~~hi v) (~~~lo v)

def and128 (a b : Value) : Value := pair (hi a &&& hi b) (lo a &&& lo b)

def or128 (a b : Value) : Value := pair (hi a ||| hi b) (lo a ||| lo b)

def xor128 (a b : Value) : Value := pair (hi a ^^^ hi b) (lo a ^^^ lo b)

/-- R126: bit-complement + 1. -/
def neg128 (a : Value) : Value := add128 (not128 a) (pair 0 1)

/-- A 32-bit half of a limb, as a 64-bit factor of a partial product (R124). -/
def halfLo (l : Limb) : Limb := (l.extractLsb' 0 32).setWidth 64

def halfHi (l : Limb) : Limb := (l.extractLsb' 32 32).setWidth 64

/-- A partial product moved up 32 bits, as a value: `shl128(zext_128(p), 32)` of R124. -/
def atBit32 (p : Limb) : Value := pair (p >>> 32) (p <<< 32)

/-- R124: four 32x32 partial products of the low limbs, and the cross-limb products, which reach the high limb only. The
arrangement is the spec's from general knowledge (G1); the value law of R124 is what it is held to (log 14). -/
def mul128 (a b : Value) : Value :=
  let p00 := halfLo (lo a) * halfLo (lo b)
  let p01 := halfLo (lo a) * halfHi (lo b)
  let p10 := halfHi (lo a) * halfLo (lo b)
  let p11 := halfHi (lo a) * halfHi (lo b)
  let r := pair (hi a * lo b + lo a * hi b + p11) p00
  add128 (add128 r (atBit32 p10)) (atBit32 p01)

/-- The value law of R120. -/
theorem add128_eq (a b : Value) : add128 a b = a + b := by
  have ha := a.isLt; have hb := b.isLt
  apply BitVec.eq_of_toNat_eq
  simp only [add128, toNat_pair, carry, BitVec.ult, BitVec.toNat_add, toNat_hi, toNat_lo, decide_eq_true_eq]
  split <;> simp <;> omega

theorem not128_eq (a : Value) : not128 a = ~~~a := by
  have ha := a.isLt
  apply BitVec.eq_of_toNat_eq
  simp only [not128, toNat_pair, BitVec.toNat_not, toNat_hi, toNat_lo]
  omega

/-- The value law of R126. -/
theorem neg128_eq (a : Value) : neg128 a = -a := by
  rw [neg128, add128_eq, not128_eq, BitVec.neg_eq_not_add]; rfl

/-- The absolute value by unsigned negation, as the signed operations take it (45_divide.md R195). -/
def abs128 (a : Value) : Value := if a.msb then neg128 a else a

/-- A nonzero operand has a nonzero absolute value, so the division engine's precondition carries over (R195). -/
theorem abs128_ne_zero {a : Value} (h : a ≠ 0) : abs128 a ≠ 0 := by
  rw [abs128, neg128_eq]
  split
  · simpa using h
  · exact h

end Sys2Proof.Machine
end

