-- ==== Sys2Proof/Machine/AddSubMul.lean ====
section
/-! DEFINITION. ADD, SUB, MUL, NEG, NEGS (spec/41_add_sub_mul.md). -/

namespace Sys2Proof.Machine

/-- R121: `V[RD] <- add128(V[RA], V[RB])`, wrapping silently. -/
def execAdd (rd ra rb : Reg) (s : State) : Result :=
  let a := readV s ra
  let b := readV s rb
  wrapOrStop (a.toInt + b.toInt) (done (writeV s rd (add128 a b)) 0)

/-- R123: `V[RD] <- sub128(V[RA], V[RB])`. -/
def execSub (rd ra rb : Reg) (s : State) : Result :=
  let a := readV s ra
  let b := readV s rb
  wrapOrStop (a.toInt - b.toInt) (done (writeV s rd (sub128 a b)) 0)

/-- R125: `V[RD] <- mul128(V[RA], V[RB])`. -/
def execMul (rd ra rb : Reg) (s : State) : Result :=
  let a := readV s ra
  let b := readV s rb
  wrapOrStop (a.toInt * b.toInt) (done (writeV s rd (mul128 a b)) 0)

/-- R127: `V[RD] <- neg128(V[RA])`; never faults. -/
def execNeg (rd ra : Reg) (s : State) : Result := done (writeV s rd (neg128 (readV s ra))) 0

/-- R128: negation in the signed view; SignedMin raises `SNEGOVF`. -/
def execNegs (rd ra : Reg) (s : State) : Result :=
  let a := readV s ra
  if a = signedMin then violation .snegovf (.negs rd ra) s
  else done (writeV s rd (neg128 a)) 0

end Sys2Proof.Machine
end

