-- ==== Sys2Proof/Machine/Bitwise.lean ====
section
/-! DEFINITION. AND, OR, XOR, NOT (spec/44_bitwise.md). -/

namespace Sys2Proof.Machine

/-- R180. -/
def execAnd (rd ra rb : Reg) (s : State) : Result :=
  done (writeV s rd (and128 (readV s ra) (readV s rb))) 0

/-- R181. -/
def execOr (rd ra rb : Reg) (s : State) : Result :=
  done (writeV s rd (or128 (readV s ra) (readV s rb))) 0

/-- R182. -/
def execXor (rd ra rb : Reg) (s : State) : Result :=
  done (writeV s rd (xor128 (readV s ra) (readV s rb))) 0

/-- R183. -/
def execNot (rd ra : Reg) (s : State) : Result := done (writeV s rd (not128 (readV s ra))) 0

end Sys2Proof.Machine
end

