-- ==== Sys2Proof/Machine/Compare.lean ====
section
/-! DEFINITION. The ten comparisons (spec/43_compare.md); no register is written. -/

namespace Sys2Proof.Machine

/-- R160. -/
def execEq (ra rb : Reg) (s : State) : Result := done s (truth (eq128 (readV s ra) (readV s rb)))

/-- R161. -/
def execNe (ra rb : Reg) (s : State) : Result := done s (truth (!eq128 (readV s ra) (readV s rb)))

/-- R163. -/
def execLtu (ra rb : Reg) (s : State) : Result := done s (truth (ult (readV s ra) (readV s rb)))

/-- R164. -/
def execLeu (ra rb : Reg) (s : State) : Result := done s (truth (!ult (readV s rb) (readV s ra)))

/-- R165. -/
def execGtu (ra rb : Reg) (s : State) : Result := done s (truth (ult (readV s rb) (readV s ra)))

/-- R166. -/
def execGeu (ra rb : Reg) (s : State) : Result := done s (truth (!ult (readV s ra) (readV s rb)))

/-- R168. -/
def execLts (ra rb : Reg) (s : State) : Result := done s (truth (slt (readV s ra) (readV s rb)))

/-- R169. -/
def execLes (ra rb : Reg) (s : State) : Result := done s (truth (!slt (readV s rb) (readV s ra)))

/-- R170. -/
def execGts (ra rb : Reg) (s : State) : Result := done s (truth (slt (readV s rb) (readV s ra)))

/-- R171. -/
def execGes (ra rb : Reg) (s : State) : Result := done s (truth (!slt (readV s ra) (readV s rb)))

end Sys2Proof.Machine
end

