-- ==== Sys2Proof/Machine/Construct.lean ====
section
/-! DEFINITION. MKHL, GETHI, GETLO, LDC, MOV, FROMINT, TOINT (spec/40_construct_convert.md). -/

namespace Sys2Proof.Machine

/-- R100: `V[RD] <- {X, Y}`. -/
def execMkhl (rd : Reg) (x y : Limb) (s : State) : Result := done (writeV s rd (pair x y)) 0

/-- R101: `Z <- V[RA].hi`. -/
def execGethi (ra : Reg) (s : State) : Result := done s (hi (readV s ra))

/-- R102: `Z <- V[RA].lo`. -/
def execGetlo (ra : Reg) (s : State) : Result := done s (lo (readV s ra))

/-- R103: `V[RD] <- C[K]`. -/
def execLdc (rd : Reg) (k : Konst) (s : State) : Result := done (writeV s rd (constant k)) 0

/-- R104: `V[RD] <- V[RA]`. -/
def execMov (rd ra : Reg) (s : State) : Result := done (writeV s rd (readV s ra)) 0

/-- R105: `X[W-1:0]` sign- or zero-extended to 128 bits. -/
def execFromint (rd : Reg) (wd : NativeWidth) (sg : Bool) (x : Limb) (s : State) : Result :=
  done (writeV s rd (extendNative wd sg 128 x)) 0

/-- R106: the low `W` bits of the low limb, extended to 64 bits by the target's signedness. -/
def execToint (ra : Reg) (wd : NativeWidth) (sg : Bool) (s : State) : Result :=
  done s (extendNative wd sg 64 (lo (readV s ra)))

end Sys2Proof.Machine
end

