-- ==== Sys2Proof/Machine/Barrel.lean ====
section
/-! DEFINITION. The shift and rotate barrels (spec/42_shift_rotate.md). The amount's type is the barrel's domain, 0 to 127, so
no limb is ever shifted by 64 or more (spec/93_implementation_defined.md U8). -/

namespace Sys2Proof.Machine

/-- R141: the left barrel. From 64 on the result is formed purely from the opposite limb. -/
def shl128 (v : Value) (n : Fin 128) : Value :=
  if n.val = 0 then v
  else if n.val < 64 then
    pair ((hi v <<< n.val) ||| (lo v >>> (64 - n.val))) (lo v <<< n.val)
  else pair (lo v <<< (n.val - 64)) 0

/-- R143: the right barrel. -/
def shr128 (v : Value) (n : Fin 128) : Value :=
  if n.val = 0 then v
  else if n.val < 64 then
    pair (hi v >>> n.val) ((lo v >>> n.val) ||| (hi v <<< (64 - n.val)))
  else pair 0 (hi v >>> (n.val - 64))

/-- R145: the arithmetic right shift, ones entering at the top of a negative value. -/
def sar128 (v : Value) (n : Fin 128) : Value :=
  if v.msb then not128 (shr128 (not128 v) n) else shr128 v n

/-- `128 - n` for a nonzero amount, again an amount (R146). -/
def complementAmount (n : Fin 128) (h : n.val ≠ 0) : Fin 128 := ⟨128 - n.val, by omega⟩

/-- R146: rotate left, composed of the two barrels. -/
def rol128 (v : Value) (n : Fin 128) : Value :=
  if h : n.val = 0 then v else or128 (shl128 v n) (shr128 v (complementAmount n h))

/-- R147: rotate right. -/
def ror128 (v : Value) (n : Fin 128) : Value :=
  if h : n.val = 0 then v else or128 (shr128 v n) (shl128 v (complementAmount n h))

end Sys2Proof.Machine
end

