-- ==== Sys2Proof/Machine/DivisionEngine.lean ====
section
/-! DEFINITION. The division engine (spec/45_divide.md R190 to R195): find-last-set, unsigned shift-subtract division, and signed
division through absolute values. The preconditions are proof arguments: no value is given outside them (U1, U6, U7). -/

namespace Sys2Proof.Machine

/-! ## Find-last-set (R190) -/

/-- The highest set bit of `x` at or below bit `k`; 0 when there is none above bit 0. -/
def highestSetBelow (x : Limb) : Nat → Nat
  | 0 => 0
  | k + 1 => if x.getLsbD (k + 1) then k + 1 else highestSetBelow x k

theorem highestSetBelow_le (x : Limb) : ∀ k, highestSetBelow x k ≤ k
  | 0 => Nat.le_refl 0
  | k + 1 => by
    rw [highestSetBelow]
    split
    · exact Nat.le_refl _
    · exact Nat.le_succ_of_le (highestSetBelow_le x k)

/-- `fls64`: the index of the most significant set bit of a nonzero limb. -/
def fls64 (x : Limb) (_h : x ≠ 0) : Fin 64 :=
  ⟨highestSetBelow x 63, Nat.lt_succ_of_le (highestSetBelow_le x 63)⟩

theorem lo_ne_zero_of_hi_eq_zero {v : Value} (h : v ≠ 0) (hh : hi v = 0) : lo v ≠ 0 := by
  intro hl
  apply h
  rw [← pair_hi_lo v, hh, hl]
  rfl

/-- `fls128`: the same of a nonzero value, from its limbs. -/
def fls128 (v : Value) (h : v ≠ 0) : Fin 128 :=
  if hh : hi v = 0 then ⟨(fls64 (lo v) (lo_ne_zero_of_hi_eq_zero h hh)).val, by omega⟩
  else ⟨64 + (fls64 (hi v) hh).val, by omega⟩

/-! ## Unsigned division (R191) -/

/-- Step 3 of R191, `n` iterations: `d` is the divisor, `rem` the running dividend, `q` the running quotient. -/
def divideLoop : Nat → (d rem q : Value) → Value × Value
  | 0, _, rem, q => (q, rem)
  | n + 1, d, rem, q =>
    let q2 := shl128 q 1
    if ult rem d then divideLoop n (shr128 d 1) rem q2
    else divideLoop n (shr128 d 1) (sub128 rem d) (or128 q2 (pair 0 1))

/-- Past step 1 of R191 the dividend is nonzero. -/
theorem dividend_ne_zero {a b : Value} (hb : b ≠ 0) (h : ¬ ult a b = true) : a ≠ 0 := by
  rintro rfl
  rw [ult_iff] at h
  have hz : b.toNat = 0 := by simpa using h
  exact hb (BitVec.eq_of_toNat_eq (by simpa using hz))

/-- R191: `(quotient, remainder)` of a dividend by a nonzero divisor. -/
def udivmod128 (a b : Value) (hb : b ≠ 0) : Value × Value :=
  if h : ult a b = true then (0, a)
  else if eq128 a b then (1, 0)
  else
    let fa := (fls128 a (dividend_ne_zero hb h)).val
    let shift : Fin 128 := ⟨fa - (fls128 b hb).val, by omega⟩
    divideLoop (shift.val + 1) (shl128 b shift) a 0

/-! ## Signed division (R195) -/

/-- The pair R200 excludes: SignedMin by -1. -/
def signedOverflowPair (a b : Value) : Bool := a == signedMin && b == allOnes

/-- R195: absolute values by unsigned negation; quotient sign the XOR of the operand signs, remainder sign the dividend's. -/
def sdivmod128 (a b : Value) (hb : b ≠ 0) (_h : signedOverflowPair a b = false) : Value × Value :=
  let qr := udivmod128 (abs128 a) (abs128 b) (abs128_ne_zero hb)
  (if a.msb != b.msb then neg128 qr.1 else qr.1, if a.msb then neg128 qr.2 else qr.2)

end Sys2Proof.Machine
end

