-- ==== Sys2Proof/Machine/Divide.lean ====
section
/-! DEFINITION. DIVU, MODU, DIVMODU, DIVS, MODS, DIVMODS (spec/45_divide.md): the tests of R199 and R200 in the order of each rule, then
the engine; both sources are read before either destination is written. -/

namespace Sys2Proof.Machine

/-- R192: unsigned quotient. -/
def execDivu (rd ra rb : Reg) (s : State) : Result :=
  let a := readV s ra
  let b := readV s rb
  if hb : b = 0 then violation .divzero (.divu rd ra rb) s
  else done (writeV s rd (udivmod128 a b hb).1) 0

/-- R193: unsigned remainder. -/
def execModu (rd ra rb : Reg) (s : State) : Result :=
  let a := readV s ra
  let b := readV s rb
  if hb : b = 0 then violation .divzero (.modu rd ra rb) s
  else done (writeV s rd (udivmod128 a b hb).2) 0

/-- R194: quotient to `RD`, remainder to `RE`; `RD = RE` is illegal (30_encoding.md R75 d). -/
def execDivmodu (rd re ra rb : Reg) (s : State) : Result :=
  if rd = re then .next (raise .illegal (encodeWord (.divmodu rd re ra rb)) s)
  else
    let a := readV s ra
    let b := readV s rb
    if hb : b = 0 then violation .divzero (.divmodu rd re ra rb) s
    else
      let qr := udivmod128 a b hb
      done (writeV (writeV s rd qr.1) re qr.2) 0

/-- R196: signed quotient, truncating. -/
def execDivs (rd ra rb : Reg) (s : State) : Result :=
  let a := readV s ra
  let b := readV s rb
  if hb : b = 0 then violation .divzero (.divs rd ra rb) s
  else if ho : signedOverflowPair a b = true then violation .sdivovf (.divs rd ra rb) s
  else done (writeV s rd (sdivmod128 a b hb (Bool.eq_false_iff.mpr ho)).1) 0

/-- R197: signed remainder, the dividend's sign. -/
def execMods (rd ra rb : Reg) (s : State) : Result :=
  let a := readV s ra
  let b := readV s rb
  if hb : b = 0 then violation .divzero (.mods rd ra rb) s
  else if ho : signedOverflowPair a b = true then violation .sdivovf (.mods rd ra rb) s
  else done (writeV s rd (sdivmod128 a b hb (Bool.eq_false_iff.mpr ho)).2) 0

/-- R198: the signed combined divide-modulo. -/
def execDivmods (rd re ra rb : Reg) (s : State) : Result :=
  if rd = re then .next (raise .illegal (encodeWord (.divmods rd re ra rb)) s)
  else
    let a := readV s ra
    let b := readV s rb
    if hb : b = 0 then violation .divzero (.divmods rd re ra rb) s
    else if ho : signedOverflowPair a b = true then violation .sdivovf (.divmods rd re ra rb) s
    else
      let qr := sdivmod128 a b hb (Bool.eq_false_iff.mpr ho)
      done (writeV (writeV s rd qr.1) re qr.2) 0

end Sys2Proof.Machine
end

