-- ==== Sys2Proof/Machine/FloatBridge.lean ====
section
/-! DEFINITION. The float bridge (spec/47_float.md): binary32 and binary64 patterns, the primitives of R265 on exact numbers, and
the conversions in both directions. -/

namespace Sys2Proof.Machine

/-! ## Formats (R260) -/

/-- The width of the fraction field, `m`; the precision is `m + 1`. -/
def fracBits : FpFormat → Nat
  | .binary32 => 23
  | .binary64 => 52

def bias : FpFormat → Nat
  | .binary32 => 127
  | .binary64 => 1023

/-- The all-ones exponent field, `emax`. -/
def expOnes : FpFormat → Nat
  | .binary32 => 255
  | .binary64 => 2047

/-- The sign bit's place. -/
def signPlace : FpFormat → Nat
  | .binary32 => 31
  | .binary64 => 63

/-- The fraction field of a pattern in `X`; for binary32 the bits above 31 are not looked at (R76). -/
def fraction : FpFormat → Limb → Nat
  | .binary32, x => (x.extractLsb' 0 23).toNat
  | .binary64, x => (x.extractLsb' 0 52).toNat

def exponent : FpFormat → Limb → Nat
  | .binary32, x => (x.extractLsb' 23 8).toNat
  | .binary64, x => (x.extractLsb' 52 11).toNat

/-- A number a format can stand for: an infinity, or `(-1)^neg * mant * 2^exp`. -/
inductive FpNum where
  | inf (neg : Bool)
  | fin (neg : Bool) (mant : Nat) (exp : Int)
  deriving DecidableEq, Repr

/-- The number a pattern stands for; none for a NaN (R260). -/
def unpackFp (fp : FpFormat) (x : Limb) : Option FpNum :=
  let s := x.getLsbD (signPlace fp)
  let e := exponent fp x
  let f := fraction fp x
  if e = expOnes fp then (if f = 0 then some (.inf s) else none)
  else if e = 0 then some (.fin s f (1 - bias fp - fracBits fp))
  else some (.fin s (2 ^ fracBits fp + f) (e - bias fp - fracBits fp))

/-- A pattern from its three fields, zero-extended to 64 bits. -/
def assembleFp : FpFormat → (s : Bool) → (e f : Nat) → Limb
  | .binary32, s, e, f => 0#32 ++ bit s ++ BitVec.ofNat 8 e ++ BitVec.ofNat 23 f
  | .binary64, s, e, f => bit s ++ BitVec.ofNat 11 e ++ BitVec.ofNat 52 f

/-- `floor(n * 2^k)`. -/
def scaleFloor (n : Nat) (k : Int) : Nat :=
  if 0 ≤ k then n * 2 ^ k.toNat else n / 2 ^ (-k).toNat

/-- The pattern of a number the format holds exactly (R260). -/
def packFp (fp : FpFormat) : FpNum → Limb
  | .inf s => assembleFp fp s (expOnes fp) 0
  | .fin s m e =>
    let top : Int := e + Nat.log2 m
    if m = 0 then assembleFp fp s 0 0
    else if top < 1 - bias fp then assembleFp fp s 0 (scaleFloor m (e - (1 - bias fp - fracBits fp)))
    else assembleFp fp s (top + bias fp).toNat (scaleFloor m (fracBits fp - Nat.log2 m) - 2 ^ fracBits fp)

/-! ## Rounding (R265; D14) -/

/-- Whether a magnitude `kept + dropped/unit`, in units of the last place, rounds away from zero. -/
def roundsUp (mode : RoundingMode) (neg : Bool) (kept dropped unit : Nat) : Bool :=
  match mode with
  | .tiesToEven => decide (unit < 2 * dropped) || (2 * dropped == unit && kept % 2 == 1)
  | .tiesToAway => decide (unit ≤ 2 * dropped)
  | .towardZero => false
  | .towardPositive => !neg && dropped != 0
  | .towardNegative => neg && dropped != 0

/-- The result of a rounding past the largest finite number: infinity in the mode AU128 uses (D40). -/
def overflowed (fp : FpFormat) (mode : RoundingMode) (neg : Bool) : FpNum :=
  let largest : FpNum := .fin neg (2 ^ (fracBits fp + 1) - 1) (bias fp - fracBits fp)
  match mode with
  | .tiesToEven | .tiesToAway => .inf neg
  | .towardZero => largest
  | .towardPositive => if neg then largest else .inf neg
  | .towardNegative => if neg then .inf neg else largest

/-- `m * 2^e` is at or above `2^(bias+1)`, where the format ends. -/
def pastLargest (fp : FpFormat) (m : Nat) (e : Int) : Bool :=
  m != 0 && decide ((bias fp : Int) + 1 ≤ e + Nat.log2 m)

/-- `(-1)^neg * n * 2^e` rounded to the format. The unit in the last place is `2^q`. -/
def roundFp (fp : FpFormat) (mode : RoundingMode) (neg : Bool) (n : Nat) (e : Int) : FpNum :=
  let q : Int := max (e + Nat.log2 n - fracBits fp) (1 - bias fp - fracBits fp)
  if q ≤ e then
    if pastLargest fp n e then overflowed fp mode neg else .fin neg n e
  else
    let unit := 2 ^ (q - e).toNat
    let m := n / unit + (if roundsUp mode neg (n / unit) (n % unit) unit then 1 else 0)
    if pastLargest fp m q then overflowed fp mode neg else .fin neg m q

/-! ## The primitives of R265 -/

/-- `cvt_F(n)`. -/
def cvtFp (fp : FpFormat) (mode : RoundingMode) (n : Limb) : FpNum := roundFp fp mode false n.toNat 0

/-- `scalb_F(x, k)`: exact, or the infinity of the sign of `x` on overflow. -/
def scalbFp (fp : FpFormat) : FpNum → Int → FpNum
  | .inf s, _ => .inf s
  | .fin s m e, k => if pastLargest fp m (e + k) then .inf s else .fin s m (e + k)

/-- The integer `(-1)^neg * m * 2^(e - e0)` for `e0 ≤ e`. -/
def alignedInt (neg : Bool) (m : Nat) (e e0 : Int) : Int :=
  let n : Int := m * 2 ^ (e - e0).toNat
  if neg then -n else n

/-- The sign of an exact zero sum (IEEE 754; it matters in `towardNegative` only). -/
def zeroSumSign (mode : RoundingMode) (s1 s2 : Bool) : Bool :=
  if s1 == s2 then s1 else mode == .towardNegative

/-- `fadd_F(x, y)`: an infinite operand is the sum; otherwise the exact sum, rounded once. -/
def faddFp (fp : FpFormat) (mode : RoundingMode) : FpNum → FpNum → FpNum
  | .inf s, _ => .inf s
  | .fin _ _ _, .inf s => .inf s
  | .fin s1 m1 e1, .fin s2 m2 e2 =>
    let e0 := min e1 e2
    let n := alignedInt s1 m1 e1 e0 + alignedInt s2 m2 e2 e0
    if n = 0 then .fin (zeroSumSign mode s1 s2) 0 0 else roundFp fp mode (decide (n < 0)) n.natAbs e0

def negateNum : FpNum → FpNum
  | .inf s => .inf (!s)
  | .fin s m e => .fin (!s) m e

/-- `fsub_F(x, y)`. -/
def fsubFp (fp : FpFormat) (mode : RoundingMode) (x y : FpNum) : FpNum := faddFp fp mode x (negateNum y)

/-- `trunc64_F(x)`, defined where `0 <= val(x) < 2^64` only. -/
def trunc64 : FpNum → Option Limb
  | .inf _ => none
  | .fin s m e =>
    if (s && m != 0) || decide (2 ^ 64 ≤ scaleFloor m e) then none
    else some (BitVec.ofNat 64 (scaleFloor m e))

/-! ## Float to integer -/

/-- The split of R261 on the number `m * 2^e` below 2^128: a high part by exponent shifting, a low remainder. The meanings use
the value law, which R266 allows; that the split computes it is a statement (log 11). -/
def splitConvert (fp : FpFormat) (m : Nat) (e : Int) : Option Value :=
  let x : FpNum := .fin false m e
  if 2 ^ 63 ≤ scaleFloor m e then
    match trunc64 (scalbFp fp x (-64)) with
    | none => none
    | some h =>
      match trunc64 (fsubFp fp config.fpRound x (scalbFp fp (cvtFp fp config.fpRound h) 64)) with
      | none => none
      | some l => some (pair h l)
  else
    match trunc64 x with
    | none => none
    | some l => some (pair 0 l)

/-- R261: the tests in their order, then `trunc(val(x))`. `val(x) >= 2^128` exactly when its truncation is. -/
def fromFloatUnsigned (fp : FpFormat) (x : Limb) : Except Cause Value :=
  match unpackFp fp x with
  | none => .error .fnan
  | some (.inf _) => .error .frange
  | some (.fin s m e) =>
    if s && m != 0 then .error .frange
    else if 2 ^ 128 ≤ scaleFloor m e then .error .frange
    else .ok (BitVec.ofNat 128 (scaleFloor m e))

/-- R262: the tests in their order, then the absolute value's truncation with the sign restored. -/
def fromFloatSigned (fp : FpFormat) (x : Limb) : Except Cause Value :=
  match unpackFp fp x with
  | none => .error .fnan
  | some (.inf _) => .error .frange
  | some (.fin s m e) =>
    let mag := scaleFloor m e
    if (!s && decide (2 ^ 127 ≤ mag)) || (s && decide (2 ^ 127 + 1 ≤ mag)) then .error .frange
    else .ok (if s then neg128 (BitVec.ofNat 128 mag) else BitVec.ofNat 128 mag)

/-! ## Integer to float -/

/-- R263: `lo` plus `hi` scaled by 2^64, each step rounded. -/
def toFloatUnsigned (fp : FpFormat) (v : Value) : Limb :=
  let mode := config.fpRound
  packFp fp (faddFp fp mode (cvtFp fp mode (lo v)) (scalbFp fp (cvtFp fp mode (hi v)) 64))

/-- R264: the magnitude converted, then the sign bit set for a negative value. -/
def toFloatSigned (fp : FpFormat) (v : Value) : Limb :=
  if v.msb then toFloatUnsigned fp (neg128 v) ||| (1#64 <<< signPlace fp) else toFloatUnsigned fp v

end Sys2Proof.Machine
end

