-- ==== Sys2Proof/Machine/FloatConvert.lean ====
section
/-! DEFINITION. FROMFU, FROMFS, TOFU, TOFS (spec/47_float.md). -/

namespace Sys2Proof.Machine

/-- R261: construct an unsigned value from a float. -/
def execFromfu (rd : Reg) (fp : FpFormat) (x : Limb) (s : State) : Result :=
  match fromFloatUnsigned fp x with
  | .error c => violation c (.fromfu rd fp x) s
  | .ok v => done (writeV s rd v) 0

/-- R262: construct a signed value from a float. -/
def execFromfs (rd : Reg) (fp : FpFormat) (x : Limb) (s : State) : Result :=
  match fromFloatSigned fp x with
  | .error c => violation c (.fromfs rd fp x) s
  | .ok v => done (writeV s rd v) 0

/-- R263: convert an unsigned value to a float. -/
def execTofu (ra : Reg) (fp : FpFormat) (s : State) : Result := done s (toFloatUnsigned fp (readV s ra))

/-- R264: convert a signed value to a float. -/
def execTofs (ra : Reg) (fp : FpFormat) (s : State) : Result := done s (toFloatSigned fp (readV s ra))

end Sys2Proof.Machine
end

