-- ==== Sys2Proof/Machine/Formatter.lean ====
section
/-! DEFINITION. The formatter (spec/46_format.md R220 to R230): sign and magnitude, chunks, digits, prefix, text. -/

namespace Sys2Proof.Machine

/-! ## The table of R222 -/

/-- `B`. -/
def radix : Base → Nat
  | .dec => 10
  | .oct => 8
  | .hex => 16

/-- `w`, the digits of a chunk. -/
def chunkWidth : Base → Nat
  | .dec => 19
  | .oct => 21
  | .hex => 15

/-- `D = B^w` as a 64-bit word. -/
def chunkDivisor : Base → Limb
  | .dec => 0x8AC7230489E80000
  | .oct => 0x8000000000000000
  | .hex => 0x1000000000000000

/-- The chunk divisor as a 128-bit divisor `{0, D}`. -/
def chunkValue (b : Base) : Value := pair 0 (chunkDivisor b)

theorem chunkValue_ne_zero (b : Base) : chunkValue b ≠ 0 := by cases b <;> decide

/-! ## Chunks and digits -/

/-- R223: the high, middle and low chunk of a magnitude, by two divisions. -/
def chunks (b : Base) (mag : Value) : Limb × Limb × Limb :=
  let first := udivmod128 mag (chunkValue b) (chunkValue_ne_zero b)
  let second := udivmod128 first.1 (chunkValue b) (chunkValue_ne_zero b)
  (lo second.1, lo second.2, lo first.2)

/-- The numeral of `n` in a radix, most significant digit first, by at most `fuel` divisions. -/
def numeral (radix : Nat) : (fuel n : Nat) → List Nat
  | 0, _ => []
  | fuel + 1, n => if n < radix then [n] else numeral radix fuel (n / radix) ++ [n % radix]

/-- `dig(c)` of R224: no leading zero, the single digit 0 for zero. 64 divisions are enough for a limb in any radix. -/
def dig (b : Base) (c : Limb) : List Nat := numeral (radix b) 64 c.toNat

/-- `pad_w(c)` of R224. -/
def padded (b : Base) (c : Limb) : List Nat :=
  List.replicate (chunkWidth b - (dig b c).length) 0 ++ dig b c

/-- The digits of a magnitude (R224). -/
def digits (b : Base) (mag : Value) : List Nat :=
  match chunks b mag with
  | (high, mid, low) =>
    if high != 0 then dig b high ++ padded b mid ++ padded b low
    else if mid != 0 then dig b mid ++ padded b low
    else dig b low

/-- The character of a digit (R229, ASCII): uppercase letters when `UC = 1`. -/
def digitChar (uc : Bool) (d : Nat) : Byte :=
  if d < 10 then BitVec.ofNat 8 (0x30 + d)
  else BitVec.ofNat 8 ((if uc then 0x41 else 0x61) + (d - 10))

/-! ## Sign, prefix and text -/

/-- `isneg` of R225: the sign rule is for signed values in decimal only. -/
def printsNegative (base : Base) (sg : Bool) (v : Value) : Bool := sg && base == .dec && v.msb

/-- `mag` of R225. -/
def magnitude (base : Base) (sg : Bool) (v : Value) : Value :=
  if printsNegative base sg v then neg128 v else v

/-- `sign` of R225: `-`, `+` or nothing. -/
def signText (base : Base) (sg sp : Bool) (v : Value) : List Byte :=
  if printsNegative base sg v then [0x2D]
  else if sg && base == .dec && sp then [0x2B]
  else []

/-- `prefix` of R226: a nonzero value in hexadecimal or octal, when `SB = 1`. -/
def prefixText (base : Base) (uc sb : Bool) (mag : Value) : List Byte :=
  if sb && mag != 0 then
    match base with
    | .dec => []
    | .oct => [0x30]
    | .hex => [0x30, if uc then 0x58 else 0x78]
  else []

/-- `text = sign ++ prefix ++ digits` (R230). -/
def formatText (base : Base) (sg uc sb sp : Bool) (v : Value) : List Byte :=
  signText base sg sp v ++ prefixText base uc sb (magnitude base sg v) ++
    (digits base (magnitude base sg v)).map (digitChar uc)

end Sys2Proof.Machine
end

