-- ==== Sys2Proof/Machine/Format.lean ====
section
/-! DEFINITION. FMT, RDTXT (spec/46_format.md). -/

namespace Sys2Proof.Machine

/-- R227: the text to the text buffer, its length to `TLEN` and `Z`. -/
def execFmt (ra : Reg) (base : Base) (sg uc sb sp : Bool) (s : State) : Result :=
  let text := formatText base sg uc sb sp (readV s ra)
  done (writeText s text) (BitVec.ofNat 64 text.length)

/-- R228: eight bytes of the text buffer. -/
def execRdtxt (k : TextWord) (s : State) : Result := done s (readTextWord s k)

end Sys2Proof.Machine
end

