-- ==== Sys2Proof/Machine/ShiftRotate.lean ====
section
/-! DEFINITION. SHL, SHR, SAR, ROL, ROR (spec/42_shift_rotate.md); the first step of each is the amount's test of R140. -/

namespace Sys2Proof.Machine

/-- R142: logical shift left. -/
def execShl (rd ra : Reg) (x : Limb) (s : State) : Result :=
  match shiftAmount x with
  | none => violation .shamt (.shl rd ra x) s
  | some n => done (writeV s rd (shl128 (readV s ra) n)) 0

/-- R144: logical shift right. -/
def execShr (rd ra : Reg) (x : Limb) (s : State) : Result :=
  match shiftAmount x with
  | none => violation .shamt (.shr rd ra x) s
  | some n => done (writeV s rd (shr128 (readV s ra) n)) 0

/-- R145: shift right in the signed view. -/
def execSar (rd ra : Reg) (x : Limb) (s : State) : Result :=
  match shiftAmount x with
  | none => violation .shamt (.sar rd ra x) s
  | some n => done (writeV s rd (sar128 (readV s ra) n)) 0

/-- R146: rotate left. -/
def execRol (rd ra : Reg) (x : Limb) (s : State) : Result :=
  match shiftAmount x with
  | none => violation .shamt (.rol rd ra x) s
  | some n => done (writeV s rd (rol128 (readV s ra) n)) 0

/-- R147: rotate right. -/
def execRor (rd ra : Reg) (x : Limb) (s : State) : Result :=
  match shiftAmount x with
  | none => violation .shamt (.ror rd ra x) s
  | some n => done (writeV s rd (ror128 (readV s ra) n)) 0

end Sys2Proof.Machine
end

