-- ==== Sys2Proof/Machine/System.lean ====
section
/-! DEFINITION. RDCR (spec/48_system.md). -/

namespace Sys2Proof.Machine

/-- R290: a control register, zero-extended. -/
def execRdcr (n : CtrlReg) (s : State) : Result := done s (readCtrl s n)

end Sys2Proof.Machine
end

