-- ==== Sys2Proof/Machine/Dispatch.lean ====
section
/-! DEFINITION. The meaning of every instruction: one direct call an arm (spec/30_encoding.md R73). -/

namespace Sys2Proof.Machine

def exec (i : Instr) (s : State) : Host.Outcome State Fault Refusal :=
  match i with
  | .mkhl rd x y => Sys2Proof.Machine.execMkhl rd x y s
  | .gethi ra => Sys2Proof.Machine.execGethi ra s
  | .getlo ra => Sys2Proof.Machine.execGetlo ra s
  | .ldc rd k => Sys2Proof.Machine.execLdc rd k s
  | .mov rd ra => Sys2Proof.Machine.execMov rd ra s
  | .fromint rd wd sg x => Sys2Proof.Machine.execFromint rd wd sg x s
  | .toint ra wd sg => Sys2Proof.Machine.execToint ra wd sg s
  | .add rd ra rb => Sys2Proof.Machine.execAdd rd ra rb s
  | .sub rd ra rb => Sys2Proof.Machine.execSub rd ra rb s
  | .mul rd ra rb => Sys2Proof.Machine.execMul rd ra rb s
  | .neg rd ra => Sys2Proof.Machine.execNeg rd ra s
  | .negs rd ra => Sys2Proof.Machine.execNegs rd ra s
  | .divu rd ra rb => Sys2Proof.Machine.execDivu rd ra rb s
  | .modu rd ra rb => Sys2Proof.Machine.execModu rd ra rb s
  | .divmodu rd re ra rb => Sys2Proof.Machine.execDivmodu rd re ra rb s
  | .divs rd ra rb => Sys2Proof.Machine.execDivs rd ra rb s
  | .mods rd ra rb => Sys2Proof.Machine.execMods rd ra rb s
  | .divmods rd re ra rb => Sys2Proof.Machine.execDivmods rd re ra rb s
  | .shl rd ra x => Sys2Proof.Machine.execShl rd ra x s
  | .shr rd ra x => Sys2Proof.Machine.execShr rd ra x s
  | .sar rd ra x => Sys2Proof.Machine.execSar rd ra x s
  | .rol rd ra x => Sys2Proof.Machine.execRol rd ra x s
  | .ror rd ra x => Sys2Proof.Machine.execRor rd ra x s
  | .and rd ra rb => Sys2Proof.Machine.execAnd rd ra rb s
  | .or rd ra rb => Sys2Proof.Machine.execOr rd ra rb s
  | .xor rd ra rb => Sys2Proof.Machine.execXor rd ra rb s
  | .not rd ra => Sys2Proof.Machine.execNot rd ra s
  | .eq ra rb => Sys2Proof.Machine.execEq ra rb s
  | .ne ra rb => Sys2Proof.Machine.execNe ra rb s
  | .ltu ra rb => Sys2Proof.Machine.execLtu ra rb s
  | .leu ra rb => Sys2Proof.Machine.execLeu ra rb s
  | .gtu ra rb => Sys2Proof.Machine.execGtu ra rb s
  | .geu ra rb => Sys2Proof.Machine.execGeu ra rb s
  | .lts ra rb => Sys2Proof.Machine.execLts ra rb s
  | .les ra rb => Sys2Proof.Machine.execLes ra rb s
  | .gts ra rb => Sys2Proof.Machine.execGts ra rb s
  | .ges ra rb => Sys2Proof.Machine.execGes ra rb s
  | .fromfu rd fp x => Sys2Proof.Machine.execFromfu rd fp x s
  | .fromfs rd fp x => Sys2Proof.Machine.execFromfs rd fp x s
  | .tofu ra fp => Sys2Proof.Machine.execTofu ra fp s
  | .tofs ra fp => Sys2Proof.Machine.execTofs ra fp s
  | .fmt ra base sg uc sb sp => Sys2Proof.Machine.execFmt ra base sg uc sb sp s
  | .rdtxt k => Sys2Proof.Machine.execRdtxt k s
  | .rdcr n => Sys2Proof.Machine.execRdcr n s

end Sys2Proof.Machine
end

