-- ==== Sys2Proof/Machine/Command.lean ====
section
/-! DEFINITION. What the unit does with what the host presents: one packet by the steps of spec/30_encoding.md R81, or reset. -/

namespace Sys2Proof.Machine

/-- The one instruction the halted unit executes (60_exceptions.md R307). -/
def runsWhileHalted : Instr → Bool
  | .rdcr _ => true
  | _ => false

/-- R81: the halted check, then the decoder's check, then the instruction's meaning (log 13). -/
def runPacket (p : Packet) (s : State) : Result :=
  if halted s then
    match decode p with
    | .ok i => if runsWhileHalted i then exec i s else .next (refuseHalted s)
    | .error _ => .next (refuseHalted s)
  else
    match decode p with
    | .ok i => exec i s
    | .error _ => .next (raise .illegal p.cw s)

/-- One input of the host. A command that is in progress when `RST` comes is abandoned with no response and no effect
(70_reset_and_hazards.md R340). -/
def runInput (x : Input) (s : State) : Result :=
  match x with
  | .command p => runPacket p s
  | .reset _ => .next (resetUnit s)

/-- Take the next input, in the order presented (20_memory.md R57); with none the unit waits (R340, log 2). -/
def takeInput (s : State) : Result :=
  match s.inputs with
  | [] => .next s
  | x :: rest => runInput x { s with inputs := rest }

/-- A packet put in front of everything the host is yet to present. -/
def present (p : Packet) (s : State) : State := { s with inputs := .command p :: s.inputs }

end Sys2Proof.Machine
end

