-- ==== Sys2Proof/Machine/Step.lean ====
section
/-! DEFINITION. One step: the unit takes one input of the host (spec/00_scope.md R9, 70_reset_and_hazards.md R343). -/

namespace Sys2Proof.Machine

/-- One step of AU128. -/
def step (s : State) : Host.Outcome State Fault Refusal := takeInput s

/-- `s` with the packet whose bits are the low `nbits` bits of `w` as the next packet on the command port: AU128 fetches nothing,
its host presents every command (10_state.md R24, log 1). -/
def State.withFetchWord (s : State) (nbits w : Nat) : State := present (packetOfBits nbits w) s

end Sys2Proof.Machine
end

