-- ==== Sys2Proof/Safety.lean ====
section
/-! DEFINITION. What statements are said in: the running unit, the invariant of the state, and under `Spec` the vocabulary of
spec/, written from its rules alone and not from the machine (whole next states, command words as R71's sum, the opcode map
R73 as a table, texts as numerals, and the numbers of float patterns). -/

namespace Sys2Proof.Machine

/-- The unit is running (spec/10_state.md R26). -/
abbrev State.Running (s : State) : Prop := s.flt = 0

/-- The text buffer holds a text of `TLEN` ASCII characters, at most 44 of them, and zero bytes after it
(10_state.md R29, 46_format.md R229, R230). -/
abbrev State.TextOk (s : State) : Prop :=
  s.tlen.toNat ≤ 44 ∧
    ∀ k : Fin 48, if k.val < s.tlen.toNat then 0 < s.t[k].toNat ∧ s.t[k].toNat < 128 else s.t[k] = 0

/-- `FLT` holds zero or one of the seven cause codes, so `FLT[7] = 0`; `FINFO` is zero while the unit runs (R26, R27, R301). -/
abbrev State.FaultOk (s : State) : Prop :=
  s.flt.toNat ≤ 7 ∧ (s.flt = 0 → s.finfo = 0)

/-- A response packet the unit can send (30_encoding.md R77): a cause code or zero in `ST[6:0]`; with `ST[7]` set a cause
code and `Z = 0`. -/
abbrev Response.Ok (r : Response) : Prop :=
  (r.st &&& 0x7F).toNat ≤ 7 ∧ (r.st.msb = true → r.st ≠ 0x80 ∧ r.z = 0)

/-- The invariant every step keeps. -/
structure State.Inv (s : State) : Prop where
  text : s.TextOk
  fault : s.FaultOk
  answered : ∀ r ∈ s.responses, r.Ok

/-- A run is safe so far when no command was faulted or refused: every response has `ST[7] = 0` (R77). -/
abbrev State.SafeSoFar (s : State) : Prop := ∀ r ∈ s.responses, r.st.msb = false

end Sys2Proof.Machine

namespace Sys2Proof.Spec

open Sys2Proof.Machine

/-! ## Next states, whole: what is not named does not change (spec/10_state.md R23, 30_encoding.md R77, R81) -/

/-- A command executed in the running unit that returns `Z = z` and changes nothing else. -/
def executed (s : State) (z : Limb) : State :=
  { s with responses := { st := 0, z := z } :: s.responses }

/-- A command executed in the running unit that writes one value register and returns `Z = 0`. -/
def wrote (s : State) (rd : Reg) (x : Value) : State :=
  { s with v := s.v.set rd.val x rd.isLt, responses := { st := 0, z := 0 } :: s.responses }

/-- The same with two value registers, as a combined divide-modulo writes them (45_divide.md R194, R198). -/
def wroteBoth (s : State) (rd : Reg) (x : Value) (re : Reg) (y : Value) : State :=
  { s with v := (s.v.set rd.val x rd.isLt).set re.val y re.isLt
           responses := { st := 0, z := 0 } :: s.responses }

/-- Fault entry with a cause code and the command word that faulted (60_exceptions.md R306). -/
def faulted (s : State) (code : BitVec 8) (cw : CmdWord) : State :=
  { s with flt := code, finfo := cw, responses := { st := 0x80 ||| code, z := 0 } :: s.responses }

/-! ## Command words (30_encoding.md R71 to R75) -/

/-- `OPC<<24 | RD<<21 | RA<<18 | RB<<15 | RE<<12 | FL<<4`, as a sum (the fields do not overlap). -/
def word (opc rd ra rb re fl : Nat) : CmdWord :=
  BitVec.ofNat 32 (opc * 2 ^ 24 + rd * 2 ^ 21 + ra * 2 ^ 18 + rb * 2 ^ 15 + re * 2 ^ 12 + fl * 2 ^ 4)

/-- The packet with command word `cw` decodes to `i`, whatever payload words the instruction ignores: here all of both. -/
def Decodes (cw : CmdWord) (i : Instr) : Prop := ∀ x y, decode { cw := cw, x := x, y := y } = .ok i

/-- The same for an instruction with the operand `X`. -/
def DecodesX (cw : CmdWord) (i : Limb → Instr) : Prop := ∀ x y, decode { cw := cw, x := x, y := y } = .ok (i x)

/-- The running unit answers a packet with command word `cw` with the fault `ILLEGAL`, whatever the payload (R75, R303). -/
def RaisesIllegal (cw : CmdWord) : Prop :=
  ∀ (x y : Limb) (s : State), s.flt = 0 → step (present { cw := cw, x := x, y := y } s) = .next (faulted s 0x01 cw)

/-- The values of the sub-fields of `FL` (R72). -/
def konstCode : Konst → Nat
  | .umax => 0
  | .smax => 1
  | .smin => 2

def widthCode : NativeWidth → Nat
  | .w8 => 0
  | .w16 => 1
  | .w32 => 2
  | .w64 => 3

def fpCode : FpFormat → Nat
  | .binary32 => 0
  | .binary64 => 1

def baseCode : Base → Nat
  | .dec => 0
  | .oct => 1
  | .hex => 2

def ctrlCode : CtrlReg → Nat
  | .flt => 0
  | .finfo => 1
  | .cfg => 2

/-- A row of the opcode map R73. -/
structure Row where
  mnemonic : String
  mtch : CmdWord
  mask : CmdWord
  deriving DecidableEq, Repr

def rows1 : List Row :=
  [
    ⟨"MKHL", 0x01000000, 0xFF1FFFFF⟩,
    ⟨"GETHI", 0x02000000, 0xFFE3FFFF⟩,
    ⟨"GETLO", 0x03000000, 0xFFE3FFFF⟩,
    ⟨"LDC", 0x04000000, 0xFF1FFFCF⟩,
    ⟨"MOV", 0x05000000, 0xFF03FFFF⟩,
    ⟨"FROMINT", 0x06000000, 0xFF1FFF8F⟩,
    ⟨"TOINT", 0x07000000, 0xFFE3FF8F⟩,
    ⟨"ADD", 0x10000000, 0xFF007FFF⟩,
    ⟨"SUB", 0x11000000, 0xFF007FFF⟩,
    ⟨"MUL", 0x12000000, 0xFF007FFF⟩,
    ⟨"NEG", 0x13000000, 0xFF03FFFF⟩ ]

def rows2 : List Row :=
  [
    ⟨"NEGS", 0x14000000, 0xFF03FFFF⟩,
    ⟨"DIVU", 0x18000000, 0xFF007FFF⟩,
    ⟨"MODU", 0x19000000, 0xFF007FFF⟩,
    ⟨"DIVMODU", 0x1A000000, 0xFF000FFF⟩,
    ⟨"DIVS", 0x1C000000, 0xFF007FFF⟩,
    ⟨"MODS", 0x1D000000, 0xFF007FFF⟩,
    ⟨"DIVMODS", 0x1E000000, 0xFF000FFF⟩,
    ⟨"SHL", 0x20000000, 0xFF03FFFF⟩,
    ⟨"SHR", 0x21000000, 0xFF03FFFF⟩,
    ⟨"SAR", 0x22000000, 0xFF03FFFF⟩,
    ⟨"ROL", 0x23000000, 0xFF03FFFF⟩ ]

def rows3 : List Row :=
  [
    ⟨"ROR", 0x24000000, 0xFF03FFFF⟩,
    ⟨"AND", 0x28000000, 0xFF007FFF⟩,
    ⟨"OR", 0x29000000, 0xFF007FFF⟩,
    ⟨"XOR", 0x2A000000, 0xFF007FFF⟩,
    ⟨"NOT", 0x2B000000, 0xFF03FFFF⟩,
    ⟨"EQ", 0x30000000, 0xFFE07FFF⟩,
    ⟨"NE", 0x31000000, 0xFFE07FFF⟩,
    ⟨"LTU", 0x32000000, 0xFFE07FFF⟩,
    ⟨"LEU", 0x33000000, 0xFFE07FFF⟩,
    ⟨"GTU", 0x34000000, 0xFFE07FFF⟩,
    ⟨"GEU", 0x35000000, 0xFFE07FFF⟩ ]

def rows4 : List Row :=
  [
    ⟨"LTS", 0x36000000, 0xFFE07FFF⟩,
    ⟨"LES", 0x37000000, 0xFFE07FFF⟩,
    ⟨"GTS", 0x38000000, 0xFFE07FFF⟩,
    ⟨"GES", 0x39000000, 0xFFE07FFF⟩,
    ⟨"FROMFU", 0x40000000, 0xFF1FFFEF⟩,
    ⟨"FROMFS", 0x41000000, 0xFF1FFFEF⟩,
    ⟨"TOFU", 0x42000000, 0xFFE3FFEF⟩,
    ⟨"TOFS", 0x43000000, 0xFFE3FFEF⟩,
    ⟨"FMT", 0x50000000, 0xFFE3FC0F⟩,
    ⟨"RDTXT", 0x51000000, 0xFFFFFF8F⟩,
    ⟨"RDCR", 0x60000000, 0xFFFFFFCF⟩ ]

/-- The opcode map R73: mnemonic, match, mask. -/
def table : List Row := rows1 ++ rows2 ++ rows3 ++ rows4

/-- The mnemonic of an instruction (R73). -/
def mnemonic : Instr → String
  | .mkhl _ _ _ => "MKHL"
  | .gethi _ => "GETHI"
  | .getlo _ => "GETLO"
  | .ldc _ _ => "LDC"
  | .mov _ _ => "MOV"
  | .fromint _ _ _ _ => "FROMINT"
  | .toint _ _ _ => "TOINT"
  | .add _ _ _ => "ADD"
  | .sub _ _ _ => "SUB"
  | .mul _ _ _ => "MUL"
  | .neg _ _ => "NEG"
  | .negs _ _ => "NEGS"
  | .divu _ _ _ => "DIVU"
  | .modu _ _ _ => "MODU"
  | .divmodu _ _ _ _ => "DIVMODU"
  | .divs _ _ _ => "DIVS"
  | .mods _ _ _ => "MODS"
  | .divmods _ _ _ _ => "DIVMODS"
  | .shl _ _ _ => "SHL"
  | .shr _ _ _ => "SHR"
  | .sar _ _ _ => "SAR"
  | .rol _ _ _ => "ROL"
  | .ror _ _ _ => "ROR"
  | .and _ _ _ => "AND"
  | .or _ _ _ => "OR"
  | .xor _ _ _ => "XOR"
  | .not _ _ => "NOT"
  | .eq _ _ => "EQ"
  | .ne _ _ => "NE"
  | .ltu _ _ => "LTU"
  | .leu _ _ => "LEU"
  | .gtu _ _ => "GTU"
  | .geu _ _ => "GEU"
  | .lts _ _ => "LTS"
  | .les _ _ => "LES"
  | .gts _ _ => "GTS"
  | .ges _ _ => "GES"
  | .fromfu _ _ _ => "FROMFU"
  | .fromfs _ _ _ => "FROMFS"
  | .tofu _ _ => "TOFU"
  | .tofs _ _ => "TOFS"
  | .fmt _ _ _ _ _ _ => "FMT"
  | .rdtxt _ => "RDTXT"
  | .rdcr _ => "RDCR"

/-- A word in the row's encoding. -/
def Row.Selects (r : Row) (w : CmdWord) : Prop := w &&& r.mask = r.mtch

/-- R75 (c) and (d): a reserved sub-field value, or equal destinations of a combined divide-modulo. -/
def reserved (w : CmdWord) : Prop :=
  let opc := w.toNat / 2 ^ 24
  let fl := w.toNat / 2 ^ 4 % 2 ^ 8
  (opc = 0x04 ∧ fl % 4 = 3) ∨ (opc = 0x50 ∧ fl % 4 = 3) ∨ (opc = 0x51 ∧ 6 ≤ fl % 8) ∨
    (opc = 0x60 ∧ fl % 4 = 3) ∨
    ((opc = 0x1A ∨ opc = 0x1E) ∧ w.toNat / 2 ^ 21 % 8 = w.toNat / 2 ^ 12 % 8)

/-- R75, the other way round: a legal command word. -/
def legal (w : CmdWord) : Prop := (∃ r ∈ table, r.Selects w) ∧ ¬ reserved w

/-- The bits of `X` an instruction uses (R76). -/
def usedX : Instr → Limb
  | .mkhl _ _ _ => BitVec.allOnes 64
  | .fromint _ wd _ _ => BitVec.ofNat 64 (2 ^ (8 * 2 ^ widthCode wd) - 1)
  | .shl _ _ _ | .shr _ _ _ | .sar _ _ _ | .rol _ _ _ | .ror _ _ _ => BitVec.allOnes 64
  | .fromfu _ fp _ | .fromfs _ fp _ => BitVec.ofNat 64 (2 ^ (32 * 2 ^ fpCode fp) - 1)
  | _ => 0

/-- The bits of `Y` an instruction uses (R76). -/
def usedY : Instr → Limb
  | .mkhl _ _ _ => BitVec.allOnes 64
  | _ => 0

/-- The destination registers of an instruction (10_state.md R23; R73). -/
def dests : Instr → List Reg
  | .mkhl rd _ _ | .ldc rd _ | .mov rd _ | .fromint rd _ _ _ => [rd]
  | .add rd _ _ | .sub rd _ _ | .mul rd _ _ | .neg rd _ | .negs rd _ => [rd]
  | .divu rd _ _ | .modu rd _ _ | .divs rd _ _ | .mods rd _ _ => [rd]
  | .divmodu rd re _ _ | .divmods rd re _ _ => [rd, re]
  | .shl rd _ _ | .shr rd _ _ | .sar rd _ _ | .rol rd _ _ | .ror rd _ _ => [rd]
  | .and rd _ _ | .or rd _ _ | .xor rd _ _ | .not rd _ => [rd]
  | .fromfu rd _ _ | .fromfs rd _ _ => [rd]
  | .gethi _ | .getlo _ | .toint _ _ _ => []
  | .eq _ _ | .ne _ _ | .ltu _ _ | .leu _ _ | .gtu _ _ | .geu _ _ => []
  | .lts _ _ | .les _ _ | .gts _ _ | .ges _ _ => []
  | .tofu _ _ | .tofs _ _ | .fmt _ _ _ _ _ _ | .rdtxt _ | .rdcr _ => []

/-- Instructions that only read (20_memory.md R54). -/
def readsOnly : Instr → Bool
  | .gethi _ | .getlo _ | .toint _ _ _ | .tofu _ _ | .tofs _ _ | .rdtxt _ | .rdcr _ => true
  | .eq _ _ | .ne _ _ | .ltu _ _ | .leu _ _ | .gtu _ _ | .geu _ _ => true
  | .lts _ _ | .les _ _ | .gts _ _ | .ges _ _ => true
  | _ => false

/-- `FMT`, the one instruction that writes the text buffer (10_state.md R29). -/
def isFmt : Instr → Bool
  | .fmt _ _ _ _ _ _ => true
  | _ => false

/-- Instructions with a scalar result (30_encoding.md R77). -/
def hasResult (i : Instr) : Bool := readsOnly i || isFmt i

/-- Instructions that never fault on their operands (60_exceptions.md R302). -/
def neverFaults : Instr → Bool
  | .mkhl _ _ _ | .gethi _ | .getlo _ | .ldc _ _ | .mov _ _ | .fromint _ _ _ _ | .toint _ _ _ => true
  | .add _ _ _ | .sub _ _ _ | .mul _ _ _ | .neg _ _ => true
  | .and _ _ _ | .or _ _ _ | .xor _ _ _ | .not _ _ => true
  | .eq _ _ | .ne _ _ | .ltu _ _ | .leu _ _ | .gtu _ _ | .geu _ _ => true
  | .lts _ _ | .les _ _ | .gts _ _ | .ges _ _ => true
  | .tofu _ _ | .tofs _ _ | .fmt _ _ _ _ _ _ | .rdtxt _ | .rdcr _ => true
  | _ => false

/-- The dividend and divisor registers of a division, and whether the signed view is meant (60_exceptions.md R301). -/
def divisor : Instr → Option (Reg × Reg × Bool)
  | .divu _ ra rb | .modu _ ra rb | .divmodu _ _ ra rb => some (ra, rb, false)
  | .divs _ ra rb | .mods _ ra rb | .divmods _ _ ra rb => some (ra, rb, true)
  | _ => none

/-- The float operand of a construction, and whether the target is signed (47_float.md R261, R262). -/
def floatOperand : Instr → Option (FpFormat × Limb × Bool)
  | .fromfu _ fp x => some (fp, x, false)
  | .fromfs _ fp x => some (fp, x, true)
  | _ => none

/-- The amount operand of a shift or rotate (42_shift_rotate.md R140). -/
def amount : Instr → Option Limb
  | .shl _ _ x | .shr _ _ x | .sar _ _ x | .rol _ _ x | .ror _ _ x => some x
  | _ => none

/-! ## Texts (46_format.md R222 to R230) -/

/-- `B` of R222. -/
def baseRadix : Base → Nat
  | .dec => 10
  | .oct => 8
  | .hex => 16

/-- The shortest numeral of a number in a base, most significant digit first; the digit 0 for zero. -/
def numeral (r n : Nat) : List Nat := if n = 0 then [0] else (Nat.digits r n).reverse

/-- The character of a digit (R229). -/
def digitByte (uc : Bool) (d : Nat) : Byte :=
  BitVec.ofNat 8 ((if uc then "0123456789ABCDEF" else "0123456789abcdef").toList.getD d '?').toNat

/-- The characters of a string, as bytes. -/
def ascii (t : String) : List Byte := t.toList.map fun c => BitVec.ofNat 8 c.toNat

/-- The number printed after the sign: the value's magnitude in signed decimal, the pattern read unsigned otherwise (R225). -/
def printed (base : Base) (sg : Bool) (v : Value) : Nat :=
  if sg = true ∧ base = .dec then v.toInt.natAbs else v.toNat

/-- `text = sign ++ prefix ++ digits` (R225, R226, R230). -/
def text (base : Base) (sg uc sb sp : Bool) (v : Value) : List Byte :=
  (if sg = true ∧ base = .dec ∧ v.toInt < 0 then ascii "-"
   else if sg = true ∧ base = .dec ∧ sp = true then ascii "+" else []) ++
  (if sb = true ∧ v ≠ 0 ∧ base = .hex then (if uc then ascii "0X" else ascii "0x")
   else if sb = true ∧ v ≠ 0 ∧ base = .oct then ascii "0" else []) ++
  (numeral (baseRadix base) (printed base sg v)).map (digitByte uc)

/-- The number a digit character stands for. -/
def digitValue (c : Byte) : Nat :=
  if c.toNat < 0x40 then c.toNat - 0x30 else if c.toNat < 0x60 then c.toNat - 0x41 + 10 else c.toNat - 0x61 + 10

/-- A text of digits read back as a base-`r` number (R231). -/
def readNumeral (r : Nat) (l : List Byte) : Nat := l.foldl (fun n c => n * r + digitValue c) 0

/-! ## Numbers of float patterns (47_float.md R260, R265) -/

def fracWidth : FpFormat → Nat
  | .binary32 => 23
  | .binary64 => 52

def expWidth : FpFormat → Nat
  | .binary32 => 8
  | .binary64 => 11

def expBias : FpFormat → Nat
  | .binary32 => 127
  | .binary64 => 1023

def signField (fp : FpFormat) (x : Limb) : Nat := x.toNat / 2 ^ (fracWidth fp + expWidth fp) % 2

def expField (fp : FpFormat) (x : Limb) : Nat := x.toNat / 2 ^ fracWidth fp % 2 ^ expWidth fp

def fracField (fp : FpFormat) (x : Limb) : Nat := x.toNat % 2 ^ fracWidth fp

/-- `emax`, the all-ones exponent field. -/
def expMax (fp : FpFormat) : Nat := 2 ^ expWidth fp - 1

def IsNan (fp : FpFormat) (x : Limb) : Prop := expField fp x = expMax fp ∧ fracField fp x ≠ 0

def IsInf (fp : FpFormat) (x : Limb) : Prop := expField fp x = expMax fp ∧ fracField fp x = 0

def IsFinite (fp : FpFormat) (x : Limb) : Prop := expField fp x ≠ expMax fp

/-- `val(x)`: the number a finite pattern stands for. -/
def val (fp : FpFormat) (x : Limb) : ℚ :=
  (if signField fp x = 1 then -1 else 1) *
    (if expField fp x = 0 then (fracField fp x : ℚ) * 2 ^ (1 - (expBias fp : ℤ) - fracWidth fp)
     else (2 ^ fracWidth fp + fracField fp x : ℚ) * 2 ^ ((expField fp x : ℤ) - expBias fp - fracWidth fp))

/-- A finite pattern outside the target's range (R261, R262). -/
def OutOfRange (fp : FpFormat) (sg : Bool) (x : Limb) : Prop :=
  if sg then 2 ^ 127 ≤ val fp x ∨ val fp x ≤ -2 ^ 127 - 1 else val fp x < 0 ∨ 2 ^ 128 ≤ val fp x

/-- `trunc` of 00_scope.md R7: toward zero. -/
def truncate (q : ℚ) : ℤ := if 0 ≤ q then ⌊q⌋ else ⌈q⌉

/-- The pattern of +infinity. -/
def infinity (fp : FpFormat) : Limb := BitVec.ofNat 64 (expMax fp * 2 ^ fracWidth fp)

/-- The place of the sign bit. -/
def signBit (fp : FpFormat) : Limb := BitVec.ofNat 64 (2 ^ (fracWidth fp + expWidth fp))

/-- Patterns without a sign bit (and, in binary32, without bits above 31) that stand for a number. -/
def Magnitude (fp : FpFormat) (x : Limb) : Prop := x.toNat < expMax fp * 2 ^ fracWidth fp

/-- From here on roundTiesToEven gives infinity: half a unit in the last place above the largest number. -/
def overflowAt (fp : FpFormat) : ℚ :=
  2 ^ (expBias fp + 1) - 2 ^ ((expBias fp : ℤ) - fracWidth fp - 1)

/-- `z` is the non-negative number `q` rounded to the format by roundTiesToEven (R265, D14): infinity from `overflowAt` on;
otherwise no number of the format is nearer, and where another is as near the last bit of `z` is 0. -/
def Rounds (fp : FpFormat) (q : ℚ) (z : Limb) : Prop :=
  if overflowAt fp ≤ q then z = infinity fp
  else Magnitude fp z ∧ ∀ y, Magnitude fp y → y ≠ z →
    |val fp z - q| < |val fp y - q| ∨ (|val fp z - q| = |val fp y - q| ∧ z.toNat % 2 = 0)

/-- The composition of R263 for the number `n < 2^128`: the two 64-bit halves are rounded, the high one scaled by 2^64 (an
infinity where that is past the format), and the sum rounded. -/
def Composed (fp : FpFormat) (n : Nat) (z : Limb) : Prop :=
  ∃ l h, Rounds fp (n % 2 ^ 64 : ℕ) l ∧ Rounds fp (n / 2 ^ 64 : ℕ) h ∧
    if 2 ^ (expBias fp + 1) ≤ val fp h * 2 ^ 64 then z = infinity fp
    else Rounds fp (val fp l + val fp h * 2 ^ 64) z

end Sys2Proof.Spec
end

