-- ==== Sys2Proof/Certificates/Slice0/Obligations.lean ====
section
/-! DEFINITION. The statements for the provers. They are said in the vocabulary `Sys2Proof.Spec` of Safety.lean; `Spec.wrote`,
`Spec.executed` and `Spec.faulted` are whole next states, so a statement that ends in one says the instruction completes, what it
writes, and that it changes nothing else. -/

open Sys2Proof Sys2Proof.Machine

/-! ## Encoding (spec/30_encoding.md) -/

/-- Decoding an encoded well-formed instruction gives it back, every operand at every value (R71 to R73). -/
def Obligations.DecodeOfEncodeIsInstruction : Prop :=
  ∀ i : Instr, i.wellFormed = true → decode (encode i) = .ok i

/-- An instruction decoded from a packet is well-formed, has that packet's command word, and has the payload words it uses (R71 to
R73, R76). That it has 0 for a payload word it ignores is the model's choice (log 8): there it need not encode to the packet. -/
def Obligations.DecodedInstructionHasPacketsWordAndUsedPayload : Prop :=
  ∀ (p : Packet) (i : Instr), decode p = .ok i →
    i.wellFormed = true ∧ encodeWord i = p.cw ∧
      payloadX i = (if Spec.usedX i = 0 then 0 else p.x) ∧
      payloadY i = (if Spec.usedY i = 0 then 0 else p.y)

/-- A packet decodes exactly when its command word is in a row of the opcode map (R73) with every must-be-zero bit clear (R74), holds
no reserved sub-field value and does not name one register for both results (R75). That a word which is not legal raises `ILLEGAL`
is `Obligations.IllegalCommandFaults`. -/
def Obligations.LegalWordsAreTableWords : Prop :=
  ∀ p : Packet, (∃ i, decode p = .ok i) ↔ Spec.legal p.cw

/-- R73: the word of a decoded instruction is in the row of its own mnemonic; no word is in two of the 44 rows. -/
def Obligations.WordSelectsItsOwnRow : Prop :=
  Spec.table.length = 44 ∧
  (∀ (p : Packet) (i : Instr), decode p = .ok i →
    ∃ r ∈ Spec.table, r.mnemonic = Spec.mnemonic i ∧ r.Selects p.cw) ∧
  (∀ w, ∀ r ∈ Spec.table, ∀ r' ∈ Spec.table, r.Selects w → r'.Selects w → r = r')

/-- The worked encodings of R82 (which derives them from R71), and the all-zero and all-ones words (R75). R82 gives the `CW` and the
`X` of `shl` apart, as the packet clause does; the 160-bit number of the clause after it, `X` above `CW`, and payload words of
zero for a bare 32-bit word are the model's choice (log 8). -/
def Obligations.WorkedEncodingsDecode : Prop :=
  decodeTableWord 32 0x10408000 = some (.add 2 0 1) ∧
  decodeTableWord 32 0x1A40B000 = some (.divmodu 2 3 0 1) ∧
  decodeTableWord 32 0x500001A0 = some (.fmt 0 .hex false true true false) ∧
  decode { cw := 0x20200000, x := 64, y := 0 } = .ok (.shl 1 0 64) ∧
  decodeTableWord 160 (64 * 2 ^ 32 + 0x20200000) = some (.shl 1 0 64) ∧
  decodeTableWord 32 0 = none ∧ decodeTableWord 32 0xFFFFFFFF = none

/-- R70: payload bits an instruction does not use (R76) change nothing in what the unit does with the packet. -/
def Obligations.UnusedPayloadIsIgnored : Prop :=
  ∀ (s : State) (p q : Packet) (i : Instr), p.cw = q.cw → decode p = .ok i →
    p.x &&& Spec.usedX i = q.x &&& Spec.usedX i → p.y &&& Spec.usedY i = q.y &&& Spec.usedY i →
      step { s with inputs := .command p :: s.inputs } = step { s with inputs := .command q :: s.inputs }

/-! ## The machine: commands, faults, the halt, reset (10_state.md, 30_encoding.md R77, R81, 60_exceptions.md, 70_reset_and_hazards.md) -/

/-- A step of the running unit with a legal packet presented is `exec` of the decoded instruction, the packet taken from the
port; the halted unit does the same with `RDCR` (R81). -/
def Obligations.StepRunsDecodedInstruction : Prop :=
  ∀ (s : State) (p : Packet) (rest : List Input) (i : Instr),
    s.inputs = .command p :: rest → decode p = .ok i →
      (s.flt = 0 → step s = exec i { s with inputs := rest }) ∧
      (∀ n, i = .rdcr n → step s = exec i { s with inputs := rest })

/-- The model's choice (log 8): the packet put before the running unit by `withFetchWord` is the one `decodeTableWord` reads, and
the next step runs it. -/
def Obligations.PresentedTableWordRuns : Prop :=
  ∀ (s : State) (nbits w : Nat) (i : Instr), s.flt = 0 → decodeTableWord nbits w = some i →
    step (s.withFetchWord nbits w) = exec i s

/-- R75, R303: an illegal command halts the running unit with `ILLEGAL`, whatever the registers hold. -/
def Obligations.IllegalCommandFaults : Prop :=
  ∀ (s : State) (p : Packet) (rest : List Input),
    s.flt = 0 → s.inputs = .command p :: rest → ¬ Spec.legal p.cw →
      step s = .next (Spec.faulted { s with inputs := rest } 0x01 p.cw)

/-- R307: the halted unit refuses every command but a legal `RDCR`, with no state change, and executes that one. -/
def Obligations.HaltedUnitRefuses : Prop :=
  ∀ (s : State) (p : Packet) (rest : List Input), s.flt ≠ 0 → s.inputs = .command p :: rest →
    ((∀ n, decode p ≠ .ok (.rdcr n)) →
      step s = .next { s with inputs := rest, responses := { st := 0x80 ||| s.flt, z := 0 } :: s.responses }) ∧
    (∀ n, decode p = .ok (.rdcr n) →
      ∃ z, step s = .next { s with inputs := rest, responses := { st := s.flt &&& 0x7F, z := z } :: s.responses })

/-- R340: `RST` puts every register at its reset value; a command in progress leaves no response and no effect. -/
def Obligations.ResetInputResetsUnit : Prop :=
  ∀ (s : State) (o : Option Packet) (rest : List Input), s.inputs = .reset o :: rest →
    ∃ t, step s = .next t ∧ t.v = Vector.replicate 8 0 ∧ t.t = Vector.replicate 48 0 ∧ t.tlen = 0 ∧ t.flt = 0 ∧ t.finfo = 0 ∧
      t.responses = s.responses

/-- R34: the reset values, `CFG` and the constants included. -/
def Obligations.ResetValues : Prop :=
  (∀ r : Reg, State.reset.v[r] = 0) ∧ (∀ k : Fin 48, State.reset.t[k] = 0) ∧
  State.reset.tlen = 0 ∧ State.reset.flt = 0 ∧ State.reset.finfo = 0 ∧
  exec (.rdcr .cfg) State.reset = .next (Spec.executed State.reset 0x87) ∧
  exec (.ldc 0 .umax) State.reset = .next (Spec.wrote State.reset 0 (BitVec.ofNat 128 (2 ^ 128 - 1))) ∧
  exec (.ldc 0 .smax) State.reset = .next (Spec.wrote State.reset 0 (BitVec.ofNat 128 (2 ^ 127 - 1))) ∧
  exec (.ldc 0 .smin) State.reset = .next (Spec.wrote State.reset 0 (BitVec.ofNat 128 (2 ^ 127)))

/-- The model's choice (log 2): with nothing presented the unit stays as it is. -/
def Obligations.IdleUnitWaits : Prop := ∀ s : State, s.inputs = [] → step s = .next s

/-- Every step keeps the invariant: a text of at most 44 ASCII characters and zero bytes after it, a legal `FLT` with `FINFO` zero
while the unit runs, and only responses of the form R77 allows. -/
def Obligations.StepKeepsInvariant : Prop :=
  ∀ s t : State, s.Inv → step s = .next t → t.Inv

/-- The invariant holds at reset. -/
def Obligations.ResetMeetsInvariant : Prop := State.reset.Inv

/-- R308: nothing but reset changes `FLT` once it is nonzero, and no command changes anything but the response then; reset clears
all other state too. -/
def Obligations.OnlyResetClearsFault : Prop :=
  ∀ s t : State, s.flt ≠ 0 → step s = .next t →
    ((∀ o rest, s.inputs ≠ .reset o :: rest) →
      t.flt = s.flt ∧ t.finfo = s.finfo ∧ t.v = s.v ∧ t.t = s.t ∧ t.tlen = s.tlen) ∧
    (∀ o rest, s.inputs = .reset o :: rest →
      t.flt = 0 ∧ t.finfo = 0 ∧ t.v = Vector.replicate 8 0 ∧ t.t = Vector.replicate 48 0 ∧ t.tlen = 0)

/-- Every step has a next state: no command of AU128 stops the model (70_reset_and_hazards.md section 4, D10). -/
def Obligations.EveryStepHasNextState : Prop := ∀ s : State, ∃ t, step s = .next t

/-- One packet is taken and one response sent for it; a reset takes its input and sends none (R33, R57, R340). -/
def Obligations.OneResponsePerCommand : Prop :=
  ∀ (s t : State) (x : Input) (rest : List Input), s.inputs = x :: rest → step s = .next t →
    t.inputs = rest ∧
    (∀ p, x = .command p → ∃ r, t.responses = r :: s.responses) ∧
    (∀ o, x = .reset o → t.responses = s.responses)

/-- R77: `ST[6:0]` is `FLT[6:0]` after the command, `ST[7]` says the command was not executed, and `Z` is 0 without a scalar
result. -/
def Obligations.ResponseReportsFault : Prop :=
  ∀ (s t : State) (p : Packet) (rest : List Input) (r : Response),
    s.inputs = .command p :: rest → step s = .next t → t.responses = r :: s.responses →
      r.st &&& 0x7F = t.flt &&& 0x7F ∧
      (r.st.msb = true ↔
        (s.flt = 0 ∧ t.flt ≠ 0) ∨ (s.flt ≠ 0 ∧ ∀ n, decode p ≠ .ok (.rdcr n))) ∧
      (r.st.msb = true → r.z = 0) ∧
      (∀ i, decode p = .ok i → Spec.hasResult i = false → r.z = 0)

/-- The frame of every instruction: only its destination registers (10_state.md R23), the text buffer for `FMT` only (R29), and
`FLT` and `FINFO` only where it faults, with no destination written then. -/
def Obligations.InstructionFrame : Prop :=
  ∀ (i : Instr) (s t : State), exec i s = .next t →
    (∀ r : Reg, r ∉ Spec.dests i → t.v[r] = s.v[r]) ∧
    (Spec.isFmt i = false → t.t = s.t ∧ t.tlen = s.tlen) ∧
    t.inputs = s.inputs ∧
    (∃ r, t.responses = r :: s.responses) ∧
    ((t.flt = s.flt ∧ t.finfo = s.finfo) ∨
      (Spec.neverFaults i = false ∧ t.finfo = encodeWord i ∧ t.v = s.v))

/-- R306: a command that faults in the running unit does nothing but fault entry, with its own command word. -/
def Obligations.FaultEntryHasNoOtherEffect : Prop :=
  ∀ s t : State, s.flt = 0 → step s = .next t → t.flt ≠ 0 →
    ∃ (p : Packet) (rest : List Input) (code : BitVec 8), s.inputs = .command p :: rest ∧
      1 ≤ code.toNat ∧ code.toNat ≤ 7 ∧ t = Spec.faulted { s with inputs := rest } code p.cw

/-- Reading instructions change no state but the response, and repeated give the same response (20_memory.md R54). -/
def Obligations.ReadsChangeNothing : Prop :=
  ∀ (i : Instr) (s t : State), Spec.readsOnly i = true → exec i s = .next t →
    ∃ r : Response, t = { s with responses := r :: s.responses } ∧
      exec i t = .next { t with responses := r :: t.responses }

/-- R302: these instructions complete in every running state. -/
def Obligations.NeverFaultingInstructionsExecute : Prop :=
  ∀ (i : Instr) (s : State), Spec.neverFaults i = true → s.flt = 0 →
    ∃ t, exec i s = .next t ∧ t.flt = 0

/-- R301: after a command in the running unit, each cause code stands in `FLT` exactly when its cause holds, and `FINFO` is then
the command word. -/
def Obligations.FaultCauses : Prop :=
  ∀ (s t : State) (p : Packet) (rest : List Input),
    s.flt = 0 → s.inputs = .command p :: rest → step s = .next t →
      (t.flt = 0x01 ↔ ¬ Spec.legal p.cw) ∧
      (t.flt = 0x02 ↔ ∃ i ra rb sg, decode p = .ok i ∧ Spec.divisor i = some (ra, rb, sg) ∧ s.v[rb] = 0) ∧
      (t.flt = 0x03 ↔ ∃ i ra rb, decode p = .ok i ∧ Spec.divisor i = some (ra, rb, true) ∧
        s.v[ra].toInt = -2 ^ 127 ∧ s.v[rb].toInt = -1) ∧
      (t.flt = 0x04 ↔ ∃ rd ra, decode p = .ok (.negs rd ra) ∧ s.v[ra].toInt = -2 ^ 127) ∧
      (t.flt = 0x05 ↔ ∃ i x, decode p = .ok i ∧ Spec.amount i = some x ∧ (x.toInt < 0 ∨ 128 ≤ x.toInt)) ∧
      (t.flt = 0x06 ↔ ∃ i fp x sg, decode p = .ok i ∧ Spec.floatOperand i = some (fp, x, sg) ∧ Spec.IsNan fp x) ∧
      (t.flt = 0x07 ↔ ∃ i fp x sg, decode p = .ok i ∧ Spec.floatOperand i = some (fp, x, sg) ∧
        (Spec.IsInf fp x ∨ (Spec.IsFinite fp x ∧ Spec.OutOfRange fp sg x))) ∧
      t.flt.toNat ≤ 7 ∧
      (t.flt ≠ 0 → t.finfo = p.cw)

/-! ## Construction, halves, constants, native integers (40_construct_convert.md) -/

/-- R100 to R104: MKHL, GETHI, GETLO, LDC (`ILLEGAL` for `K = 3`), MOV. -/
def Obligations.HalvesConstantsAndCopy : Prop :=
  ∀ (rd ra : Reg) (x y : Limb) (k : Konst),
    decode { cw := Spec.word 0x01 rd 0 0 0 0, x := x, y := y } = .ok (.mkhl rd x y) ∧
    Spec.Decodes (Spec.word 0x02 0 ra 0 0 0) (.gethi ra) ∧
    Spec.Decodes (Spec.word 0x03 0 ra 0 0 0) (.getlo ra) ∧
    Spec.Decodes (Spec.word 0x04 rd 0 0 0 (Spec.konstCode k)) (.ldc rd k) ∧
    Spec.RaisesIllegal (Spec.word 0x04 rd 0 0 0 3) ∧
    Spec.Decodes (Spec.word 0x05 rd ra 0 0 0) (.mov rd ra) ∧
    ∀ s : State, s.flt = 0 →
      exec (.mkhl rd x y) s = .next (Spec.wrote s rd (BitVec.ofNat 128 (x.toNat * 2 ^ 64 + y.toNat))) ∧
      exec (.gethi ra) s = .next (Spec.executed s (BitVec.ofNat 64 (s.v[ra].toNat / 2 ^ 64))) ∧
      exec (.getlo ra) s = .next (Spec.executed s (BitVec.ofNat 64 (s.v[ra].toNat % 2 ^ 64))) ∧
      exec (.ldc rd .umax) s = .next (Spec.wrote s rd (BitVec.ofNat 128 (2 ^ 128 - 1))) ∧
      exec (.ldc rd .smax) s = .next (Spec.wrote s rd (BitVec.ofNat 128 (2 ^ 127 - 1))) ∧
      exec (.ldc rd .smin) s = .next (Spec.wrote s rd (BitVec.ofNat 128 (2 ^ 127))) ∧
      exec (.mov rd ra) s = .next (Spec.wrote s rd s.v[ra])

/-- A value constructed from two halves gives the halves back (the inference of R102). -/
def Obligations.HalvesRoundTrip : Prop :=
  ∀ (rd : Reg) (x y : Limb) (s : State), s.flt = 0 →
    ∃ t, exec (.mkhl rd x y) s = .next t ∧
      exec (.gethi rd) t = .next (Spec.executed t x) ∧ exec (.getlo rd) t = .next (Spec.executed t y)

/-- R105: a native integer of `W` bits, sign-extended or zero-extended; the bits of `X` above it are ignored. -/
def Obligations.FromNativeInteger : Prop :=
  ∀ (rd : Reg) (wd : NativeWidth) (x : Limb),
    Spec.DecodesX (Spec.word 0x06 rd 0 0 0 (Spec.widthCode wd)) (.fromint rd wd false) ∧
    Spec.DecodesX (Spec.word 0x06 rd 0 0 0 (4 + Spec.widthCode wd)) (.fromint rd wd true) ∧
    ∀ s : State, s.flt = 0 →
      exec (.fromint rd wd false x) s =
        .next (Spec.wrote s rd (BitVec.ofNat 128 (x.toNat % 2 ^ (8 * 2 ^ Spec.widthCode wd)))) ∧
      exec (.fromint rd wd true x) s =
        .next (Spec.wrote s rd (BitVec.ofInt 128 ((x.toNat : Int).bmod (2 ^ (8 * 2 ^ Spec.widthCode wd)))))

/-- R106: the low `W` bits, as a native integer in `Z`. -/
def Obligations.ToNativeInteger : Prop :=
  ∀ (ra : Reg) (wd : NativeWidth),
    Spec.Decodes (Spec.word 0x07 0 ra 0 0 (Spec.widthCode wd)) (.toint ra wd false) ∧
    Spec.Decodes (Spec.word 0x07 0 ra 0 0 (4 + Spec.widthCode wd)) (.toint ra wd true) ∧
    ∀ s : State, s.flt = 0 →
      exec (.toint ra wd false) s =
        .next (Spec.executed s (BitVec.ofNat 64 (s.v[ra].toNat % 2 ^ (8 * 2 ^ Spec.widthCode wd)))) ∧
      exec (.toint ra wd true) s =
        .next (Spec.executed s (BitVec.ofInt 64 ((s.v[ra].toNat : Int).bmod (2 ^ (8 * 2 ^ Spec.widthCode wd)))))

/-- R108: converting to a 64-bit native integer and constructing from it keeps the low limb, in both views. -/
def Obligations.ConversionIdempotence : Prop :=
  ∀ (rd ra : Reg) (sg : Bool) (s : State), s.flt = 0 →
    ∃ (z : Limb) (w : Value) (t : State),
      exec (.toint ra .w64 sg) s = .next t ∧ t = Spec.executed s z ∧
      exec (.fromint rd .w64 sg z) t = .next (Spec.wrote t rd w) ∧
      z.toNat = s.v[ra].toNat % 2 ^ 64 ∧ w.toNat % 2 ^ 64 = s.v[ra].toNat % 2 ^ 64 ∧
      w.toNat / 2 ^ 64 = if sg = true ∧ s.v[ra].getLsbD 63 = true then 2 ^ 64 - 1 else 0

/-! ## Add, subtract, multiply, negate (41_add_sub_mul.md) -/

/-- R121, R123, R125, R127: ADD, SUB, MUL, NEG modulo 2^128. -/
def Obligations.AddSubMulNegate : Prop :=
  ∀ rd ra rb : Reg,
    Spec.Decodes (Spec.word 0x10 rd ra rb 0 0) (.add rd ra rb) ∧
    Spec.Decodes (Spec.word 0x11 rd ra rb 0 0) (.sub rd ra rb) ∧
    Spec.Decodes (Spec.word 0x12 rd ra rb 0 0) (.mul rd ra rb) ∧
    Spec.Decodes (Spec.word 0x13 rd ra 0 0 0) (.neg rd ra) ∧
    ∀ s : State, s.flt = 0 →
      exec (.add rd ra rb) s = .next (Spec.wrote s rd (BitVec.ofNat 128 (s.v[ra].toNat + s.v[rb].toNat))) ∧
      exec (.sub rd ra rb) s = .next (Spec.wrote s rd (BitVec.ofInt 128 (s.v[ra].toNat - s.v[rb].toNat))) ∧
      exec (.mul rd ra rb) s = .next (Spec.wrote s rd (BitVec.ofNat 128 (s.v[ra].toNat * s.v[rb].toNat))) ∧
      exec (.neg rd ra) s = .next (Spec.wrote s rd (BitVec.ofNat 128 (2 ^ 128 - s.v[ra].toNat)))

/-- In the signed view the same sums, differences and products are exact wherever they fit (the inferences of R121, R125). -/
def Obligations.SignedArithmeticInRange : Prop :=
  ∀ (rd ra rb : Reg) (s : State), s.flt = 0 →
    ∃ x y z : Value,
      exec (.add rd ra rb) s = .next (Spec.wrote s rd x) ∧
      exec (.sub rd ra rb) s = .next (Spec.wrote s rd y) ∧
      exec (.mul rd ra rb) s = .next (Spec.wrote s rd z) ∧
      (-2 ^ 127 ≤ s.v[ra].toInt + s.v[rb].toInt → s.v[ra].toInt + s.v[rb].toInt < 2 ^ 127 →
        x.toInt = s.v[ra].toInt + s.v[rb].toInt) ∧
      (-2 ^ 127 ≤ s.v[ra].toInt - s.v[rb].toInt → s.v[ra].toInt - s.v[rb].toInt < 2 ^ 127 →
        y.toInt = s.v[ra].toInt - s.v[rb].toInt) ∧
      (-2 ^ 127 ≤ s.v[ra].toInt * s.v[rb].toInt → s.v[ra].toInt * s.v[rb].toInt < 2 ^ 127 →
        z.toInt = s.v[ra].toInt * s.v[rb].toInt)

/-- R128: NEGS negates in the signed view, exactly, and faults `SNEGOVF` on SignedMin. -/
def Obligations.NegateSigned : Prop :=
  ∀ rd ra : Reg,
    Spec.Decodes (Spec.word 0x14 rd ra 0 0 0) (.negs rd ra) ∧
    ∀ s : State, s.flt = 0 →
      (s.v[ra].toInt ≠ -2 ^ 127 →
        ∃ x : Value, exec (.negs rd ra) s = .next (Spec.wrote s rd x) ∧ x.toInt = -s.v[ra].toInt) ∧
      (s.v[ra].toInt = -2 ^ 127 →
        exec (.negs rd ra) s = .next (Spec.faulted s 0x04 (Spec.word 0x14 rd ra 0 0 0)))

/-! ## Shifts and rotates (42_shift_rotate.md) -/

/-- R142, R144, R145: SHL, SHR and SAR by an amount in [0, 128); any other amount faults `SHAMT` (R140). -/
def Obligations.Shifts : Prop :=
  ∀ rd ra : Reg,
    Spec.DecodesX (Spec.word 0x20 rd ra 0 0 0) (.shl rd ra) ∧
    Spec.DecodesX (Spec.word 0x21 rd ra 0 0 0) (.shr rd ra) ∧
    Spec.DecodesX (Spec.word 0x22 rd ra 0 0 0) (.sar rd ra) ∧
    ∀ (x : Limb) (s : State), s.flt = 0 →
      (0 ≤ x.toInt → x.toInt < 128 →
        exec (.shl rd ra x) s = .next (Spec.wrote s rd (BitVec.ofNat 128 (s.v[ra].toNat * 2 ^ x.toInt.toNat))) ∧
        exec (.shr rd ra x) s = .next (Spec.wrote s rd (BitVec.ofNat 128 (s.v[ra].toNat / 2 ^ x.toInt.toNat))) ∧
        exec (.sar rd ra x) s = .next (Spec.wrote s rd (BitVec.ofInt 128 ⌊(s.v[ra].toInt : ℚ) / 2 ^ x.toInt.toNat⌋))) ∧
      (x.toInt < 0 ∨ 128 ≤ x.toInt →
        exec (.shl rd ra x) s = .next (Spec.faulted s 0x05 (Spec.word 0x20 rd ra 0 0 0)) ∧
        exec (.shr rd ra x) s = .next (Spec.faulted s 0x05 (Spec.word 0x21 rd ra 0 0 0)) ∧
        exec (.sar rd ra x) s = .next (Spec.faulted s 0x05 (Spec.word 0x22 rd ra 0 0 0)))

/-- R146, R147: ROL and ROR move bit `i` by the amount modulo 128; rotating right by `n` is rotating left by `128 - n`, and rotating
left by `n` undoes it; any other amount faults `SHAMT`. -/
def Obligations.Rotates : Prop :=
  ∀ rd ra : Reg,
    Spec.DecodesX (Spec.word 0x23 rd ra 0 0 0) (.rol rd ra) ∧
    Spec.DecodesX (Spec.word 0x24 rd ra 0 0 0) (.ror rd ra) ∧
    ∀ (x : Limb) (s : State), s.flt = 0 →
      (0 ≤ x.toInt → x.toInt < 128 →
        ∃ l r : Value,
          exec (.rol rd ra x) s = .next (Spec.wrote s rd l) ∧
          exec (.ror rd ra x) s = .next (Spec.wrote s rd r) ∧
          (∀ i, i < 128 →
            l.getLsbD ((i + x.toInt.toNat) % 128) = s.v[ra].getLsbD i ∧
            r.getLsbD ((i + 128 - x.toInt.toNat) % 128) = s.v[ra].getLsbD i) ∧
          (1 ≤ x.toInt → exec (.rol rd ra (128 - x)) s = .next (Spec.wrote s rd r)) ∧
          exec (.rol rd rd x) (Spec.wrote s rd r) = .next (Spec.wrote (Spec.wrote s rd r) rd s.v[ra])) ∧
      (x.toInt < 0 ∨ 128 ≤ x.toInt →
        exec (.rol rd ra x) s = .next (Spec.faulted s 0x05 (Spec.word 0x23 rd ra 0 0 0)) ∧
        exec (.ror rd ra x) s = .next (Spec.faulted s 0x05 (Spec.word 0x24 rd ra 0 0 0)))

/-- A left shift that loses no bit is undone by the logical right shift (the inference of R148, for every amount). -/
def Obligations.ShiftLaw : Prop :=
  ∀ (rd ra : Reg) (x : Limb) (s : State), s.flt = 0 → 0 ≤ x.toInt → x.toInt < 128 →
    s.v[ra].toNat < 2 ^ (128 - x.toInt.toNat) →
      ∃ t, exec (.shl rd ra x) s = .next t ∧ exec (.shr rd rd x) t = .next (Spec.wrote t rd s.v[ra])

/-! ## Bitwise (44_bitwise.md) -/

/-- R180 to R183: AND, OR, XOR, NOT, bit by bit; the complement as a number in both views. -/
def Obligations.BitwiseLogic : Prop :=
  ∀ rd ra rb : Reg,
    Spec.Decodes (Spec.word 0x28 rd ra rb 0 0) (.and rd ra rb) ∧
    Spec.Decodes (Spec.word 0x29 rd ra rb 0 0) (.or rd ra rb) ∧
    Spec.Decodes (Spec.word 0x2A rd ra rb 0 0) (.xor rd ra rb) ∧
    Spec.Decodes (Spec.word 0x2B rd ra 0 0 0) (.not rd ra) ∧
    ∀ s : State, s.flt = 0 →
      ∃ a o x n : Value,
        exec (.and rd ra rb) s = .next (Spec.wrote s rd a) ∧
        exec (.or rd ra rb) s = .next (Spec.wrote s rd o) ∧
        exec (.xor rd ra rb) s = .next (Spec.wrote s rd x) ∧
        exec (.not rd ra) s = .next (Spec.wrote s rd n) ∧
        (∀ i, i < 128 →
          a.getLsbD i = (s.v[ra].getLsbD i && s.v[rb].getLsbD i) ∧
          o.getLsbD i = (s.v[ra].getLsbD i || s.v[rb].getLsbD i) ∧
          x.getLsbD i = Bool.xor (s.v[ra].getLsbD i) (s.v[rb].getLsbD i) ∧
          n.getLsbD i = !s.v[ra].getLsbD i) ∧
        n.toNat = 2 ^ 128 - 1 - s.v[ra].toNat ∧ n.toInt = -s.v[ra].toInt - 1

/-! ## Comparisons (43_compare.md) -/

/-- R160, R161, R163 to R166: equality and the unsigned order, in `Z`. -/
def Obligations.EqualityAndUnsignedOrder : Prop :=
  ∀ ra rb : Reg,
    Spec.Decodes (Spec.word 0x30 0 ra rb 0 0) (.eq ra rb) ∧
    Spec.Decodes (Spec.word 0x31 0 ra rb 0 0) (.ne ra rb) ∧
    Spec.Decodes (Spec.word 0x32 0 ra rb 0 0) (.ltu ra rb) ∧
    Spec.Decodes (Spec.word 0x33 0 ra rb 0 0) (.leu ra rb) ∧
    Spec.Decodes (Spec.word 0x34 0 ra rb 0 0) (.gtu ra rb) ∧
    Spec.Decodes (Spec.word 0x35 0 ra rb 0 0) (.geu ra rb) ∧
    ∀ s : State, s.flt = 0 →
      exec (.eq ra rb) s = .next (Spec.executed s (if s.v[ra] = s.v[rb] then 1 else 0)) ∧
      exec (.ne ra rb) s = .next (Spec.executed s (if s.v[ra] ≠ s.v[rb] then 1 else 0)) ∧
      exec (.ltu ra rb) s = .next (Spec.executed s (if s.v[ra].toNat < s.v[rb].toNat then 1 else 0)) ∧
      exec (.leu ra rb) s = .next (Spec.executed s (if s.v[ra].toNat ≤ s.v[rb].toNat then 1 else 0)) ∧
      exec (.gtu ra rb) s = .next (Spec.executed s (if s.v[ra].toNat > s.v[rb].toNat then 1 else 0)) ∧
      exec (.geu ra rb) s = .next (Spec.executed s (if s.v[ra].toNat ≥ s.v[rb].toNat then 1 else 0))

/-- R168 to R171: the signed order, in `Z`. -/
def Obligations.SignedOrder : Prop :=
  ∀ ra rb : Reg,
    Spec.Decodes (Spec.word 0x36 0 ra rb 0 0) (.lts ra rb) ∧
    Spec.Decodes (Spec.word 0x37 0 ra rb 0 0) (.les ra rb) ∧
    Spec.Decodes (Spec.word 0x38 0 ra rb 0 0) (.gts ra rb) ∧
    Spec.Decodes (Spec.word 0x39 0 ra rb 0 0) (.ges ra rb) ∧
    ∀ s : State, s.flt = 0 →
      exec (.lts ra rb) s = .next (Spec.executed s (if s.v[ra].toInt < s.v[rb].toInt then 1 else 0)) ∧
      exec (.les ra rb) s = .next (Spec.executed s (if s.v[ra].toInt ≤ s.v[rb].toInt then 1 else 0)) ∧
      exec (.gts ra rb) s = .next (Spec.executed s (if s.v[ra].toInt > s.v[rb].toInt then 1 else 0)) ∧
      exec (.ges ra rb) s = .next (Spec.executed s (if s.v[ra].toInt ≥ s.v[rb].toInt then 1 else 0))

/-- The order laws of R172 (its inferences): exactly one of below, equal, above in each view; the other four are made of these; the
two orders agree on a pair exactly when its values have the same bit 127. -/
def Obligations.OrderLaws : Prop :=
  ∀ (ra rb : Reg) (s : State), s.flt = 0 →
    ∃ e lu gu leu geu ls gs les ges : Limb,
      exec (.eq ra rb) s = .next (Spec.executed s e) ∧
      exec (.ltu ra rb) s = .next (Spec.executed s lu) ∧ exec (.gtu ra rb) s = .next (Spec.executed s gu) ∧
      exec (.leu ra rb) s = .next (Spec.executed s leu) ∧ exec (.geu ra rb) s = .next (Spec.executed s geu) ∧
      exec (.lts ra rb) s = .next (Spec.executed s ls) ∧ exec (.gts ra rb) s = .next (Spec.executed s gs) ∧
      exec (.les ra rb) s = .next (Spec.executed s les) ∧ exec (.ges ra rb) s = .next (Spec.executed s ges) ∧
      lu.toNat + e.toNat + gu.toNat = 1 ∧ ls.toNat + e.toNat + gs.toNat = 1 ∧
      leu = lu ||| e ∧ geu = gu ||| e ∧ les = ls ||| e ∧ ges = gs ||| e ∧
      (lu = ls ∧ gu = gs ↔ s.v[ra].msb = s.v[rb].msb)

/-! ## Division (45_divide.md) -/

/-- R192 to R194: DIVU, MODU, DIVMODU; a zero divisor faults `DIVZERO` (R199), equal destinations `ILLEGAL`, tested first. -/
def Obligations.UnsignedDivision : Prop :=
  ∀ rd re ra rb : Reg,
    Spec.Decodes (Spec.word 0x18 rd ra rb 0 0) (.divu rd ra rb) ∧
    Spec.Decodes (Spec.word 0x19 rd ra rb 0 0) (.modu rd ra rb) ∧
    (rd ≠ re → Spec.Decodes (Spec.word 0x1A rd ra rb re 0) (.divmodu rd re ra rb)) ∧
    Spec.RaisesIllegal (Spec.word 0x1A rd ra rb rd 0) ∧
    ∀ s : State, s.flt = 0 →
      (s.v[rb].toNat ≠ 0 →
        exec (.divu rd ra rb) s = .next (Spec.wrote s rd (BitVec.ofNat 128 (s.v[ra].toNat / s.v[rb].toNat))) ∧
        exec (.modu rd ra rb) s = .next (Spec.wrote s rd (BitVec.ofNat 128 (s.v[ra].toNat % s.v[rb].toNat))) ∧
        (rd ≠ re → exec (.divmodu rd re ra rb) s = .next (Spec.wroteBoth s
          rd (BitVec.ofNat 128 (s.v[ra].toNat / s.v[rb].toNat)) re (BitVec.ofNat 128 (s.v[ra].toNat % s.v[rb].toNat))))) ∧
      (s.v[rb].toNat = 0 →
        exec (.divu rd ra rb) s = .next (Spec.faulted s 0x02 (Spec.word 0x18 rd ra rb 0 0)) ∧
        exec (.modu rd ra rb) s = .next (Spec.faulted s 0x02 (Spec.word 0x19 rd ra rb 0 0)) ∧
        (rd ≠ re → exec (.divmodu rd re ra rb) s = .next (Spec.faulted s 0x02 (Spec.word 0x1A rd ra rb re 0)))) ∧
      (rd = re → exec (.divmodu rd re ra rb) s = .next (Spec.faulted s 0x01 (Spec.word 0x1A rd ra rb re 0)))

/-- R196 to R198: DIVS, MODS, DIVMODS, truncating toward zero with the remainder's sign the dividend's; `DIVZERO` on a zero
divisor, `SDIVOVF` on SignedMin by -1 (R200), `ILLEGAL` first on equal destinations. -/
def Obligations.SignedDivision : Prop :=
  ∀ rd re ra rb : Reg,
    Spec.Decodes (Spec.word 0x1C rd ra rb 0 0) (.divs rd ra rb) ∧
    Spec.Decodes (Spec.word 0x1D rd ra rb 0 0) (.mods rd ra rb) ∧
    (rd ≠ re → Spec.Decodes (Spec.word 0x1E rd ra rb re 0) (.divmods rd re ra rb)) ∧
    Spec.RaisesIllegal (Spec.word 0x1E rd ra rb rd 0) ∧
    ∀ s : State, s.flt = 0 →
      (s.v[rb].toInt ≠ 0 → ¬ (s.v[ra].toInt = -2 ^ 127 ∧ s.v[rb].toInt = -1) →
        ∃ q r : Value,
          q.toInt = Spec.truncate (s.v[ra].toInt / s.v[rb].toInt) ∧
          r.toInt = s.v[ra].toInt - q.toInt * s.v[rb].toInt ∧
          exec (.divs rd ra rb) s = .next (Spec.wrote s rd q) ∧
          exec (.mods rd ra rb) s = .next (Spec.wrote s rd r) ∧
          (rd ≠ re → exec (.divmods rd re ra rb) s = .next (Spec.wroteBoth s rd q re r))) ∧
      (s.v[rb].toInt = 0 →
        exec (.divs rd ra rb) s = .next (Spec.faulted s 0x02 (Spec.word 0x1C rd ra rb 0 0)) ∧
        exec (.mods rd ra rb) s = .next (Spec.faulted s 0x02 (Spec.word 0x1D rd ra rb 0 0)) ∧
        (rd ≠ re → exec (.divmods rd re ra rb) s = .next (Spec.faulted s 0x02 (Spec.word 0x1E rd ra rb re 0)))) ∧
      (s.v[ra].toInt = -2 ^ 127 → s.v[rb].toInt = -1 →
        exec (.divs rd ra rb) s = .next (Spec.faulted s 0x03 (Spec.word 0x1C rd ra rb 0 0)) ∧
        exec (.mods rd ra rb) s = .next (Spec.faulted s 0x03 (Spec.word 0x1D rd ra rb 0 0)) ∧
        (rd ≠ re → exec (.divmods rd re ra rb) s = .next (Spec.faulted s 0x03 (Spec.word 0x1E rd ra rb re 0)))) ∧
      (rd = re → exec (.divmods rd re ra rb) s = .next (Spec.faulted s 0x01 (Spec.word 0x1E rd ra rb re 0)))

/-- The division identity, as the program of R201 (an inference there): `divmodu v2, v3, v0, v1`; `mul v4, v2, v1`; `add v4, v4, v3`;
`eq v4, v0` returns 1; the same with `divmods` for every pair that does not fault, the remainder's sign then the dividend's. -/
def Obligations.DivisionIdentity : Prop :=
  ∀ s : State, s.flt = 0 → s.v[1] ≠ 0 →
    (∃ a b c : State, exec (.divmodu 2 3 0 1) s = .next a ∧ exec (.mul 4 2 1) a = .next b ∧
      exec (.add 4 4 3) b = .next c ∧ exec (.eq 4 0) c = .next (Spec.executed c 1) ∧
      a.v[3].toNat < s.v[1].toNat) ∧
    (¬ (s.v[0].toInt = -2 ^ 127 ∧ s.v[1].toInt = -1) →
      ∃ a b c : State, exec (.divmods 2 3 0 1) s = .next a ∧ exec (.mul 4 2 1) a = .next b ∧
        exec (.add 4 4 3) b = .next c ∧ exec (.eq 4 0) c = .next (Spec.executed c 1) ∧
        |a.v[3].toInt| < |s.v[1].toInt| ∧ 0 ≤ a.v[3].toInt * s.v[0].toInt)

/-! ## The formatter (46_format.md) -/

/-- R227: the text buffer holds sign, prefix and digits (R224 to R226, R229, R230) from `T[0]`, zero bytes after them, `TLEN` and `Z`
their number; no value register is written; `BASE = 3` faults `ILLEGAL`. -/
def Obligations.FormattedText : Prop :=
  ∀ (ra : Reg) (base : Base) (sg uc sb sp : Bool),
    Spec.Decodes (Spec.word 0x50 0 ra 0 0
      (Spec.baseCode base + 4 * sg.toNat + 8 * uc.toNat + 16 * sb.toNat + 32 * sp.toNat)) (.fmt ra base sg uc sb sp) ∧
    Spec.RaisesIllegal (Spec.word 0x50 0 ra 0 0 (3 + 4 * sg.toNat + 8 * uc.toNat + 16 * sb.toNat + 32 * sp.toNat)) ∧
    ∀ s : State, s.flt = 0 →
      let text := Spec.text base sg uc sb sp s.v[ra]
      text.length ≤ 48 ∧
      exec (.fmt ra base sg uc sb sp) s =
        .next { Spec.executed s (BitVec.ofNat 64 text.length) with
          t := Vector.ofFn fun k : Fin 48 => text.getD k.val 0
          tlen := BitVec.ofNat 8 text.length }

/-- Reading the text of an unsigned value back as a numeral of its base gives the value (the round trip of R231). -/
def Obligations.TextRoundTrip : Prop :=
  ∀ (ra : Reg) (base : Base) (uc sp : Bool) (s : State), s.flt = 0 →
    ∃ t, exec (.fmt ra base false uc false sp) s = .next t ∧
      Spec.readNumeral (Spec.baseRadix base) (t.t.toList.take t.tlen.toNat) = s.v[ra].toNat

/-- The lengths of R230 (its inferences): FMT leaves a text of 1 to 40 characters in decimal, 44 in octal, 34 in hexadecimal, and
each bound is reached: SignedMin in signed decimal, `2^126` in octal and UnsignedMax in hexadecimal with prefix. -/
def Obligations.TextLength : Prop :=
  (∀ (ra : Reg) (base : Base) (sg uc sb sp : Bool) (s : State), s.flt = 0 →
    ∃ t, exec (.fmt ra base sg uc sb sp) s = .next t ∧
      1 ≤ t.tlen.toNat ∧ t.tlen.toNat ≤ (match base with | .dec => 40 | .oct => 44 | .hex => 34)) ∧
  ∀ (ra : Reg) (s : State), s.flt = 0 →
    (s.v[ra] = BitVec.ofInt 128 (-2 ^ 127) →
      ∃ t, exec (.fmt ra .dec true false false false) s = .next t ∧ t.tlen = 40) ∧
    (s.v[ra] = BitVec.ofNat 128 (2 ^ 126) →
      ∃ t, exec (.fmt ra .oct false false true false) s = .next t ∧ t.tlen = 44) ∧
    (s.v[ra] = BitVec.ofNat 128 (2 ^ 128 - 1) →
      ∃ t, exec (.fmt ra .hex false false true false) s = .next t ∧ t.tlen = 34)

/-- R228: RDTXT returns eight bytes of the text buffer, byte `j` of `Z` being `T[8*K + j]`; `K = 6` and `7` fault `ILLEGAL`. -/
def Obligations.ReadText : Prop :=
  ∀ k : TextWord,
    Spec.Decodes (Spec.word 0x51 0 0 0 0 k) (.rdtxt k) ∧
    Spec.RaisesIllegal (Spec.word 0x51 0 0 0 0 6) ∧ Spec.RaisesIllegal (Spec.word 0x51 0 0 0 0 7) ∧
    ∀ s : State, s.flt = 0 →
      ∃ z : Limb, exec (.rdtxt k) s = .next (Spec.executed s z) ∧
        ∀ j : Fin 8, z.extractLsb' (8 * j.val) 8 = s.t[8 * k.val + j.val]

/-! ## The float bridge (47_float.md) -/

/-- R261: FROMFU truncates a number in [0, 2^128) and faults on a NaN, an infinity and any other number. -/
def Obligations.FromFloatUnsigned : Prop :=
  ∀ (rd : Reg) (fp : FpFormat) (x : Limb),
    Spec.DecodesX (Spec.word 0x40 rd 0 0 0 (Spec.fpCode fp)) (.fromfu rd fp) ∧
    ∀ s : State, s.flt = 0 →
      (Spec.IsNan fp x → exec (.fromfu rd fp x) s = .next (Spec.faulted s 0x06 (Spec.word 0x40 rd 0 0 0 (Spec.fpCode fp)))) ∧
      (Spec.IsInf fp x → exec (.fromfu rd fp x) s = .next (Spec.faulted s 0x07 (Spec.word 0x40 rd 0 0 0 (Spec.fpCode fp)))) ∧
      (Spec.IsFinite fp x → Spec.val fp x < 0 ∨ 2 ^ 128 ≤ Spec.val fp x →
        exec (.fromfu rd fp x) s = .next (Spec.faulted s 0x07 (Spec.word 0x40 rd 0 0 0 (Spec.fpCode fp)))) ∧
      (Spec.IsFinite fp x → 0 ≤ Spec.val fp x → Spec.val fp x < 2 ^ 128 →
        exec (.fromfu rd fp x) s = .next (Spec.wrote s rd (BitVec.ofInt 128 (Spec.truncate (Spec.val fp x)))))

/-- R262: FROMFS truncates toward zero a number whose truncation fits the signed view, and faults on any other operand. -/
def Obligations.FromFloatSigned : Prop :=
  ∀ (rd : Reg) (fp : FpFormat) (x : Limb),
    Spec.DecodesX (Spec.word 0x41 rd 0 0 0 (Spec.fpCode fp)) (.fromfs rd fp) ∧
    ∀ s : State, s.flt = 0 →
      (Spec.IsNan fp x → exec (.fromfs rd fp x) s = .next (Spec.faulted s 0x06 (Spec.word 0x41 rd 0 0 0 (Spec.fpCode fp)))) ∧
      (Spec.IsInf fp x → exec (.fromfs rd fp x) s = .next (Spec.faulted s 0x07 (Spec.word 0x41 rd 0 0 0 (Spec.fpCode fp)))) ∧
      (Spec.IsFinite fp x → 2 ^ 127 ≤ Spec.val fp x ∨ Spec.val fp x ≤ -2 ^ 127 - 1 →
        exec (.fromfs rd fp x) s = .next (Spec.faulted s 0x07 (Spec.word 0x41 rd 0 0 0 (Spec.fpCode fp)))) ∧
      (Spec.IsFinite fp x → -2 ^ 127 - 1 < Spec.val fp x → Spec.val fp x < 2 ^ 127 →
        exec (.fromfs rd fp x) s = .next (Spec.wrote s rd (BitVec.ofInt 128 (Spec.truncate (Spec.val fp x)))))

/-- The split of R261 into a high part and a low remainder computes the truncation exactly (the inference of R266, on which the
meanings rest, log 11). -/
def Obligations.SplitIsTruncation : Prop :=
  ∀ (fp : FpFormat) (x : Limb) (neg : Bool) (m : Nat) (e : Int), unpackFp fp x = some (.fin neg m e) →
    0 ≤ Spec.val fp x → Spec.val fp x < 2 ^ 128 →
      splitConvert fp m e = some (BitVec.ofInt 128 ⌊Spec.val fp x⌋)

/-- TOFU returns the composition of the two rounded halves (R263, R265). What roundTiesToEven means, an infinity on overflow
included, is IEEE 754's and from outside the spec (log 6, PRESUMED). -/
def Obligations.ToFloatUnsigned : Prop :=
  ∀ (ra : Reg) (fp : FpFormat),
    Spec.Decodes (Spec.word 0x42 0 ra 0 0 (Spec.fpCode fp)) (.tofu ra fp) ∧
    ∀ s : State, s.flt = 0 →
      ∃ z, Spec.Composed fp s.v[ra].toNat z ∧ exec (.tofu ra fp) s = .next (Spec.executed s z)

/-- TOFS converts the magnitude as TOFU and sets the sign bit of a negative value (R264). What roundTiesToEven means in that
conversion is IEEE 754's and from outside the spec (log 6, PRESUMED). -/
def Obligations.ToFloatSigned : Prop :=
  ∀ (ra : Reg) (fp : FpFormat),
    Spec.Decodes (Spec.word 0x43 0 ra 0 0 (Spec.fpCode fp)) (.tofs ra fp) ∧
    ∀ s : State, s.flt = 0 →
      ∃ z, Spec.Composed fp s.v[ra].toInt.natAbs z ∧
        exec (.tofs ra fp) s = .next (Spec.executed s (if s.v[ra].toInt < 0 then z ||| Spec.signBit fp else z))

/-- The two sentences of R263 about the result of TOFU: exact with at most `p` significant bits; +infinity in binary32 exactly from
`hi = 0xFFFFFF8000000000` on, and never in binary64. That rounding past the largest number gives an infinity, and from where on, is
IEEE 754's roundTiesToEven, from outside the spec (log 6, PRESUMED). -/
def Obligations.ToFloatExactAndOverflow : Prop :=
  ∀ (ra : Reg) (fp : FpFormat) (s : State), s.flt = 0 →
    ∃ z, exec (.tofu ra fp) s = .next (Spec.executed s z) ∧
      (∀ m k : Nat, s.v[ra].toNat = m * 2 ^ k → m < 2 ^ (Spec.fracWidth fp + 1) →
        Spec.IsFinite fp z ∧ Spec.val fp z = s.v[ra].toNat) ∧
      (z = Spec.infinity fp ↔ fp = .binary32 ∧ 0xFFFFFF8000000000 ≤ s.v[ra].toNat / 2 ^ 64)

/-! ## System (48_system.md) -/

/-- R290: RDCR returns a control register zero-extended, running or halted, and writes nothing; `N = 3` faults `ILLEGAL` in the running
unit. A halted unit executes RDCR and refuses any other packet, `N = 3` among them: the step says so, `exec` itself has no halted
check (log 13). -/
def Obligations.ReadControlRegister : Prop :=
  (∀ (n : CtrlReg) (s : State),
    (∀ x y, decode { cw := Spec.word 0x60 0 0 0 0 (Spec.ctrlCode n), x := x, y := y } = .ok (.rdcr n) ∧
      step (present { cw := Spec.word 0x60 0 0 0 0 (Spec.ctrlCode n), x := x, y := y } s) = exec (.rdcr n) s) ∧
    exec (.rdcr n) s = .next { s with responses :=
      { st := s.flt &&& 0x7F
        z := match n with
          | .flt => BitVec.ofNat 64 s.flt.toNat
          | .finfo => BitVec.ofNat 64 s.finfo.toNat
          | .cfg => 0x87 } :: s.responses }) ∧
  Spec.RaisesIllegal (Spec.word 0x60 0 0 0 0 3) ∧
  (∀ x y n, decode { cw := Spec.word 0x60 0 0 0 0 3, x := x, y := y } ≠ .ok (.rdcr n)) ∧
  ∀ (s : State) (p : Packet), s.flt ≠ 0 → (∀ n, decode p ≠ .ok (.rdcr n)) →
    step (present p s) = .next { s with responses := { st := 0x80 ||| s.flt, z := 0 } :: s.responses }
end

