-- ==== Sys2Proof/Laws/Datapath.lean ====
section
/-! SUPPORT. The value law of each datapath: what the limb-level circuits of Machine/ compute, said in the arithmetic of `BitVec`,
`Nat` and `Int` (spec/41_add_sub_mul.md, 42_shift_rotate.md, 43_compare.md, 44_bitwise.md, 45_divide.md). -/

namespace Sys2Proof.Laws
open Sys2Proof.Machine

/-- R167: the signed order. -/
theorem slt_iff (a b : Value) : slt a b = true ↔ a.toInt < b.toInt := by
  have ha := a.isLt; have hb := b.isLt
  simp only [slt, BitVec.slt, BitVec.ult, Bool.or_eq_true, Bool.and_eq_true, decide_eq_true_eq, beq_iff_eq, ← BitVec.toNat_inj, BitVec.toInt_eq_toNat_cond, toNat_hi, toNat_lo]
  split <;> split <;> split <;> split <;> omega

/-- R122. -/
theorem sub128_eq (a b : Value) : sub128 a b = a - b := by
  have ha := a.isLt; have hb := b.isLt
  apply BitVec.eq_of_toNat_eq
  simp only [sub128, toNat_pair, borrow, BitVec.ult, BitVec.toNat_sub, toNat_hi, toNat_lo, decide_eq_true_eq]
  split <;> simp <;> omega

/-- R160. -/
theorem eq128_iff (a b : Value) : eq128 a b = true ↔ a = b := by
  simp only [eq128, Bool.and_eq_true, beq_iff_eq]
  constructor
  · rintro ⟨h, l⟩; rw [← pair_hi_lo a, ← pair_hi_lo b, h, l]
  · rintro rfl; simp

/-- The bits of the limbs. -/
theorem getLsbD_hi (v : Value) (i : Nat) : (hi v).getLsbD i = (decide (i < 64) && v.getLsbD (64 + i)) := by
  simp [hi]

theorem getLsbD_lo (v : Value) (i : Nat) : (lo v).getLsbD i = (decide (i < 64) && v.getLsbD i) := by
  simp [lo]

theorem getLsbD_pair (h l : Limb) (i : Nat) : (pair h l).getLsbD i = if i < 64 then l.getLsbD i else h.getLsbD (i - 64) := by
  rw [pair, BitVec.getLsbD_append]

/-- R180. -/
theorem and128_eq (a b : Value) : and128 a b = a &&& b := by
  apply BitVec.eq_of_getLsbD_eq
  intro i h
  simp only [and128, getLsbD_pair, BitVec.getLsbD_and, getLsbD_lo, getLsbD_hi]
  split
  · simp [*]
  · rw [show 64 + (i - 64) = i by omega, show decide (i - 64 < 64) = true by simp; omega]; simp

/-- R181. -/
theorem or128_eq (a b : Value) : or128 a b = a ||| b := by
  apply BitVec.eq_of_getLsbD_eq
  intro i h
  simp only [or128, getLsbD_pair, BitVec.getLsbD_or, getLsbD_lo, getLsbD_hi]
  split
  · simp [*]
  · rw [show 64 + (i - 64) = i by omega, show decide (i - 64 < 64) = true by simp; omega]; simp

/-- R182. -/
theorem xor128_eq (a b : Value) : xor128 a b = a ^^^ b := by
  apply BitVec.eq_of_getLsbD_eq
  intro i h
  simp only [xor128, getLsbD_pair, BitVec.getLsbD_xor, getLsbD_lo, getLsbD_hi]
  split
  · simp [*]
  · rw [show 64 + (i - 64) = i by omega, show decide (i - 64 < 64) = true by simp; omega]; simp

/-- R141. -/
theorem shl128_eq (v : Value) (n : Fin 128) : shl128 v n = v <<< n.val := by
  obtain ⟨n, hn⟩ := n
  apply BitVec.eq_of_getLsbD_eq
  intro i hi
  simp only [shl128]
  split
  · rename_i h; simp [h]
  · split
    · simp only [getLsbD_pair, getLsbD_hi, getLsbD_lo, BitVec.getLsbD_shiftLeft, BitVec.getLsbD_or, BitVec.getLsbD_ushiftRight]
      split
      · have h1 : i - n < 64 := by omega
        simp [*]
      · by_cases h2 : i < 64 + n
        · have h3 : 64 - n + (i - 64) = i - n := by omega
          have h4 : ¬ (i < n) := by omega
          have h5 : i - n < 64 := by omega
          have h6 : i - 64 < n := by omega
          simp [*]
        · have h3 : 64 + (i - 64 - n) = i - n := by omega
          have h4 : ¬ (i < n) := by omega
          have h5 : i - 64 < 64 := by omega
          have h6 : ¬ i - 64 < n := by omega
          have h7 : i - 64 - n < 64 := by omega
          have h8 : ¬ (64 - n + (i - 64) < 64) := by omega
          simp [*]
    · simp only [getLsbD_pair, getLsbD_lo, BitVec.getLsbD_shiftLeft]
      split
      · have : i < n := by omega
        simp [*]
      · have h3 : i - 64 - (n - 64) = i - n := by omega
        have h4 : i - 64 < 64 := by omega
        have h5 : i - n < 64 := by omega
        by_cases h6 : i < n
        · have : i - 64 < n - 64 := by omega
          simp [*]
        · have : ¬ i - 64 < n - 64 := by omega
          simp [*]

/-- R143. -/
theorem shr128_eq (v : Value) (n : Fin 128) : shr128 v n = v >>> n.val := by
  obtain ⟨n, hn⟩ := n
  apply BitVec.eq_of_getLsbD_eq
  intro i hi
  simp only [shr128]
  split
  · rename_i h; simp [h]
  · split
    · simp only [getLsbD_pair, getLsbD_hi, getLsbD_lo, BitVec.getLsbD_shiftLeft, BitVec.getLsbD_or, BitVec.getLsbD_ushiftRight]
      split
      · by_cases h1 : n + i < 64
        · have h2 : i < 64 - n := by omega
          simp [*]
        · have h2 : ¬ i < 64 - n := by omega
          have h3 : 64 + (i - (64 - n)) = n + i := by omega
          have h4 : i - (64 - n) < 64 := by omega
          simp [*]
      · by_cases h1 : n + i < 128
        · have h2 : n + (i - 64) < 64 := by omega
          have h3 : 64 + (n + (i - 64)) = n + i := by omega
          simp [*]
        · have h2 : ¬ n + (i - 64) < 64 := by omega
          have : v.getLsbD (n + i) = false := BitVec.getLsbD_of_ge _ _ (by omega)
          simp [*]
    · simp only [getLsbD_pair, getLsbD_hi, BitVec.getLsbD_ushiftRight]
      split
      · by_cases h1 : n + i < 128
        · have h2 : n - 64 + i < 64 := by omega
          have h3 : 64 + (n - 64 + i) = n + i := by omega
          simp [*]
        · have h2 : ¬ n - 64 + i < 64 := by omega
          have : v.getLsbD (n + i) = false := BitVec.getLsbD_of_ge _ _ (by omega)
          simp [*]
      · have : v.getLsbD (n + i) = false := BitVec.getLsbD_of_ge _ _ (by omega)
        simp [*]

/-- R145. -/
theorem sar128_eq (v : Value) (n : Fin 128) : sar128 v n = v.sshiftRight n.val := by
  rw [sar128]
  split
  · rename_i h
    rw [not128_eq, not128_eq, shr128_eq, BitVec.sshiftRight_eq_of_msb_true h]
  · rename_i h
    rw [shr128_eq, BitVec.sshiftRight_eq_of_msb_false (by simpa using h)]

/-- R146. -/
theorem rol128_eq (v : Value) (n : Fin 128) : rol128 v n = v.rotateLeft n.val := by
  obtain ⟨n, hn⟩ := n
  rw [rol128]
  split
  · rename_i h; simp only at h; subst h; simp [BitVec.rotateLeft, BitVec.rotateLeftAux, BitVec.ushiftRight_eq_zero]
  · rw [or128_eq, shl128_eq, shr128_eq, BitVec.rotateLeft_eq_rotateLeftAux_of_lt hn]; rfl

/-- R147. -/
theorem ror128_eq (v : Value) (n : Fin 128) : ror128 v n = v.rotateRight n.val := by
  obtain ⟨n, hn⟩ := n
  rw [ror128]
  split
  · rename_i h; simp only at h; subst h; simp [BitVec.rotateRight, BitVec.rotateRightAux]
  · rw [or128_eq, shl128_eq, shr128_eq, BitVec.rotateRight_eq_rotateRightAux_of_lt hn]; rfl

/-- Bit `j` of a left rotation. -/
theorem getLsbD_rol128 (v : Value) (n : Fin 128) {j : Nat} (hj : j < 128) :
    (rol128 v n).getLsbD j = if j < n.val then v.getLsbD (128 - n.val + j) else v.getLsbD (j - n.val) := by
  rw [rol128_eq, BitVec.getLsbD_rotateLeft, Nat.mod_eq_of_lt n.isLt]
  by_cases c : j < n.val <;> simp [c, hj]

/-- Bit `j` of a right rotation. -/
theorem getLsbD_ror128 (v : Value) (n : Fin 128) {j : Nat} (hj : j < 128) :
    (ror128 v n).getLsbD j = if j < 128 - n.val then v.getLsbD (n.val + j) else v.getLsbD (j - (128 - n.val)) := by
  rw [ror128_eq, BitVec.getLsbD_rotateRight, Nat.mod_eq_of_lt n.isLt]
  by_cases c : j < 128 - n.val <;> simp [c, hj]

theorem halfLo_toNat (l : Limb) : (halfLo l).toNat = l.toNat % 2 ^ 32 := by
  have := l.isLt
  simp [halfLo]; omega

theorem halfHi_toNat (l : Limb) : (halfHi l).toNat = l.toNat / 2 ^ 32 := by
  have := l.isLt
  simp [halfHi, Nat.shiftRight_eq_div_pow]; omega

theorem atBit32_toNat (p : Limb) : (atBit32 p).toNat = p.toNat * 2 ^ 32 := by
  have := p.isLt
  rw [atBit32, toNat_pair, BitVec.toNat_ushiftRight, BitVec.toNat_shiftLeft, Nat.shiftRight_eq_div_pow, Nat.shiftLeft_eq]
  omega

/-- A value as its limbs (R7). -/
theorem toNat_limbs (v : Value) : v.toNat = (hi v).toNat * 2 ^ 64 + (lo v).toNat := by
  rw [← toNat_pair, pair_hi_lo]

/-- R124. -/
theorem mul128_eq (a b : Value) : mul128 a b = a * b := by
  have h00 : (halfLo (lo a) * halfLo (lo b)).toNat = (lo a).toNat % 2 ^ 32 * ((lo b).toNat % 2 ^ 32) := by
    rw [BitVec.toNat_mul, halfLo_toNat, halfLo_toNat]
    apply Nat.mod_eq_of_lt
    have h1 : (lo a).toNat % 2 ^ 32 ≤ 2 ^ 32 - 1 := by omega
    have h2 : (lo b).toNat % 2 ^ 32 ≤ 2 ^ 32 - 1 := by omega
    calc _ ≤ (2 ^ 32 - 1) * (2 ^ 32 - 1) := Nat.mul_le_mul h1 h2
      _ < _ := by norm_num
  have h01 : (halfLo (lo a) * halfHi (lo b)).toNat = (lo a).toNat % 2 ^ 32 * ((lo b).toNat / 2 ^ 32) := by
    rw [BitVec.toNat_mul, halfLo_toNat, halfHi_toNat]
    apply Nat.mod_eq_of_lt
    have h1 : (lo a).toNat % 2 ^ 32 ≤ 2 ^ 32 - 1 := by omega
    have h2 : (lo b).toNat / 2 ^ 32 ≤ 2 ^ 32 - 1 := by have := (lo b).isLt; omega
    calc _ ≤ (2 ^ 32 - 1) * (2 ^ 32 - 1) := Nat.mul_le_mul h1 h2
      _ < _ := by norm_num
  have h10 : (halfHi (lo a) * halfLo (lo b)).toNat = (lo a).toNat / 2 ^ 32 * ((lo b).toNat % 2 ^ 32) := by
    rw [BitVec.toNat_mul, halfLo_toNat, halfHi_toNat]
    apply Nat.mod_eq_of_lt
    have h1 : (lo a).toNat / 2 ^ 32 ≤ 2 ^ 32 - 1 := by have := (lo a).isLt; omega
    have h2 : (lo b).toNat % 2 ^ 32 ≤ 2 ^ 32 - 1 := by omega
    calc _ ≤ (2 ^ 32 - 1) * (2 ^ 32 - 1) := Nat.mul_le_mul h1 h2
      _ < _ := by norm_num
  apply BitVec.eq_of_toNat_eq
  rw [mul128]
  simp only [add128_eq, BitVec.toNat_add, toNat_pair, atBit32_toNat, h00, h01, h10]
  rw [BitVec.toNat_mul a b]
  simp only [BitVec.toNat_mul, halfHi_toNat]
  have e (x y z : Nat) : ((x % 2 ^ 64 + y % 2 ^ 64) % 2 ^ 64 + z % 2 ^ 64) % 2 ^ 64 = (x + y + z) % 2 ^ 64 := by omega
  rw [e]
  have f (x : Nat) : x % 2 ^ 64 * 2 ^ 64 = x * 2 ^ 64 % 2 ^ 128 := by omega
  rw [f]
  have ea := toNat_limbs a
  have eb := toNat_limbs b
  rw [ea, eb]
  generalize (hi a).toNat = ah
  generalize (hi b).toNat = bh
  have da : (lo a).toNat = (lo a).toNat / 2 ^ 32 * 2 ^ 32 + (lo a).toNat % 2 ^ 32 := by omega
  have db : (lo b).toNat = (lo b).toNat / 2 ^ 32 * 2 ^ 32 + (lo b).toNat % 2 ^ 32 := by omega
  generalize (lo a).toNat % 2 ^ 32 = a0 at *
  generalize (lo b).toNat % 2 ^ 32 = b0 at *
  generalize (lo a).toNat / 2 ^ 32 = a1 at *
  generalize (lo b).toNat / 2 ^ 32 = b1 at *
  rw [da, db]
  have : (ah * 2 ^ 64 + (a1 * 2 ^ 32 + a0)) * (bh * 2 ^ 64 + (b1 * 2 ^ 32 + b0)) =
    ((ah * (b1 * 2 ^ 32 + b0) + (a1 * 2 ^ 32 + a0) * bh + a1 * b1) * 2 ^ 64 + a0 * b0 + a1 * b0 * 2 ^ 32 + a0 * b1 * 2 ^ 32) + ah * bh * 2 ^ 128 := by ring
  rw [this, Nat.add_mul_mod_self_right]
  generalize ah * (b1 * 2 ^ 32 + b0) + (a1 * 2 ^ 32 + a0) * bh + a1 * b1 = x
  generalize a0 * b0 = p00
  generalize a1 * b0 = p10
  generalize a0 * b1 = p01
  omega

/-- The scan below bit `k` of a number below `2^(k+1)` finds its highest set bit. -/
theorem highestSetBelow_bounds {x : Limb} (hx : x ≠ 0) : ∀ k, x.toNat < 2 ^ (k + 1) →
    2 ^ highestSetBelow x k ≤ x.toNat ∧ x.toNat < 2 ^ (highestSetBelow x k + 1)
  | 0, h => by
    have : x.toNat ≠ 0 := fun h0 => hx (BitVec.eq_of_toNat_eq (by simpa using h0))
    rw [highestSetBelow]
    omega
  | k + 1, h => by
    rw [highestSetBelow]
    split
    · rename_i hb
      exact ⟨Nat.ge_two_pow_of_testBit hb, h⟩
    · rename_i hb
      apply highestSetBelow_bounds hx k
      rw [BitVec.getLsbD, Nat.testBit_eq_decide_div_mod_eq] at hb
      have h1 : x.toNat / 2 ^ (k + 1) < 2 := by
        rw [Nat.div_lt_iff_lt_mul (by positivity)]
        rw [pow_succ] at h; omega
      have h2 : x.toNat / 2 ^ (k + 1) = 0 := by
        generalize x.toNat / 2 ^ (k + 1) = z at *
        have : z % 2 ≠ 1 := by simpa using hb
        omega
      exact (Nat.div_eq_zero_iff.mp h2).resolve_left (by positivity)

/-- R190: `fls64` is the index of the most significant set bit. -/
theorem fls64_bounds {x : Limb} (hx : x ≠ 0) :
    2 ^ (fls64 x hx).val ≤ x.toNat ∧ x.toNat < 2 ^ ((fls64 x hx).val + 1) :=
  highestSetBelow_bounds hx 63 x.isLt

/-- R190: `fls128` is the index of the most significant set bit. -/
theorem fls128_bounds {v : Value} (hv : v ≠ 0) :
    2 ^ (fls128 v hv).val ≤ v.toNat ∧ v.toNat < 2 ^ ((fls128 v hv).val + 1) := by
  have hl := (lo v).isLt
  have e := toNat_limbs v
  rw [fls128]
  split
  · rename_i hh
    have := fls64_bounds (lo_ne_zero_of_hi_eq_zero hv hh)
    rw [hh] at e
    simp at e
    rw [e]; exact this
  · rename_i hh
    obtain ⟨h1, h2⟩ := fls64_bounds hh
    simp only
    rw [Nat.add_assoc, Nat.pow_add, Nat.pow_add 2 64, e]
    constructor
    · nlinarith
    · have : (hi v).toNat + 1 ≤ 2 ^ ((fls64 (hi v) hh).val + 1) := h2
      nlinarith

/-- Setting the low bit of an even quotient adds one. -/
theorem or128_one_of_even {q : Value} (h : q.toNat % 2 = 0) : (or128 q (pair 0 1)).toNat = q.toNat + 1 := by
  rw [or128_eq, BitVec.toNat_or]
  have : (pair 0 1).toNat = 1 := rfl
  rw [this]
  obtain ⟨k, hk⟩ : ∃ k, q.toNat = 2 * k := ⟨q.toNat / 2, by omega⟩
  rw [hk, Nat.mul_comm]
  have := Nat.shiftLeft_add_eq_or_of_lt (b := 1) (i := 1) (by norm_num) k
  rw [Nat.shiftLeft_eq] at this
  simpa using this.symm

/-- Step 3 of R191: `n` iterations divide a remainder below `B * 2^n` by `B`. -/
theorem divideLoop_spec (B : Nat) (hB : 0 < B) : ∀ (n : Nat) (d rem q : Value),
    (n ≠ 0 → d.toNat = B * 2 ^ (n - 1)) → rem.toNat < B * 2 ^ n → (q.toNat + 1) * 2 ^ n ≤ 2 ^ 128 →
    (divideLoop n d rem q).1.toNat = q.toNat * 2 ^ n + rem.toNat / B ∧
      (divideLoop n d rem q).2.toNat = rem.toNat % B
  | 0, d, rem, q, _, hr, _ => by
    simp only [pow_zero, mul_one] at hr
    simp [divideLoop, Nat.div_eq_of_lt hr, Nat.mod_eq_of_lt hr]
  | n + 1, d, rem, q, hd, hr, hq => by
    have hd' : d.toNat = B * 2 ^ n := by simpa using hd (by omega)
    have h1 : (1 : Fin 128).val = 1 := rfl
    have hp : 0 < 2 ^ n := by positivity
    rw [pow_succ] at hr hq
    have hq2 : (shl128 q 1).toNat = 2 * q.toNat := by
      rw [shl128_eq, BitVec.toNat_shiftLeft, h1, Nat.shiftLeft_eq]
      have : (q.toNat + 1) * 2 ≤ 2 ^ 128 := by nlinarith
      omega
    have hdd : n ≠ 0 → (shr128 d 1).toNat = B * 2 ^ (n - 1) := by
      intro hn
      rw [shr128_eq, BitVec.toNat_ushiftRight, h1, Nat.shiftRight_eq_div_pow, hd']
      obtain ⟨m, rfl⟩ : ∃ m, n = m + 1 := ⟨n - 1, by omega⟩
      rw [pow_succ, ← Nat.mul_assoc]; simp
    rw [divideLoop]
    split
    · rename_i hlt
      rw [ult_iff, hd'] at hlt
      have := divideLoop_spec B hB n (shr128 d 1) rem (shl128 q 1) hdd hlt (by rw [hq2]; nlinarith)
      rw [this.1, this.2, hq2, pow_succ]
      exact ⟨by ring, rfl⟩
    · rename_i hlt
      rw [ult_iff, hd'] at hlt
      have hs : (sub128 rem d).toNat = rem.toNat - B * 2 ^ n := by
        rw [sub128_eq, BitVec.toNat_sub, hd']
        have := rem.isLt
        omega
      have ho : (or128 (shl128 q 1) (pair 0 1)).toNat = 2 * q.toNat + 1 := by
        rw [or128_one_of_even (by omega), hq2]
      have := divideLoop_spec B hB n (shr128 d 1) (sub128 rem d) (or128 (shl128 q 1) (pair 0 1)) hdd
        (by rw [hs]; rw [← Nat.mul_assoc] at hr; omega) (by rw [ho]; nlinarith)
      rw [this.1, this.2, hs, ho, pow_succ]
      obtain ⟨r, hr'⟩ : ∃ r, rem.toNat = r + B * 2 ^ n := ⟨rem.toNat - B * 2 ^ n, by omega⟩
      rw [hr', Nat.add_sub_cancel, Nat.add_mul_div_left _ _ hB, Nat.add_mul_mod_self_left]
      exact ⟨by ring, rfl⟩

/-- R191 steps 2 to 4, from the aligned divisor. -/
theorem divideLoop_aligned {a b : Value} (ha : a ≠ 0) (hb : b ≠ 0) (sh : Nat) (hs : sh < 128)
    (hf : (fls128 a ha).val = (fls128 b hb).val + sh) :
    divideLoop (sh + 1) (shl128 b ⟨sh, hs⟩) a 0 = (a / b, a % b) := by
  have hB : 0 < b.toNat := Nat.pos_of_ne_zero fun h0 => hb (BitVec.eq_of_toNat_eq (by simpa using h0))
  have hA := (fls128 a ha).isLt
  obtain ⟨_, a2⟩ := fls128_bounds ha
  obtain ⟨b1, b2⟩ := fls128_bounds hb
  have hd : (shl128 b ⟨sh, hs⟩).toNat = b.toNat * 2 ^ sh := by
    rw [shl128_eq, BitVec.toNat_shiftLeft, Nat.shiftLeft_eq]
    apply Nat.mod_eq_of_lt
    calc b.toNat * 2 ^ sh < 2 ^ ((fls128 b hb).val + 1) * 2 ^ sh :=
          Nat.mul_lt_mul_of_pos_right b2 (by positivity)
      _ = 2 ^ ((fls128 a ha).val + 1) := by rw [← pow_add, hf]; congr 1; omega
      _ ≤ 2 ^ 128 := Nat.pow_le_pow_right (by norm_num) (by omega)
  have h := divideLoop_spec b.toNat hB (sh + 1) (shl128 b ⟨sh, hs⟩) a 0 (fun _ => by simpa using hd)
    (by
      calc a.toNat < 2 ^ ((fls128 a ha).val + 1) := a2
        _ = 2 ^ (fls128 b hb).val * 2 ^ (sh + 1) := by rw [← pow_add, hf]; congr 1
        _ ≤ _ := Nat.mul_le_mul_right _ b1)
    (by simpa using Nat.pow_le_pow_right (n := 2) (by norm_num) (by omega : sh + 1 ≤ 128))
  apply Prod.ext <;> apply BitVec.eq_of_toNat_eq
  · rw [h.1]; simp
  · rw [h.2]; simp

/-- R191: the value law of the division engine. -/
theorem udivmod128_eq (a b : Value) (hb : b ≠ 0) : udivmod128 a b hb = (a / b, a % b) := by
  have hB : 0 < b.toNat := Nat.pos_of_ne_zero fun h0 => hb (BitVec.eq_of_toNat_eq (by simpa using h0))
  rw [udivmod128]
  split
  · rename_i h
    rw [ult_iff] at h
    apply Prod.ext <;> apply BitVec.eq_of_toNat_eq
    · simp [Nat.div_eq_of_lt h]
    · simp [Nat.mod_eq_of_lt h]
  · rename_i h
    split
    · rename_i he
      have he := (eq128_iff a b).mp he
      subst he
      apply Prod.ext <;> apply BitVec.eq_of_toNat_eq
      · rw [BitVec.toNat_udiv, Nat.div_self hB]; rfl
      · simp
    · rename_i he
      rw [ult_iff] at h
      have ha := dividend_ne_zero hb (by rwa [ult_iff])
      obtain ⟨a1, a2⟩ := fls128_bounds ha
      obtain ⟨b1, b2⟩ := fls128_bounds hb
      have hle : (fls128 b hb).val ≤ (fls128 a ha).val := by
        by_contra hc
        have : 2 ^ ((fls128 a ha).val + 1) ≤ 2 ^ (fls128 b hb).val := Nat.pow_le_pow_right (by norm_num) (by omega)
        omega
      exact divideLoop_aligned ha hb ((fls128 a ha).val - (fls128 b hb).val) (by omega) (by omega)

/-- R200, as numbers. -/
theorem signedOverflowPair_iff (a b : Value) :
    signedOverflowPair a b = true ↔ a.toInt = -2 ^ 127 ∧ b.toInt = -1 := by
  have ha := a.isLt; have hb := b.isLt
  have h1 : (signedMin : Value).toNat = 2 ^ 127 := rfl
  have h2 : (allOnes : Value).toNat = 2 ^ 128 - 1 := rfl
  simp only [signedOverflowPair, Bool.and_eq_true, beq_iff_eq, ← BitVec.toNat_inj, h1, h2, BitVec.toInt_eq_toNat_cond]
  split <;> split <;> omega

theorem msb_iff (a : Value) : a.msb = true ↔ a.toInt < 0 := by
  rw [BitVec.msb_eq_toInt]; simp

/-- The absolute value by unsigned negation is the magnitude, SignedMin's too (R126). -/
theorem abs128_toNat (a : Value) : (abs128 a).toNat = a.toInt.natAbs := by
  have ha := a.isLt
  rw [abs128, neg128_eq]
  split
  · rename_i h
    rw [BitVec.msb_eq_decide] at h
    rw [BitVec.toNat_neg, BitVec.toInt_eq_toNat_cond]
    simp at h
    split <;> omega
  · rename_i h
    rw [BitVec.msb_eq_decide] at h
    rw [BitVec.toInt_eq_toNat_cond]
    simp at h
    split <;> omega

theorem toInt_neg128_of_le {x : Value} (h : x.toNat ≤ 2 ^ 127) : (neg128 x).toInt = -(x.toNat : Int) := by
  rw [neg128_eq, BitVec.toInt_eq_toNat_cond, BitVec.toNat_neg]
  split <;> omega

theorem toInt_of_lt {x : Value} (h : x.toNat < 2 ^ 127) : x.toInt = x.toNat := by
  rw [BitVec.toInt_eq_toNat_cond]
  split <;> omega

theorem toInt_bounds (x : Value) : -2 ^ 127 ≤ x.toInt ∧ x.toInt < 2 ^ 127 := by
  have := x.isLt
  rw [BitVec.toInt_eq_toNat_cond]
  split <;> omega

/-- R195: the value law of signed division. -/
theorem sdivmod128_toInt (a b : Value) (hb : b ≠ 0) (ho : signedOverflowPair a b = false) :
    (sdivmod128 a b hb ho).1.toInt = a.toInt.tdiv b.toInt ∧ (sdivmod128 a b hb ho).2.toInt = a.toInt.tmod b.toInt := by
  have hs : ¬ (a.toInt = -2 ^ 127 ∧ b.toInt = -1) := by
    rw [← signedOverflowPair_iff, ho]; simp
  have ⟨a1, a2⟩ := toInt_bounds a
  have ⟨b1, b2⟩ := toInt_bounds b
  have b0 : b.toInt ≠ 0 := fun h => hb (BitVec.eq_of_toInt_eq (by simpa using h))
  rw [sdivmod128, udivmod128_eq]
  simp only
  have hq : (abs128 a / abs128 b).toNat = a.toInt.natAbs / b.toInt.natAbs := by
    rw [BitVec.toNat_udiv, abs128_toNat, abs128_toNat]
  have hr : (abs128 a % abs128 b).toNat = a.toInt.natAbs % b.toInt.natAbs := by
    rw [BitVec.toNat_umod, abs128_toNat, abs128_toNat]
  have hna : a.msb = decide (a.toInt < 0) := BitVec.msb_eq_toInt
  have hnb : b.msb = decide (b.toInt < 0) := BitVec.msb_eq_toInt
  have hB : 0 < b.toInt.natAbs := by omega
  have hrl := Nat.mod_lt a.toInt.natAbs hB
  have hrm := Nat.mod_le a.toInt.natAbs b.toInt.natAbs
  have hql := Nat.div_le_self a.toInt.natAbs b.toInt.natAbs
  have hq1 : a.toInt.natAbs = 2 ^ 127 → b.toInt.natAbs ≠ 1 → a.toInt.natAbs / b.toInt.natAbs < 2 ^ 127 := by
    intro h1 h2
    rw [h1]
    exact Nat.div_lt_self (by norm_num) (by omega)
  have ha' : a.toInt = if a.toInt < 0 then -(a.toInt.natAbs : Int) else a.toInt.natAbs := by split <;> omega
  have hb' : b.toInt = if b.toInt < 0 then -(b.toInt.natAbs : Int) else b.toInt.natAbs := by split <;> omega
  constructor
  · have lt : ¬ (a.msb != b.msb) = true → (abs128 a / abs128 b).toNat < 2 ^ 127 := by
      rw [hna, hnb, hq]
      intro h
      by_cases h3 : a.toInt.natAbs = 2 ^ 127
      · apply hq1 h3
        intro h4
        apply hs
        have : a.toInt < 0 := by omega
        simp [this] at h
        omega
      · omega
    split
    · rename_i h
      rw [toInt_neg128_of_le (by omega), hq]
      rw [ha', hb']
      rw [hna, hnb] at h
      by_cases h1 : a.toInt < 0 <;> by_cases h2 : b.toInt < 0 <;> simp [h1, h2] at h ⊢ <;>
        rw [Int.tdiv_eq_ediv_of_nonneg (abs_nonneg _)]
    · rename_i h
      rw [toInt_of_lt (lt h), hq]
      rw [ha', hb']
      rw [hna, hnb] at h
      by_cases h1 : a.toInt < 0 <;> by_cases h2 : b.toInt < 0 <;> simp [h1, h2] at h ⊢ <;>
        rw [Int.tdiv_eq_ediv_of_nonneg (abs_nonneg _)]
  · rw [hna]
    split
    · rename_i h
      rw [toInt_neg128_of_le (by omega), hr]
      rw [ha', hb']
      by_cases h2 : b.toInt < 0 <;> simp at h <;> simp [h, h2] <;>
        rw [Int.tmod_eq_emod_of_nonneg (abs_nonneg _), Int.emod_abs]
    · rename_i h
      rw [toInt_of_lt (by omega), hr]
      rw [ha', hb']
      by_cases h2 : b.toInt < 0 <;> simp at h <;> simp [not_lt.mpr h, h2] <;>
        rw [Int.tmod_eq_emod_of_nonneg (abs_nonneg _), Int.emod_abs]

end Sys2Proof.Laws
end

