-- ==== Sys2Proof/Laws/Encoding.lean ====
section
/-! SUPPORT. Fields and command words (spec/30_encoding.md R71): cutting a word and putting it together again are inverse. -/

namespace Sys2Proof.Laws

theorem packWord_toNat (f : Fields) :
    (packWord f).toNat =
      f.opc.toNat * 2 ^ 24 + f.rd.toNat * 2 ^ 21 + f.ra.toNat * 2 ^ 18 + f.rb.toNat * 2 ^ 15 +
        f.re.toNat * 2 ^ 12 + f.fl.toNat * 2 ^ 4 + f.z4.toNat := by
  have h1 := f.rd.isLt; have h2 := f.ra.isLt; have h3 := f.rb.isLt
  have h4 := f.re.isLt; have h5 := f.fl.isLt; have h6 := f.z4.isLt
  unfold packWord
  simp only [BitVec.toNat_append]
  rw [← Nat.shiftLeft_add_eq_or_of_lt h6, ← Nat.shiftLeft_add_eq_or_of_lt h5,
    ← Nat.shiftLeft_add_eq_or_of_lt h4, ← Nat.shiftLeft_add_eq_or_of_lt h3,
    ← Nat.shiftLeft_add_eq_or_of_lt h2, ← Nat.shiftLeft_add_eq_or_of_lt h1]
  simp only [Nat.shiftLeft_eq]
  omega

@[simp] theorem unpackWord_packWord (f : Fields) : unpackWord (packWord f) = f := by
  have h0 := f.opc.isLt; have h1 := f.rd.isLt; have h2 := f.ra.isLt; have h3 := f.rb.isLt
  have h4 := f.re.isLt; have h5 := f.fl.isLt; have h6 := f.z4.isLt
  have hp := packWord_toNat f
  cases f
  simp only [unpackWord, Fields.mk.injEq]
  refine ⟨?_, ?_, ?_, ?_, ?_, ?_, ?_⟩ <;> apply BitVec.eq_of_toNat_eq <;>
    rw [BitVec.extractLsb'_toNat, Nat.shiftRight_eq_div_pow, hp] <;> simp only at * <;> omega

@[simp] theorem packWord_unpackWord (w : CmdWord) : packWord (unpackWord w) = w := by
  have h := w.isLt
  apply BitVec.eq_of_toNat_eq
  rw [packWord_toNat]
  simp only [unpackWord, BitVec.extractLsb'_toNat, Nat.shiftRight_eq_div_pow]
  omega

@[simp] theorem regOf_regBits (r : Reg) : regOf (regBits r) = r := rfl

@[simp] theorem regBits_regOf (b : BitVec 3) : regBits (regOf b) = b := rfl

@[simp] theorem konstOf_konstBits (k : Konst) : konstOf (konstBits k) = some k := by cases k <;> rfl

@[simp] theorem widthOf_widthBits (w : NativeWidth) : widthOf (widthBits w) = w := by cases w <;> rfl

@[simp] theorem fpOf_fpBit (f : FpFormat) : fpOf (fpBit f) = f := by cases f <;> rfl

@[simp] theorem baseOf_baseBits (b : Base) : baseOf (baseBits b) = some b := by cases b <;> rfl

@[simp] theorem textWordOf_textWordBits (k : TextWord) : textWordOf (textWordBits k) = some k := by
  revert k; decide

@[simp] theorem ctrlRegOf_ctrlRegBits (n : CtrlReg) : ctrlRegOf (ctrlRegBits n) = some n := by
  cases n <;> rfl

end Sys2Proof.Laws
end

