-- ==== Sys2Proof/Laws/Decoding.lean ====
section
/-! SUPPORT. The decoder row by row (spec/30_encoding.md R73): one equation per opcode, so that no proof unfolds the opcode map, and
the fields of a command word written as R71's sum. -/

namespace Sys2Proof.Laws

open Sys2Proof.Machine

theorem decodeFields_mkhl (rd ra rb re : BitVec 3) (fl : BitVec 8) (z4 : BitVec 4) (x y : Limb) :
    decodeFields ⟨0x01#8, rd, ra, rb, re, fl, z4⟩ x y =
      needZero (zeroButRd ⟨0x01#8, rd, ra, rb, re, fl, z4⟩ fl) (.ok (.mkhl (regOf rd) x y)) := rfl

theorem decodeFields_gethi (rd ra rb re : BitVec 3) (fl : BitVec 8) (z4 : BitVec 4) (x y : Limb) :
    decodeFields ⟨0x02#8, rd, ra, rb, re, fl, z4⟩ x y =
      needZero (zeroButRa ⟨0x02#8, rd, ra, rb, re, fl, z4⟩ fl) (.ok (.gethi (regOf ra))) := rfl

theorem decodeFields_getlo (rd ra rb re : BitVec 3) (fl : BitVec 8) (z4 : BitVec 4) (x y : Limb) :
    decodeFields ⟨0x03#8, rd, ra, rb, re, fl, z4⟩ x y =
      needZero (zeroButRa ⟨0x03#8, rd, ra, rb, re, fl, z4⟩ fl) (.ok (.getlo (regOf ra))) := rfl

theorem decodeFields_ldc (rd ra rb re : BitVec 3) (fl : BitVec 8) (z4 : BitVec 4) (x y : Limb) :
    decodeFields ⟨0x04#8, rd, ra, rb, re, fl, z4⟩ x y =
      needZero (zeroButRd ⟨0x04#8, rd, ra, rb, re, fl, z4⟩ (fl.extractLsb' 2 6))
      (needNamed (konstOf (fl.extractLsb' 0 2)) fun k => .ldc (regOf rd) k) := rfl

theorem decodeFields_mov (rd ra rb re : BitVec 3) (fl : BitVec 8) (z4 : BitVec 4) (x y : Limb) :
    decodeFields ⟨0x05#8, rd, ra, rb, re, fl, z4⟩ x y =
      needZero (zeroButRdRa ⟨0x05#8, rd, ra, rb, re, fl, z4⟩) (.ok (.mov (regOf rd) (regOf ra))) := rfl

theorem decodeFields_fromint (rd ra rb re : BitVec 3) (fl : BitVec 8) (z4 : BitVec 4) (x y : Limb) :
    decodeFields ⟨0x06#8, rd, ra, rb, re, fl, z4⟩ x y =
      needZero (zeroButRd ⟨0x06#8, rd, ra, rb, re, fl, z4⟩ (fl.extractLsb' 3 5))
      (.ok (.fromint (regOf rd) (widthOf (fl.extractLsb' 0 2)) (fl.getLsbD 2) x)) := rfl

theorem decodeFields_toint (rd ra rb re : BitVec 3) (fl : BitVec 8) (z4 : BitVec 4) (x y : Limb) :
    decodeFields ⟨0x07#8, rd, ra, rb, re, fl, z4⟩ x y =
      needZero (zeroButRa ⟨0x07#8, rd, ra, rb, re, fl, z4⟩ (fl.extractLsb' 3 5))
      (.ok (.toint (regOf ra) (widthOf (fl.extractLsb' 0 2)) (fl.getLsbD 2))) := rfl

theorem decodeFields_add (rd ra rb re : BitVec 3) (fl : BitVec 8) (z4 : BitVec 4) (x y : Limb) :
    decodeFields ⟨0x10#8, rd, ra, rb, re, fl, z4⟩ x y =
      needZero (zeroButRdRaRb ⟨0x10#8, rd, ra, rb, re, fl, z4⟩) (.ok (.add (regOf rd) (regOf ra) (regOf rb))) := rfl

theorem decodeFields_sub (rd ra rb re : BitVec 3) (fl : BitVec 8) (z4 : BitVec 4) (x y : Limb) :
    decodeFields ⟨0x11#8, rd, ra, rb, re, fl, z4⟩ x y =
      needZero (zeroButRdRaRb ⟨0x11#8, rd, ra, rb, re, fl, z4⟩) (.ok (.sub (regOf rd) (regOf ra) (regOf rb))) := rfl

theorem decodeFields_mul (rd ra rb re : BitVec 3) (fl : BitVec 8) (z4 : BitVec 4) (x y : Limb) :
    decodeFields ⟨0x12#8, rd, ra, rb, re, fl, z4⟩ x y =
      needZero (zeroButRdRaRb ⟨0x12#8, rd, ra, rb, re, fl, z4⟩) (.ok (.mul (regOf rd) (regOf ra) (regOf rb))) := rfl

theorem decodeFields_neg (rd ra rb re : BitVec 3) (fl : BitVec 8) (z4 : BitVec 4) (x y : Limb) :
    decodeFields ⟨0x13#8, rd, ra, rb, re, fl, z4⟩ x y =
      needZero (zeroButRdRa ⟨0x13#8, rd, ra, rb, re, fl, z4⟩) (.ok (.neg (regOf rd) (regOf ra))) := rfl

theorem decodeFields_negs (rd ra rb re : BitVec 3) (fl : BitVec 8) (z4 : BitVec 4) (x y : Limb) :
    decodeFields ⟨0x14#8, rd, ra, rb, re, fl, z4⟩ x y =
      needZero (zeroButRdRa ⟨0x14#8, rd, ra, rb, re, fl, z4⟩) (.ok (.negs (regOf rd) (regOf ra))) := rfl

theorem decodeFields_divu (rd ra rb re : BitVec 3) (fl : BitVec 8) (z4 : BitVec 4) (x y : Limb) :
    decodeFields ⟨0x18#8, rd, ra, rb, re, fl, z4⟩ x y =
      needZero (zeroButRdRaRb ⟨0x18#8, rd, ra, rb, re, fl, z4⟩) (.ok (.divu (regOf rd) (regOf ra) (regOf rb))) := rfl

theorem decodeFields_modu (rd ra rb re : BitVec 3) (fl : BitVec 8) (z4 : BitVec 4) (x y : Limb) :
    decodeFields ⟨0x19#8, rd, ra, rb, re, fl, z4⟩ x y =
      needZero (zeroButRdRaRb ⟨0x19#8, rd, ra, rb, re, fl, z4⟩) (.ok (.modu (regOf rd) (regOf ra) (regOf rb))) := rfl

theorem decodeFields_divmodu (rd ra rb re : BitVec 3) (fl : BitVec 8) (z4 : BitVec 4) (x y : Limb) :
    decodeFields ⟨0x1A#8, rd, ra, rb, re, fl, z4⟩ x y =
      needZero (zeroButRegs ⟨0x1A#8, rd, ra, rb, re, fl, z4⟩) (needDistinct rd re (.divmodu (regOf rd) (regOf re) (regOf ra) (regOf rb))) := rfl

theorem decodeFields_divs (rd ra rb re : BitVec 3) (fl : BitVec 8) (z4 : BitVec 4) (x y : Limb) :
    decodeFields ⟨0x1C#8, rd, ra, rb, re, fl, z4⟩ x y =
      needZero (zeroButRdRaRb ⟨0x1C#8, rd, ra, rb, re, fl, z4⟩) (.ok (.divs (regOf rd) (regOf ra) (regOf rb))) := rfl

theorem decodeFields_mods (rd ra rb re : BitVec 3) (fl : BitVec 8) (z4 : BitVec 4) (x y : Limb) :
    decodeFields ⟨0x1D#8, rd, ra, rb, re, fl, z4⟩ x y =
      needZero (zeroButRdRaRb ⟨0x1D#8, rd, ra, rb, re, fl, z4⟩) (.ok (.mods (regOf rd) (regOf ra) (regOf rb))) := rfl

theorem decodeFields_divmods (rd ra rb re : BitVec 3) (fl : BitVec 8) (z4 : BitVec 4) (x y : Limb) :
    decodeFields ⟨0x1E#8, rd, ra, rb, re, fl, z4⟩ x y =
      needZero (zeroButRegs ⟨0x1E#8, rd, ra, rb, re, fl, z4⟩) (needDistinct rd re (.divmods (regOf rd) (regOf re) (regOf ra) (regOf rb))) := rfl

theorem decodeFields_shl (rd ra rb re : BitVec 3) (fl : BitVec 8) (z4 : BitVec 4) (x y : Limb) :
    decodeFields ⟨0x20#8, rd, ra, rb, re, fl, z4⟩ x y =
      needZero (zeroButRdRa ⟨0x20#8, rd, ra, rb, re, fl, z4⟩) (.ok (.shl (regOf rd) (regOf ra) x)) := rfl

theorem decodeFields_shr (rd ra rb re : BitVec 3) (fl : BitVec 8) (z4 : BitVec 4) (x y : Limb) :
    decodeFields ⟨0x21#8, rd, ra, rb, re, fl, z4⟩ x y =
      needZero (zeroButRdRa ⟨0x21#8, rd, ra, rb, re, fl, z4⟩) (.ok (.shr (regOf rd) (regOf ra) x)) := rfl

theorem decodeFields_sar (rd ra rb re : BitVec 3) (fl : BitVec 8) (z4 : BitVec 4) (x y : Limb) :
    decodeFields ⟨0x22#8, rd, ra, rb, re, fl, z4⟩ x y =
      needZero (zeroButRdRa ⟨0x22#8, rd, ra, rb, re, fl, z4⟩) (.ok (.sar (regOf rd) (regOf ra) x)) := rfl

theorem decodeFields_rol (rd ra rb re : BitVec 3) (fl : BitVec 8) (z4 : BitVec 4) (x y : Limb) :
    decodeFields ⟨0x23#8, rd, ra, rb, re, fl, z4⟩ x y =
      needZero (zeroButRdRa ⟨0x23#8, rd, ra, rb, re, fl, z4⟩) (.ok (.rol (regOf rd) (regOf ra) x)) := rfl

theorem decodeFields_ror (rd ra rb re : BitVec 3) (fl : BitVec 8) (z4 : BitVec 4) (x y : Limb) :
    decodeFields ⟨0x24#8, rd, ra, rb, re, fl, z4⟩ x y =
      needZero (zeroButRdRa ⟨0x24#8, rd, ra, rb, re, fl, z4⟩) (.ok (.ror (regOf rd) (regOf ra) x)) := rfl

theorem decodeFields_and (rd ra rb re : BitVec 3) (fl : BitVec 8) (z4 : BitVec 4) (x y : Limb) :
    decodeFields ⟨0x28#8, rd, ra, rb, re, fl, z4⟩ x y =
      needZero (zeroButRdRaRb ⟨0x28#8, rd, ra, rb, re, fl, z4⟩) (.ok (.and (regOf rd) (regOf ra) (regOf rb))) := rfl

theorem decodeFields_or (rd ra rb re : BitVec 3) (fl : BitVec 8) (z4 : BitVec 4) (x y : Limb) :
    decodeFields ⟨0x29#8, rd, ra, rb, re, fl, z4⟩ x y =
      needZero (zeroButRdRaRb ⟨0x29#8, rd, ra, rb, re, fl, z4⟩) (.ok (.or (regOf rd) (regOf ra) (regOf rb))) := rfl

theorem decodeFields_xor (rd ra rb re : BitVec 3) (fl : BitVec 8) (z4 : BitVec 4) (x y : Limb) :
    decodeFields ⟨0x2A#8, rd, ra, rb, re, fl, z4⟩ x y =
      needZero (zeroButRdRaRb ⟨0x2A#8, rd, ra, rb, re, fl, z4⟩) (.ok (.xor (regOf rd) (regOf ra) (regOf rb))) := rfl

theorem decodeFields_not (rd ra rb re : BitVec 3) (fl : BitVec 8) (z4 : BitVec 4) (x y : Limb) :
    decodeFields ⟨0x2B#8, rd, ra, rb, re, fl, z4⟩ x y =
      needZero (zeroButRdRa ⟨0x2B#8, rd, ra, rb, re, fl, z4⟩) (.ok (.not (regOf rd) (regOf ra))) := rfl

theorem decodeFields_eq (rd ra rb re : BitVec 3) (fl : BitVec 8) (z4 : BitVec 4) (x y : Limb) :
    decodeFields ⟨0x30#8, rd, ra, rb, re, fl, z4⟩ x y =
      needZero (zeroButRaRb ⟨0x30#8, rd, ra, rb, re, fl, z4⟩) (.ok (.eq (regOf ra) (regOf rb))) := rfl

theorem decodeFields_ne (rd ra rb re : BitVec 3) (fl : BitVec 8) (z4 : BitVec 4) (x y : Limb) :
    decodeFields ⟨0x31#8, rd, ra, rb, re, fl, z4⟩ x y =
      needZero (zeroButRaRb ⟨0x31#8, rd, ra, rb, re, fl, z4⟩) (.ok (.ne (regOf ra) (regOf rb))) := rfl

theorem decodeFields_ltu (rd ra rb re : BitVec 3) (fl : BitVec 8) (z4 : BitVec 4) (x y : Limb) :
    decodeFields ⟨0x32#8, rd, ra, rb, re, fl, z4⟩ x y =
      needZero (zeroButRaRb ⟨0x32#8, rd, ra, rb, re, fl, z4⟩) (.ok (.ltu (regOf ra) (regOf rb))) := rfl

theorem decodeFields_leu (rd ra rb re : BitVec 3) (fl : BitVec 8) (z4 : BitVec 4) (x y : Limb) :
    decodeFields ⟨0x33#8, rd, ra, rb, re, fl, z4⟩ x y =
      needZero (zeroButRaRb ⟨0x33#8, rd, ra, rb, re, fl, z4⟩) (.ok (.leu (regOf ra) (regOf rb))) := rfl

theorem decodeFields_gtu (rd ra rb re : BitVec 3) (fl : BitVec 8) (z4 : BitVec 4) (x y : Limb) :
    decodeFields ⟨0x34#8, rd, ra, rb, re, fl, z4⟩ x y =
      needZero (zeroButRaRb ⟨0x34#8, rd, ra, rb, re, fl, z4⟩) (.ok (.gtu (regOf ra) (regOf rb))) := rfl

theorem decodeFields_geu (rd ra rb re : BitVec 3) (fl : BitVec 8) (z4 : BitVec 4) (x y : Limb) :
    decodeFields ⟨0x35#8, rd, ra, rb, re, fl, z4⟩ x y =
      needZero (zeroButRaRb ⟨0x35#8, rd, ra, rb, re, fl, z4⟩) (.ok (.geu (regOf ra) (regOf rb))) := rfl

theorem decodeFields_lts (rd ra rb re : BitVec 3) (fl : BitVec 8) (z4 : BitVec 4) (x y : Limb) :
    decodeFields ⟨0x36#8, rd, ra, rb, re, fl, z4⟩ x y =
      needZero (zeroButRaRb ⟨0x36#8, rd, ra, rb, re, fl, z4⟩) (.ok (.lts (regOf ra) (regOf rb))) := rfl

theorem decodeFields_les (rd ra rb re : BitVec 3) (fl : BitVec 8) (z4 : BitVec 4) (x y : Limb) :
    decodeFields ⟨0x37#8, rd, ra, rb, re, fl, z4⟩ x y =
      needZero (zeroButRaRb ⟨0x37#8, rd, ra, rb, re, fl, z4⟩) (.ok (.les (regOf ra) (regOf rb))) := rfl

theorem decodeFields_gts (rd ra rb re : BitVec 3) (fl : BitVec 8) (z4 : BitVec 4) (x y : Limb) :
    decodeFields ⟨0x38#8, rd, ra, rb, re, fl, z4⟩ x y =
      needZero (zeroButRaRb ⟨0x38#8, rd, ra, rb, re, fl, z4⟩) (.ok (.gts (regOf ra) (regOf rb))) := rfl

theorem decodeFields_ges (rd ra rb re : BitVec 3) (fl : BitVec 8) (z4 : BitVec 4) (x y : Limb) :
    decodeFields ⟨0x39#8, rd, ra, rb, re, fl, z4⟩ x y =
      needZero (zeroButRaRb ⟨0x39#8, rd, ra, rb, re, fl, z4⟩) (.ok (.ges (regOf ra) (regOf rb))) := rfl

theorem decodeFields_fromfu (rd ra rb re : BitVec 3) (fl : BitVec 8) (z4 : BitVec 4) (x y : Limb) :
    decodeFields ⟨0x40#8, rd, ra, rb, re, fl, z4⟩ x y =
      needZero (zeroButRd ⟨0x40#8, rd, ra, rb, re, fl, z4⟩ (fl.extractLsb' 1 7)) (.ok (.fromfu (regOf rd) (fpOf (fl.getLsbD 0)) x)) := rfl

theorem decodeFields_fromfs (rd ra rb re : BitVec 3) (fl : BitVec 8) (z4 : BitVec 4) (x y : Limb) :
    decodeFields ⟨0x41#8, rd, ra, rb, re, fl, z4⟩ x y =
      needZero (zeroButRd ⟨0x41#8, rd, ra, rb, re, fl, z4⟩ (fl.extractLsb' 1 7)) (.ok (.fromfs (regOf rd) (fpOf (fl.getLsbD 0)) x)) := rfl

theorem decodeFields_tofu (rd ra rb re : BitVec 3) (fl : BitVec 8) (z4 : BitVec 4) (x y : Limb) :
    decodeFields ⟨0x42#8, rd, ra, rb, re, fl, z4⟩ x y =
      needZero (zeroButRa ⟨0x42#8, rd, ra, rb, re, fl, z4⟩ (fl.extractLsb' 1 7)) (.ok (.tofu (regOf ra) (fpOf (fl.getLsbD 0)))) := rfl

theorem decodeFields_tofs (rd ra rb re : BitVec 3) (fl : BitVec 8) (z4 : BitVec 4) (x y : Limb) :
    decodeFields ⟨0x43#8, rd, ra, rb, re, fl, z4⟩ x y =
      needZero (zeroButRa ⟨0x43#8, rd, ra, rb, re, fl, z4⟩ (fl.extractLsb' 1 7)) (.ok (.tofs (regOf ra) (fpOf (fl.getLsbD 0)))) := rfl

theorem decodeFields_fmt (rd ra rb re : BitVec 3) (fl : BitVec 8) (z4 : BitVec 4) (x y : Limb) :
    decodeFields ⟨0x50#8, rd, ra, rb, re, fl, z4⟩ x y =
      needZero (zeroButRa ⟨0x50#8, rd, ra, rb, re, fl, z4⟩ (fl.extractLsb' 6 2))
      (needNamed (baseOf (fl.extractLsb' 0 2)) fun b =>
        .fmt (regOf ra) b (fl.getLsbD 2) (fl.getLsbD 3) (fl.getLsbD 4) (fl.getLsbD 5)) := rfl

theorem decodeFields_rdtxt (rd ra rb re : BitVec 3) (fl : BitVec 8) (z4 : BitVec 4) (x y : Limb) :
    decodeFields ⟨0x51#8, rd, ra, rb, re, fl, z4⟩ x y =
      needZero (zeroButFl ⟨0x51#8, rd, ra, rb, re, fl, z4⟩ (fl.extractLsb' 3 5))
      (needNamed (textWordOf (fl.extractLsb' 0 3)) fun k => .rdtxt k) := rfl

theorem decodeFields_rdcr (rd ra rb re : BitVec 3) (fl : BitVec 8) (z4 : BitVec 4) (x y : Limb) :
    decodeFields ⟨0x60#8, rd, ra, rb, re, fl, z4⟩ x y =
      needZero (zeroButFl ⟨0x60#8, rd, ra, rb, re, fl, z4⟩ (fl.extractLsb' 2 6))
      (needNamed (ctrlRegOf (fl.extractLsb' 0 2)) fun n => .rdcr n) := rfl

/-- The fields of a word written as R71's sum, each in its range. -/
theorem unpackWord_word {opc rd ra rb re fl : Nat} (h1 : rd < 8) (h2 : ra < 8) (h3 : rb < 8) (h4 : re < 8)
    (h5 : fl < 256) :
    unpackWord (Spec.word opc rd ra rb re fl) =
      ⟨BitVec.ofNat 8 opc, BitVec.ofNat 3 rd, BitVec.ofNat 3 ra, BitVec.ofNat 3 rb, BitVec.ofNat 3 re, BitVec.ofNat 8 fl, 0#4⟩ := by
  have e : Spec.word opc rd ra rb re fl =
      packWord ⟨BitVec.ofNat 8 opc, BitVec.ofNat 3 rd, BitVec.ofNat 3 ra, BitVec.ofNat 3 rb, BitVec.ofNat 3 re,
        BitVec.ofNat 8 fl, 0#4⟩ := by
    apply BitVec.eq_of_toNat_eq
    rw [packWord_toNat, Spec.word]
    simp only [BitVec.toNat_ofNat]
    omega
  rw [e, unpackWord_packWord]

/-- A packet whose command word is written as R71's sum decodes by its fields. -/
theorem decode_word {opc rd ra rb re fl : Nat} (h1 : rd < 8) (h2 : ra < 8) (h3 : rb < 8) (h4 : re < 8)
    (h5 : fl < 256) (x y : Limb) :
    decode ⟨Spec.word opc rd ra rb re fl, x, y⟩ =
      decodeFields ⟨BitVec.ofNat 8 opc, BitVec.ofNat 3 rd, BitVec.ofNat 3 ra, BitVec.ofNat 3 rb, BitVec.ofNat 3 re,
        BitVec.ofNat 8 fl, 0#4⟩ x y := by
  rw [decode, unpackWord_word h1 h2 h3 h4 h5]

/-- A packed word, as R71's sum. -/
theorem packWord_eq_word (f : Fields) (h : f.z4 = 0) :
    packWord f = Spec.word f.opc.toNat f.rd.toNat f.ra.toNat f.rb.toNat f.re.toNat f.fl.toNat := by
  have := (packWord f).isLt
  apply BitVec.eq_of_toNat_eq
  rw [packWord_toNat] at this ⊢
  rw [Spec.word, BitVec.toNat_ofNat, h] at *
  simp at this ⊢
  omega

/-- The register field of a register number. -/
@[simp] theorem regOf_ofFin (r : Reg) : regOf (BitVec.ofFin r) = r := rfl

end Sys2Proof.Laws
end

