-- ==== Sys2Proof/Laws/Exec.lean ====
section
/-! SUPPORT. `exec` on each instruction is its meaning: one equation per constructor, so that no proof unfolds the dispatch. -/

namespace Sys2Proof.Laws

open Sys2Proof.Machine

theorem exec_mkhl (rd : Reg) (x y : Limb) (s : State) :
    exec (.mkhl rd x y) s = execMkhl rd x y s := rfl

theorem exec_gethi (ra : Reg) (s : State) :
    exec (.gethi ra) s = execGethi ra s := rfl

theorem exec_getlo (ra : Reg) (s : State) :
    exec (.getlo ra) s = execGetlo ra s := rfl

theorem exec_ldc (rd : Reg) (k : Konst) (s : State) :
    exec (.ldc rd k) s = execLdc rd k s := rfl

theorem exec_mov (rd ra : Reg) (s : State) :
    exec (.mov rd ra) s = execMov rd ra s := rfl

theorem exec_fromint (rd : Reg) (wd : NativeWidth) (sg : Bool) (x : Limb) (s : State) :
    exec (.fromint rd wd sg x) s = execFromint rd wd sg x s := rfl

theorem exec_toint (ra : Reg) (wd : NativeWidth) (sg : Bool) (s : State) :
    exec (.toint ra wd sg) s = execToint ra wd sg s := rfl

theorem exec_add (rd ra rb : Reg) (s : State) :
    exec (.add rd ra rb) s = execAdd rd ra rb s := rfl

theorem exec_sub (rd ra rb : Reg) (s : State) :
    exec (.sub rd ra rb) s = execSub rd ra rb s := rfl

theorem exec_mul (rd ra rb : Reg) (s : State) :
    exec (.mul rd ra rb) s = execMul rd ra rb s := rfl

theorem exec_neg (rd ra : Reg) (s : State) :
    exec (.neg rd ra) s = execNeg rd ra s := rfl

theorem exec_negs (rd ra : Reg) (s : State) :
    exec (.negs rd ra) s = execNegs rd ra s := rfl

theorem exec_divu (rd ra rb : Reg) (s : State) :
    exec (.divu rd ra rb) s = execDivu rd ra rb s := rfl

theorem exec_modu (rd ra rb : Reg) (s : State) :
    exec (.modu rd ra rb) s = execModu rd ra rb s := rfl

theorem exec_divmodu (rd re ra rb : Reg) (s : State) :
    exec (.divmodu rd re ra rb) s = execDivmodu rd re ra rb s := rfl

theorem exec_divs (rd ra rb : Reg) (s : State) :
    exec (.divs rd ra rb) s = execDivs rd ra rb s := rfl

theorem exec_mods (rd ra rb : Reg) (s : State) :
    exec (.mods rd ra rb) s = execMods rd ra rb s := rfl

theorem exec_divmods (rd re ra rb : Reg) (s : State) :
    exec (.divmods rd re ra rb) s = execDivmods rd re ra rb s := rfl

theorem exec_shl (rd ra : Reg) (x : Limb) (s : State) :
    exec (.shl rd ra x) s = execShl rd ra x s := rfl

theorem exec_shr (rd ra : Reg) (x : Limb) (s : State) :
    exec (.shr rd ra x) s = execShr rd ra x s := rfl

theorem exec_sar (rd ra : Reg) (x : Limb) (s : State) :
    exec (.sar rd ra x) s = execSar rd ra x s := rfl

theorem exec_rol (rd ra : Reg) (x : Limb) (s : State) :
    exec (.rol rd ra x) s = execRol rd ra x s := rfl

theorem exec_ror (rd ra : Reg) (x : Limb) (s : State) :
    exec (.ror rd ra x) s = execRor rd ra x s := rfl

theorem exec_and (rd ra rb : Reg) (s : State) :
    exec (.and rd ra rb) s = execAnd rd ra rb s := rfl

theorem exec_or (rd ra rb : Reg) (s : State) :
    exec (.or rd ra rb) s = execOr rd ra rb s := rfl

theorem exec_xor (rd ra rb : Reg) (s : State) :
    exec (.xor rd ra rb) s = execXor rd ra rb s := rfl

theorem exec_not (rd ra : Reg) (s : State) :
    exec (.not rd ra) s = execNot rd ra s := rfl

theorem exec_eq (ra rb : Reg) (s : State) :
    exec (.eq ra rb) s = execEq ra rb s := rfl

theorem exec_ne (ra rb : Reg) (s : State) :
    exec (.ne ra rb) s = execNe ra rb s := rfl

theorem exec_ltu (ra rb : Reg) (s : State) :
    exec (.ltu ra rb) s = execLtu ra rb s := rfl

theorem exec_leu (ra rb : Reg) (s : State) :
    exec (.leu ra rb) s = execLeu ra rb s := rfl

theorem exec_gtu (ra rb : Reg) (s : State) :
    exec (.gtu ra rb) s = execGtu ra rb s := rfl

theorem exec_geu (ra rb : Reg) (s : State) :
    exec (.geu ra rb) s = execGeu ra rb s := rfl

theorem exec_lts (ra rb : Reg) (s : State) :
    exec (.lts ra rb) s = execLts ra rb s := rfl

theorem exec_les (ra rb : Reg) (s : State) :
    exec (.les ra rb) s = execLes ra rb s := rfl

theorem exec_gts (ra rb : Reg) (s : State) :
    exec (.gts ra rb) s = execGts ra rb s := rfl

theorem exec_ges (ra rb : Reg) (s : State) :
    exec (.ges ra rb) s = execGes ra rb s := rfl

theorem exec_fromfu (rd : Reg) (fp : FpFormat) (x : Limb) (s : State) :
    exec (.fromfu rd fp x) s = execFromfu rd fp x s := rfl

theorem exec_fromfs (rd : Reg) (fp : FpFormat) (x : Limb) (s : State) :
    exec (.fromfs rd fp x) s = execFromfs rd fp x s := rfl

theorem exec_tofu (ra : Reg) (fp : FpFormat) (s : State) :
    exec (.tofu ra fp) s = execTofu ra fp s := rfl

theorem exec_tofs (ra : Reg) (fp : FpFormat) (s : State) :
    exec (.tofs ra fp) s = execTofs ra fp s := rfl

theorem exec_fmt (ra : Reg) (base : Base) (sg uc sb sp : Bool) (s : State) :
    exec (.fmt ra base sg uc sb sp) s = execFmt ra base sg uc sb sp s := rfl

theorem exec_rdtxt (k : TextWord) (s : State) :
    exec (.rdtxt k) s = execRdtxt k s := rfl

theorem exec_rdcr (n : CtrlReg) (s : State) :
    exec (.rdcr n) s = execRdcr n s := rfl

end Sys2Proof.Laws
end

