-- ==== Sys2Proof/Laws/Floats.lean ====
section
/-! SUPPORT. The float bridge (spec/47_float.md): the numbers the model computes with are the numbers of the patterns (R260), and
rounding is roundTiesToEven (R265). -/

namespace Sys2Proof.Laws

open Sys2Proof.Machine

theorem expBias_eq (fp : FpFormat) : Spec.expBias fp = bias fp := by cases fp <;> rfl

theorem fracWidth_eq (fp : FpFormat) : Spec.fracWidth fp = fracBits fp := by cases fp <;> rfl

theorem expMax_eq (fp : FpFormat) : Spec.expMax fp = expOnes fp := by cases fp <;> rfl

/-! ## Fields of a pattern -/

theorem fraction_eq (fp : FpFormat) (x : Limb) : fraction fp x = Spec.fracField fp x := by
  cases fp <;> simp [fraction, Spec.fracField, Spec.fracWidth]

theorem exponent_eq (fp : FpFormat) (x : Limb) : exponent fp x = Spec.expField fp x := by
  cases fp <;> simp [exponent, Spec.expField, Spec.fracWidth, Spec.expWidth, Nat.shiftRight_eq_div_pow]

theorem signPlace_iff (fp : FpFormat) (x : Limb) : x.getLsbD (signPlace fp) = decide (Spec.signField fp x = 1) := by
  cases fp <;> simp [signPlace, Spec.signField, Spec.fracWidth, Spec.expWidth, BitVec.getLsbD, Nat.testBit_eq_decide_div_mod_eq] <;> congr

/-! ## Numbers -/

/-- The number a finite `FpNum` stands for. -/
def numVal : FpNum → ℚ
  | .inf _ => 0
  | .fin neg m e => (if neg then -1 else 1) * ((m : ℚ) * 2 ^ e)

theorem unpackFp_nan {fp : FpFormat} {x : Limb} (h : Spec.IsNan fp x) : unpackFp fp x = none := by
  rw [unpackFp, exponent_eq, fraction_eq, ← expMax_eq]
  rw [if_pos h.1, if_neg h.2]

theorem unpackFp_inf {fp : FpFormat} {x : Limb} (h : Spec.IsInf fp x) :
    unpackFp fp x = some (.inf (decide (Spec.signField fp x = 1))) := by
  rw [unpackFp, exponent_eq, fraction_eq, ← expMax_eq, signPlace_iff]
  rw [if_pos h.1, if_pos h.2]

/-- R260: a finite pattern unpacks to its sign and a magnitude, and together they are its number. -/
theorem unpackFp_finite {fp : FpFormat} {x : Limb} (h : Spec.IsFinite fp x) :
    ∃ m e, unpackFp fp x = some (.fin (decide (Spec.signField fp x = 1)) m e) ∧
      numVal (.fin (decide (Spec.signField fp x = 1)) m e) = Spec.val fp x := by
  rw [unpackFp, exponent_eq, fraction_eq, ← expMax_eq, signPlace_iff]
  rw [if_neg h]
  by_cases h0 : Spec.expField fp x = 0
  · rw [if_pos h0]
    refine ⟨_, _, rfl, ?_⟩
    rw [numVal, Spec.val, if_pos h0, expBias_eq, fracWidth_eq]
    simp
  · rw [if_neg h0]
    refine ⟨_, _, rfl, ?_⟩
    rw [numVal, Spec.val, if_neg h0, expBias_eq, fracWidth_eq]
    simp

/-- `scaleFloor` is the floor of the scaled number. -/
theorem scaleFloor_eq (m : Nat) (e : Int) : (scaleFloor m e : ℤ) = ⌊(m : ℚ) * 2 ^ e⌋ := by
  unfold scaleFloor
  split
  · rename_i h
    obtain ⟨k, rfl⟩ := Int.eq_ofNat_of_zero_le h
    have : ((m : ℚ) * 2 ^ (k : ℤ)) = ((m * 2 ^ k : ℕ) : ℤ) := by push_cast; norm_cast
    rw [this, Int.floor_intCast]; simp
  · rename_i h
    obtain ⟨k, hk⟩ : ∃ k : ℕ, e = -(k : ℤ) := ⟨(-e).toNat, by omega⟩
    subst hk
    have := Rat.floor_intCast_div_natCast m (2 ^ k)
    rw [zpow_neg, zpow_natCast, ← div_eq_mul_inv]
    push_cast at this
    rw [neg_neg, Int.toNat_natCast]
    push_cast
    exact this.symm

theorem log2_bounds {n : Nat} (h : n ≠ 0) : 2 ^ Nat.log2 n ≤ n ∧ n < 2 ^ (Nat.log2 n + 1) :=
  ⟨Nat.log2_self_le h, Nat.lt_log2_self⟩

/-! ## Patterns without a sign bit -/

theorem two_bias_lt (fp : FpFormat) : 2 * bias fp < expOnes fp := by cases fp <;> decide

/-- The number of a pattern given by its fields. -/
theorem val_of_toNat {fp : FpFormat} {x : Limb} {e f : Nat} (hx : x.toNat = e * 2 ^ fracBits fp + f) (hf : f < 2 ^ fracBits fp)
    (he : e < expOnes fp) :
    Spec.Magnitude fp x ∧
      Spec.val fp x = if e = 0 then (f : ℚ) * 2 ^ (1 - (bias fp : ℤ) - fracBits fp)
        else ((2 ^ fracBits fp + f : ℕ) : ℚ) * 2 ^ ((e : ℤ) - bias fp - fracBits fp) := by
  have hp : 0 < 2 ^ fracBits fp := by positivity
  have h1 : x.toNat / 2 ^ fracBits fp = e := by
    rw [hx, Nat.mul_comm, Nat.mul_add_div hp, Nat.div_eq_of_lt hf, Nat.add_zero]
  have h2 : x.toNat % 2 ^ fracBits fp = f := by
    rw [hx, Nat.mul_comm, Nat.mul_add_mod, Nat.mod_eq_of_lt hf]
  have ho : expOnes fp < 2 ^ Spec.expWidth fp := by cases fp <;> decide
  have h3 : Spec.signField fp x = 0 := by
    rw [Spec.signField, Nat.pow_add, ← Nat.div_div_eq_div_mul, fracWidth_eq, h1, Nat.div_eq_of_lt (by omega)]
  constructor
  · rw [Spec.Magnitude, expMax_eq, fracWidth_eq, hx]
    calc e * 2 ^ fracBits fp + f < (e + 1) * 2 ^ fracBits fp := by rw [Nat.add_mul]; omega
      _ ≤ _ := Nat.mul_le_mul_right _ he
  · rw [Spec.val, h3, Spec.expField, Spec.fracField, expBias_eq, fracWidth_eq, h1, h2, Nat.mod_eq_of_lt (by omega)]
    simp

/-- Every such pattern is given by its fields. -/
theorem magnitude_fields {fp : FpFormat} {x : Limb} (h : Spec.Magnitude fp x) :
    ∃ e f, x.toNat = e * 2 ^ fracBits fp + f ∧ f < 2 ^ fracBits fp ∧ e < expOnes fp := by
  rw [Spec.Magnitude, expMax_eq, fracWidth_eq] at h
  refine ⟨x.toNat / 2 ^ fracBits fp, x.toNat % 2 ^ fracBits fp, (Nat.div_add_mod' _ _).symm, Nat.mod_lt _ (by positivity), ?_⟩
  exact Nat.div_lt_of_lt_mul (by rwa [Nat.mul_comm])

theorem zpow_split (a b : ℤ) : (2 : ℚ) ^ (a + b) = 2 ^ a * 2 ^ b := zpow_add₀ (by norm_num) a b

theorem zpow_mono {a b : ℤ} (h : a ≤ b) : (2 : ℚ) ^ a ≤ 2 ^ b := zpow_le_zpow_right₀ (by norm_num) h

/-- A magnitude as `k * 2^j` with `k` of at most `p` bits. -/
theorem magnitude_val {fp : FpFormat} {x : Limb} (h : Spec.Magnitude fp x) :
    ∃ (k : ℕ) (j : ℤ), Spec.val fp x = k * 2 ^ j ∧ k < 2 ^ (fracBits fp + 1) := by
  obtain ⟨e, f, hx, hf, he⟩ := magnitude_fields h
  have := (val_of_toNat hx hf he).2
  split at this
  · exact ⟨f, _, this, by rw [pow_succ]; omega⟩
  · exact ⟨_, _, this, by rw [pow_succ]; omega⟩

/-- Patterns are ordered as their numbers. -/
theorem val_lt_of_lt {fp : FpFormat} {x y : Limb} (hx : Spec.Magnitude fp x) (hy : Spec.Magnitude fp y) (h : x.toNat < y.toNat) :
    Spec.val fp x < Spec.val fp y := by
  obtain ⟨e, f, h1, h2, h3⟩ := magnitude_fields hx
  obtain ⟨e', f', h1', h2', h3'⟩ := magnitude_fields hy
  rw [(val_of_toNat h1 h2 h3).2, (val_of_toNat h1' h2' h3').2]
  have hlt : e < e' ∨ (e = e' ∧ f < f') := by
    rw [h1, h1'] at h
    rcases Nat.lt_trichotomy e e' with c | c | c
    · exact .inl c
    · subst c; exact .inr ⟨rfl, by omega⟩
    · have : (e' + 1) * 2 ^ fracBits fp ≤ e * 2 ^ fracBits fp := Nat.mul_le_mul_right _ c
      rw [Nat.add_mul] at this; omega
  have pos (z : ℤ) : (0 : ℚ) < 2 ^ z := by positivity
  have hfm : (f : ℚ) < 2 ^ fracBits fp := by exact_mod_cast h2
  have c0 : (0 : ℚ) ≤ f' := by positivity
  rcases hlt with c | ⟨rfl, c⟩
  · rw [if_neg (by omega : ¬ e' = 0)]
    push_cast
    by_cases h0 : e = 0
    · rw [if_pos h0]
      calc (f : ℚ) * 2 ^ (1 - (bias fp : ℤ) - fracBits fp) < 2 ^ fracBits fp * 2 ^ (1 - (bias fp : ℤ) - fracBits fp) :=
            mul_lt_mul_of_pos_right hfm (pos _)
        _ ≤ (2 ^ fracBits fp + f') * 2 ^ ((e' : ℤ) - bias fp - fracBits fp) :=
            mul_le_mul (by linarith) (zpow_mono (by omega)) (pos _).le (by positivity)
    · rw [if_neg h0]
      have e1 : (2 : ℚ) ^ ((e : ℤ) + 1 - bias fp - fracBits fp) = 2 * 2 ^ ((e : ℤ) - bias fp - fracBits fp) := by
        rw [show (e : ℤ) + 1 - bias fp - fracBits fp = 1 + ((e : ℤ) - bias fp - fracBits fp) by ring, zpow_split]; norm_num
      calc (2 ^ fracBits fp + f : ℚ) * 2 ^ ((e : ℤ) - bias fp - fracBits fp)
            < (2 ^ fracBits fp * 2) * 2 ^ ((e : ℤ) - bias fp - fracBits fp) :=
            mul_lt_mul_of_pos_right (by linarith) (pos _)
        _ = 2 ^ fracBits fp * 2 ^ ((e : ℤ) + 1 - bias fp - fracBits fp) := by rw [e1]; ring
        _ ≤ (2 ^ fracBits fp + f') * 2 ^ ((e' : ℤ) - bias fp - fracBits fp) :=
            mul_le_mul (by linarith) (zpow_mono (by omega)) (pos _).le (by positivity)
  · have c' : (f : ℚ) < f' := by exact_mod_cast c
    by_cases h0 : e = 0
    · rw [if_pos h0, if_pos h0]
      exact mul_lt_mul_of_pos_right c' (pos _)
    · rw [if_neg h0, if_neg h0]
      push_cast
      exact mul_lt_mul_of_pos_right (by linarith) (pos _)

theorem val_ne_of_ne {fp : FpFormat} {x y : Limb} (hx : Spec.Magnitude fp x) (hy : Spec.Magnitude fp y) (h : x ≠ y) :
    Spec.val fp x ≠ Spec.val fp y := by
  have : x.toNat ≠ y.toNat := fun e => h (BitVec.eq_of_toNat_eq e)
  rcases Nat.lt_or_gt_of_ne this with c | c
  · exact (val_lt_of_lt hx hy c).ne
  · exact (val_lt_of_lt hy hx c).ne'

/-! ## Packing -/

theorem assembleFp_toNat (fp : FpFormat) {e f : Nat} (he : e < 2 ^ Spec.expWidth fp) (hf : f < 2 ^ fracBits fp) :
    (assembleFp fp false e f).toNat = e * 2 ^ fracBits fp + f := by
  cases fp
  · simp only [assembleFp, bit, fracBits, Spec.expWidth] at *
    rw [BitVec.toNat_append, ← Nat.shiftLeft_add_eq_or_of_lt (BitVec.isLt _), BitVec.toNat_append, ← Nat.shiftLeft_add_eq_or_of_lt (BitVec.isLt _)]
    simp [Nat.shiftLeft_eq]; omega
  · simp only [assembleFp, bit, fracBits, Spec.expWidth] at *
    rw [BitVec.toNat_append, ← Nat.shiftLeft_add_eq_or_of_lt (BitVec.isLt _), BitVec.toNat_append, ← Nat.shiftLeft_add_eq_or_of_lt (BitVec.isLt _)]
    simp [Nat.shiftLeft_eq]; omega

/-- R260: a number the format holds packs into the pattern that stands for it; a full significand gives the last bit. -/
theorem packFp_val (fp : FpFormat) {m : Nat} {e : ℤ} (he : 0 ≤ e) (hm : m ≤ 2 ^ (fracBits fp + 1))
    (ht : m ≠ 0 → e + Nat.log2 m ≤ bias fp) :
    Spec.Magnitude fp (packFp fp (.fin false m e)) ∧ Spec.val fp (packFp fp (.fin false m e)) = m * 2 ^ e ∧
      (2 ^ fracBits fp ≤ m → (packFp fp (.fin false m e)).toNat % 2 = m % 2) := by
  have hew : expOnes fp < 2 ^ Spec.expWidth fp := by cases fp <;> decide
  have hb : 0 < bias fp := by cases fp <;> decide
  have hfb : 0 < fracBits fp := by cases fp <;> decide
  have hpp : 0 < 2 ^ fracBits fp := by positivity
  by_cases h0 : m = 0
  · subst h0
    rw [packFp]; simp only [if_true]
    have := assembleFp_toNat fp (e := 0) (f := 0) (by omega) hpp
    have v := val_of_toNat (fp := fp) (e := 0) (f := 0) this hpp (by have := two_bias_lt fp; omega)
    refine ⟨v.1, ?_, fun h => ?_⟩
    · rw [v.2]; simp
    · omega
  · have ht := ht h0
    obtain ⟨l1, l2⟩ := log2_bounds h0
    have hL : Nat.log2 m ≤ fracBits fp + 1 := by
      by_contra hc
      have : 2 ^ (fracBits fp + 2) ≤ 2 ^ Nat.log2 m := Nat.pow_le_pow_right (by norm_num) (by omega)
      rw [pow_succ] at this
      have : 0 < 2 ^ (fracBits fp + 1) := by positivity
      omega
    -- the significand moved to full width
    obtain ⟨F, hF1, hF2, hF3, hF4⟩ : ∃ F, scaleFloor m ((fracBits fp : ℤ) - Nat.log2 m) = 2 ^ fracBits fp + F ∧ F < 2 ^ fracBits fp ∧
        ((2 ^ fracBits fp + F : ℕ) : ℚ) = m * 2 ^ ((fracBits fp : ℤ) - Nat.log2 m) ∧ (2 ^ fracBits fp ≤ m → F % 2 = m % 2) := by
      have heven : 2 ^ fracBits fp % 2 = 0 := by
        obtain ⟨k, hk⟩ := Nat.exists_eq_succ_of_ne_zero hfb.ne'
        rw [hk, pow_succ]; omega
      rcases Nat.lt_or_ge (fracBits fp) (Nat.log2 m) with c | c
      · have hL' : Nat.log2 m = fracBits fp + 1 := by omega
        rw [hL'] at l1 l2
        have hm' : m = 2 ^ fracBits fp * 2 := by rw [← pow_succ]; omega
        refine ⟨0, ?_, hpp, ?_, ?_⟩
        · rw [hL', scaleFloor, if_neg (by push_cast; omega), hm']
          simp
        · rw [hL', hm']; push_cast
          rw [show (fracBits fp : ℤ) - (fracBits fp + 1) = -1 by ring, zpow_neg_one]; ring
        · intro _; rw [hm']; omega
      · have e1 : (fracBits fp : ℤ) - Nat.log2 m = ((fracBits fp - Nat.log2 m : ℕ) : ℤ) := by omega
        have b1 : 2 ^ fracBits fp ≤ m * 2 ^ (fracBits fp - Nat.log2 m) := by
          calc 2 ^ fracBits fp = 2 ^ Nat.log2 m * 2 ^ (fracBits fp - Nat.log2 m) := by rw [← pow_add]; congr 1; omega
            _ ≤ _ := Nat.mul_le_mul_right _ l1
        have b2 : m * 2 ^ (fracBits fp - Nat.log2 m) < 2 ^ fracBits fp * 2 := by
          calc _ < 2 ^ (Nat.log2 m + 1) * 2 ^ (fracBits fp - Nat.log2 m) := Nat.mul_lt_mul_of_pos_right l2 (by positivity)
            _ = _ := by rw [← pow_add, ← pow_succ]; congr 1; omega
        refine ⟨m * 2 ^ (fracBits fp - Nat.log2 m) - 2 ^ fracBits fp, ?_, by omega, ?_, ?_⟩
        · rw [e1, scaleFloor, if_pos (by omega)]; simp only [Int.toNat_natCast]; omega
        · rw [e1, Nat.add_sub_cancel' b1]; push_cast; norm_cast
        · intro h
          have : Nat.log2 m = fracBits fp := by
            have : ¬ Nat.log2 m < fracBits fp := fun hc => by
              have : 2 ^ (Nat.log2 m + 1) ≤ 2 ^ fracBits fp := Nat.pow_le_pow_right (by norm_num) hc
              omega
            omega
          rw [this]; simp; omega
    have hE : ((e + Nat.log2 m + bias fp).toNat : ℤ) = e + Nat.log2 m + bias fp := by omega
    have hE2 : (e + Nat.log2 m + bias fp).toNat < expOnes fp := by have := two_bias_lt fp; omega
    have hpk : packFp fp (.fin false m e) = assembleFp fp false (e + Nat.log2 m + bias fp).toNat F := by
      rw [packFp]
      rw [if_neg h0, if_neg (by omega), hF1, Nat.add_sub_cancel_left]
    rw [hpk]
    have ha := assembleFp_toNat fp (e := (e + Nat.log2 m + bias fp).toNat) (f := F) (by omega) hF2
    have v := val_of_toNat ha hF2 hE2
    refine ⟨v.1, ?_, ?_⟩
    · rw [v.2, if_neg (by omega), hF3, hE, mul_assoc, ← zpow_split]
      congr 2; ring
    · intro h
      rw [ha, ← hF4 h]
      obtain ⟨k, hk⟩ := Nat.exists_eq_succ_of_ne_zero hfb.ne'
      rw [hk, pow_succ, ← Nat.mul_assoc]; omega
/-! ## Rounding -/

/-- roundTiesToEven between integers: no other integer is nearer, and the last bit is 0 where another is as near. -/
theorem tiesToEven_nearest {a d unit T : Nat} (hd : d < unit) {m : Nat}
    (hm : m = a + if roundsUp .tiesToEven false a d unit then 1 else 0) (hT : T ≠ m) :
    |(m : ℚ) - (a + d / unit)| < |(T : ℚ) - (a + d / unit)| ∨
      (|(m : ℚ) - (a + d / unit)| = |(T : ℚ) - (a + d / unit)| ∧ m % 2 = 0) := by
  have hU : (0 : ℚ) < unit := by exact_mod_cast (by omega : 0 < unit)
  have hD0 : (0 : ℚ) ≤ d / unit := by positivity
  have hD1 : (d : ℚ) / unit < 1 := by rw [div_lt_one hU]; exact_mod_cast hd
  have hhalf : (unit < 2 * d ↔ (1 : ℚ) / 2 < d / unit) ∧ (2 * d = unit ↔ (d : ℚ) / unit = 1 / 2) := by
    constructor
    · rw [lt_div_iff₀ hU]
      constructor
      · intro h; have : (unit : ℚ) < 2 * d := by exact_mod_cast h
        linarith
      · intro h; have : (unit : ℚ) < 2 * d := by linarith
        exact_mod_cast this
    · rw [div_eq_iff hU.ne']
      constructor
      · intro h; have : (2 : ℚ) * d = unit := by exact_mod_cast h
        linarith
      · intro h; have : (2 : ℚ) * d = unit := by linarith
        exact_mod_cast this
  generalize (d : ℚ) / unit = D at *
  by_cases hr : roundsUp .tiesToEven false a d unit = true
  · rw [if_pos hr] at hm
    simp only [roundsUp, Bool.or_eq_true, decide_eq_true_eq, Bool.and_eq_true, beq_iff_eq, hhalf.1, hhalf.2] at hr
    have hm' : (m : ℚ) = a + 1 := by rw [hm]; push_cast; ring
    have e1 : |(m : ℚ) - (a + D)| = 1 - D := by rw [hm', abs_of_nonneg (by linarith)]; ring
    rw [e1]
    rcases Nat.lt_or_ge a T with c | c
    · have c' : (a : ℚ) + 2 ≤ T := by exact_mod_cast (by omega : a + 2 ≤ T)
      left; rw [abs_of_nonneg (by linarith)]; linarith
    · have c' : (T : ℚ) ≤ a := by exact_mod_cast c
      rw [abs_of_nonpos (by linarith)]
      rcases hr with h | ⟨h1, h2⟩
      · left; linarith
      · rcases eq_or_lt_of_le c' with h | h
        · right; exact ⟨by linarith, by omega⟩
        · left; linarith
  · rw [if_neg hr] at hm
    simp only [roundsUp, Bool.or_eq_true, decide_eq_true_eq, Bool.and_eq_true, beq_iff_eq, hhalf.1, hhalf.2, not_or, not_and, not_lt] at hr
    have hm' : (m : ℚ) = a := by rw [hm]; push_cast; ring
    have e1 : |(m : ℚ) - (a + D)| = D := by rw [hm', abs_of_nonpos (by linarith)]; ring
    rw [e1]
    rcases Nat.lt_or_ge T a with c | c
    · have c' : (T : ℚ) + 1 ≤ a := by exact_mod_cast c
      left; rw [abs_of_nonpos (by linarith)]; linarith
    · have c' : (a : ℚ) + 1 ≤ T := by exact_mod_cast (by omega : a + 1 ≤ T)
      rw [abs_of_nonneg (by linarith)]
      rcases eq_or_lt_of_le hr.1 with h | h
      · have := hr.2 h
        rcases eq_or_lt_of_le c' with h' | h'
        · right; exact ⟨by linarith, by omega⟩
        · left; linarith
      · left; linarith

/-- The infinity the machine packs is the pattern of +infinity. -/
theorem packFp_inf (fp : FpFormat) : packFp fp (.inf false) = Spec.infinity fp := by cases fp <;> rfl

theorem overflowAt_eq (fp : FpFormat) :
    Spec.overflowAt fp = 2 ^ (bias fp + 1) - 2 ^ ((bias fp : ℤ) - fracBits fp - 1) := by
  rw [Spec.overflowAt, expBias_eq, fracWidth_eq]

/-- The threshold, with `K = 2^p` and `B` the last place of the largest numbers. -/
theorem overflowAt_eq_mul (fp : FpFormat) :
    Spec.overflowAt fp = (2 ^ (fracBits fp + 1) - 1 / 2) * 2 ^ ((bias fp : ℤ) - fracBits fp) := by
  rw [overflowAt_eq]
  have e1 : (2 : ℚ) ^ (bias fp + 1) = 2 ^ (fracBits fp + 1) * 2 ^ ((bias fp : ℤ) - fracBits fp) := by
    rw [← zpow_natCast, ← zpow_natCast, ← zpow_split]; congr 1; push_cast; ring
  have e2 : (2 : ℚ) ^ ((bias fp : ℤ) - fracBits fp - 1) = 1 / 2 * 2 ^ ((bias fp : ℤ) - fracBits fp) := by
    rw [sub_eq_add_neg _ (1 : ℤ), zpow_split, zpow_neg_one]; ring
  rw [e1, e2]; ring

/-- Rounding up happens from half a unit on, and at half a unit from an odd number. -/
theorem roundsUp_bounds {a d unit : Nat} (hd : d < unit) :
    (roundsUp .tiesToEven false a d unit = true → (1 : ℚ) / 2 ≤ d / unit) ∧
    (¬ roundsUp .tiesToEven false a d unit = true → (d : ℚ) / unit ≤ 1 / 2 ∧ (a % 2 = 1 → (d : ℚ) / unit < 1 / 2)) := by
  have hU : (0 : ℚ) < unit := by exact_mod_cast (by omega : 0 < unit)
  constructor
  · intro h
    simp only [roundsUp, Bool.or_eq_true, decide_eq_true_eq, Bool.and_eq_true, beq_iff_eq] at h
    rw [le_div_iff₀ hU]
    have : (unit : ℚ) ≤ 2 * d := by exact_mod_cast (by omega : unit ≤ 2 * d)
    linarith
  · intro h
    simp only [roundsUp, Bool.or_eq_true, decide_eq_true_eq, Bool.and_eq_true, beq_iff_eq, not_or, not_and] at h
    constructor
    · rw [div_le_iff₀ hU]
      have : (2 : ℚ) * d ≤ unit := by exact_mod_cast (by omega : 2 * d ≤ unit)
      linarith
    · intro ha
      rw [div_lt_iff₀ hU]
      have : (2 : ℚ) * d < unit := by exact_mod_cast (by omega : 2 * d < unit)
      linarith

/-- What rounding answers: infinity at or past the threshold, or a number the format holds, packed into the rounded pattern. -/
theorem roundFp_cases (fp : FpFormat) (n : ℕ) {e : ℤ} (he : 0 ≤ e) :
    (roundFp fp .tiesToEven false n e = .inf false ∧ Spec.overflowAt fp ≤ (n : ℚ) * 2 ^ e) ∨
    (∃ (m : ℕ) (q : ℤ), roundFp fp .tiesToEven false n e = .fin false m q ∧ e ≤ q ∧ m ≤ 2 ^ (fracBits fp + 1) ∧
      (m ≠ 0 → q + Nat.log2 m ≤ bias fp) ∧ (n : ℚ) * 2 ^ e < Spec.overflowAt fp ∧
      ((m : ℚ) * 2 ^ q = (n : ℚ) * 2 ^ e ∨
        (2 ^ fracBits fp ≤ m ∧ ∃ a d unit : ℕ, d < unit ∧ 2 ^ fracBits fp ≤ a ∧
          m = a + (if roundsUp .tiesToEven false a d unit then 1 else 0) ∧
          (n : ℚ) * 2 ^ e = (a + d / unit) * 2 ^ q))) := by
  have hB0 : (0 : ℚ) < 2 ^ ((bias fp : ℤ) - fracBits fp) := by positivity
  have hfb : 0 < fracBits fp := by cases fp <;> decide
  have hbf : fracBits fp < bias fp := by cases fp <;> decide
  have hK : (2 : ℚ) ≤ 2 ^ (fracBits fp + 1) := by
    calc (2 : ℚ) = 2 ^ 1 := by norm_num
      _ ≤ _ := pow_le_pow_right₀ (by norm_num) (by omega)
  have hp2 (a b : ℤ) (h : a ≤ b) := zpow_mono h
  rw [roundFp, overflowAt_eq_mul]
  simp only
  by_cases hq : max (e + Nat.log2 n - fracBits fp) (1 - (bias fp : ℤ) - fracBits fp) ≤ e
  · rw [if_pos hq]
    have hL : Nat.log2 n ≤ fracBits fp := by have := le_trans (le_max_left _ _) hq; omega
    by_cases hn : n = 0
    · subst hn
      right
      refine ⟨0, e, by simp [pastLargest], le_refl _, by positivity, by simp, ?_, .inl rfl⟩
      simp; nlinarith
    · obtain ⟨l1, l2⟩ := log2_bounds hn
      have l1' : (2 : ℚ) ^ (Nat.log2 n : ℤ) ≤ n := by rw [zpow_natCast]; exact_mod_cast l1
      have l2' : (n : ℚ) + 1 ≤ 2 ^ (Nat.log2 n + 1) := by exact_mod_cast l2
      by_cases hp : (bias fp : ℤ) + 1 ≤ e + Nat.log2 n
      · left
        refine ⟨by simp [pastLargest, hn, hp, overflowed], ?_⟩
        have h1 : (2 : ℚ) ^ (fracBits fp + 1) * 2 ^ ((bias fp : ℤ) - fracBits fp) ≤ n * 2 ^ e := by
          rw [← zpow_natCast, ← zpow_split]
          calc (2 : ℚ) ^ (((fracBits fp + 1 : ℕ) : ℤ) + ((bias fp : ℤ) - fracBits fp)) ≤ 2 ^ ((Nat.log2 n : ℤ) + e) :=
                hp2 _ _ (by push_cast; omega)
            _ = 2 ^ (Nat.log2 n : ℤ) * 2 ^ e := zpow_split _ _
            _ ≤ _ := mul_le_mul_of_nonneg_right l1' (by positivity)
        nlinarith
      · right
        refine ⟨n, e, by simp [pastLargest, hp], le_refl _, ?_, fun _ => by omega, ?_, .inl rfl⟩
        · calc n ≤ 2 ^ (Nat.log2 n + 1) := l2.le
            _ ≤ _ := Nat.pow_le_pow_right (by norm_num) (by omega)
        · have h1 : (n : ℚ) * 2 ^ e ≤ (2 ^ (Nat.log2 n + 1) - 1) * 2 ^ ((bias fp : ℤ) - Nat.log2 n) :=
            mul_le_mul (by linarith) (hp2 _ _ (by omega)) (by positivity) (by nlinarith [show (1 : ℚ) ≤ 2 ^ (Nat.log2 n + 1) from one_le_pow₀ (by norm_num)])
          have h2 : (2 : ℚ) ^ (Nat.log2 n + 1) * 2 ^ ((bias fp : ℤ) - Nat.log2 n) = 2 ^ (fracBits fp + 1) * 2 ^ ((bias fp : ℤ) - fracBits fp) := by
            rw [← zpow_natCast, ← zpow_natCast, ← zpow_split, ← zpow_split]; congr 1; push_cast; ring
          have h3 : (2 : ℚ) ^ ((bias fp : ℤ) - fracBits fp) ≤ 2 ^ ((bias fp : ℤ) - Nat.log2 n) := hp2 _ _ (by omega)
          nlinarith
  · have hq' : max (e + Nat.log2 n - fracBits fp) (1 - (bias fp : ℤ) - fracBits fp) = e + Nat.log2 n - fracBits fp := by
      apply max_eq_left
      by_contra hc
      rw [max_eq_right (by omega)] at hq
      omega
    rw [if_neg hq, hq']
    rw [hq'] at hq
    have hL : fracBits fp < Nat.log2 n := by omega
    have hn : n ≠ 0 := by rintro rfl; simp at hL
    obtain ⟨l1, l2⟩ := log2_bounds hn
    obtain ⟨k, hk⟩ : ∃ k, Nat.log2 n = fracBits fp + k := ⟨Nat.log2 n - fracBits fp, by omega⟩
    have hun : (e + Nat.log2 n - fracBits fp - e).toNat = k := by omega
    have hqk : e + Nat.log2 n - fracBits fp = e + k := by omega
    rw [hun, hqk]
    have hU : 0 < 2 ^ k := by positivity
    have ha1 : 2 ^ fracBits fp ≤ n / 2 ^ k := by
      rw [Nat.le_div_iff_mul_le hU, ← pow_add, ← hk]; exact l1
    have ha2 : n / 2 ^ k < 2 ^ (fracBits fp + 1) := by
      rw [Nat.div_lt_iff_lt_mul hU, ← pow_add]
      calc n < _ := l2
        _ = _ := by congr 1; omega
    have hd := Nat.mod_lt n hU
    have hx : (n : ℚ) * 2 ^ e = ((n / 2 ^ k : ℕ) + ((n % 2 ^ k : ℕ) : ℚ) / (2 ^ k : ℕ)) * 2 ^ (e + k) := by
      rw [zpow_split, zpow_natCast]
      have : (n : ℚ) = (n / 2 ^ k : ℕ) * 2 ^ k + (n % 2 ^ k : ℕ) := by exact_mod_cast (Nat.div_add_mod' n (2 ^ k)).symm
      have hne : (2 : ℚ) ^ k ≠ 0 := by positivity
      rw [this]
      push_cast
      field_simp
    have hb := roundsUp_bounds (a := n / 2 ^ k) hd
    have hD1 : ((n % 2 ^ k : ℕ) : ℚ) / (2 ^ k : ℕ) < 1 := by
      rw [div_lt_one (by exact_mod_cast hU)]; exact_mod_cast hd
    have hD0 : (0 : ℚ) ≤ ((n % 2 ^ k : ℕ) : ℚ) / (2 ^ k : ℕ) := by positivity
    rw [hx]
    have ha1' : (2 : ℚ) ^ fracBits fp ≤ (n / 2 ^ k : ℕ) := by exact_mod_cast ha1
    have hKK : (2 : ℚ) ^ (fracBits fp + 1) = 2 * 2 ^ fracBits fp := by rw [pow_succ]; ring
    generalize n / 2 ^ k = a at *
    generalize n % 2 ^ k = d at *
    generalize 2 ^ k = u at *
    obtain ⟨D, hD⟩ : ∃ D : ℚ, D = (d : ℚ) / (u : ℕ) := ⟨_, rfl⟩
    rw [← hD] at hb hD0 hD1 ⊢
    obtain ⟨m, hm⟩ : ∃ m, m = a + (if roundsUp .tiesToEven false a d u then 1 else 0) := ⟨_, rfl⟩
    rw [← hm]
    have hQ0 : (0 : ℚ) < 2 ^ (e + k) := by positivity
    have hma : a ≤ m ∧ m ≤ 2 ^ (fracBits fp + 1) := by rw [hm]; split <;> omega
    have hm0 : m ≠ 0 := by have : 0 < 2 ^ fracBits fp := by positivity
                           omega
    have hK2 : (2 : ℕ) ^ (fracBits fp + 1) = 2 * 2 ^ fracBits fp := by rw [pow_succ]; ring
    have hB2 : (2 : ℚ) ^ ((bias fp : ℤ) - fracBits fp + 1) = 2 * 2 ^ ((bias fp : ℤ) - fracBits fp) := by
      rw [zpow_split, zpow_one]; ring
    have hBh : (2 : ℚ) ^ ((bias fp : ℤ) - fracBits fp - 1) = 1 / 2 * 2 ^ ((bias fp : ℤ) - fracBits fp) := by
      rw [sub_eq_add_neg _ (1 : ℤ), zpow_split, zpow_neg_one]; ring
    have haK : (a : ℚ) + 1 ≤ 2 * 2 ^ fracBits fp := by rw [← hKK]; exact_mod_cast ha2
    rw [hKK] at hK ⊢
    have hcase : (m < 2 ^ (fracBits fp + 1) ∧ Nat.log2 m = fracBits fp) ∨
        (m = 2 ^ (fracBits fp + 1) ∧ Nat.log2 m = fracBits fp + 1) := by
      rcases Nat.lt_or_ge m (2 ^ (fracBits fp + 1)) with h | h
      · exact .inl ⟨h, (Nat.log2_eq_iff hm0).2 ⟨by omega, h⟩⟩
      · have h' : m = 2 ^ (fracBits fp + 1) := le_antisymm hma.2 h
        exact .inr ⟨h', (Nat.log2_eq_iff hm0).2 ⟨h, by rw [h']; exact Nat.pow_lt_pow_right (by norm_num) (by omega)⟩⟩
    have hup : m = 2 ^ (fracBits fp + 1) → (a : ℚ) = 2 * 2 ^ fracBits fp - 1 ∧ 1 / 2 ≤ D := by
      intro h
      by_cases hr : roundsUp .tiesToEven false a d u = true
      · rw [if_pos hr] at hm
        have : a + 1 = 2 * 2 ^ fracBits fp := by omega
        exact ⟨eq_sub_of_add_eq (by exact_mod_cast this), hb.1 hr⟩
      · rw [if_neg hr] at hm; omega
    have hdown : m < 2 ^ (fracBits fp + 1) → (a : ℚ) + D < 2 * 2 ^ fracBits fp - 1 / 2 := by
      intro h
      rcases Nat.lt_or_ge (a + 1) (2 * 2 ^ fracBits fp) with h1 | h1
      · have : (a : ℚ) + 1 + 1 ≤ 2 * 2 ^ fracBits fp := by exact_mod_cast h1
        linarith
      · have hr : ¬ roundsUp .tiesToEven false a d u = true := by
          intro hr; rw [if_pos hr] at hm; omega
        have := (hb.2 hr).2 (by omega)
        linarith
    by_cases hp : pastLargest fp m (e + k) = true
    · left
      rw [if_pos hp]
      refine ⟨rfl, ?_⟩
      simp only [pastLargest, Bool.and_eq_true, decide_eq_true_eq] at hp
      rcases hcase with ⟨h1, h2⟩ | ⟨h1, h2⟩
      · rw [h2] at hp
        have hQ := hp2 ((bias fp : ℤ) - fracBits fp + 1) (e + k) (by omega)
        rw [hB2] at hQ
        have : (2 : ℚ) ^ fracBits fp * (2 * 2 ^ ((bias fp : ℤ) - fracBits fp)) ≤ (a + D) * 2 ^ (e + (k : ℤ)) :=
          mul_le_mul (by linarith) hQ (by positivity) (by positivity)
        nlinarith
      · rw [h2] at hp
        have hQ := hp2 ((bias fp : ℤ) - fracBits fp) (e + k) (by omega)
        obtain ⟨h3, h4⟩ := hup h1
        exact mul_le_mul (by linarith) hQ (by positivity) (by positivity)
    · right
      rw [if_neg hp]
      have hp' : e + (k : ℤ) + Nat.log2 m ≤ bias fp := by
        simp only [pastLargest, Bool.and_eq_true, decide_eq_true_eq, bne_iff_ne, ne_eq, not_and] at hp
        have := hp hm0
        omega
      refine ⟨m, e + k, rfl, by omega, hma.2, fun _ => hp', ?_, .inr ⟨by omega, a, d, u, hd, ha1, hm, by rw [hD]⟩⟩
      rcases hcase with ⟨h1, h2⟩ | ⟨h1, h2⟩
      · rw [h2] at hp'
        have hQ := hp2 (e + k) ((bias fp : ℤ) - fracBits fp) (by omega)
        have h3 := hdown h1
        calc ((a : ℚ) + D) * 2 ^ (e + (k : ℤ)) < (2 * 2 ^ fracBits fp - 1 / 2) * 2 ^ (e + (k : ℤ)) :=
              mul_lt_mul_of_pos_right h3 hQ0
          _ ≤ _ := mul_le_mul_of_nonneg_left hQ (by linarith)
      · rw [h2] at hp'
        have hQ := hp2 (e + k) ((bias fp : ℤ) - fracBits fp - 1) (by push_cast at hp'; omega)
        rw [hBh] at hQ
        have h3 : ((a : ℚ) + D) * 2 ^ (e + (k : ℤ)) < (2 * 2 ^ fracBits fp) * 2 ^ (e + (k : ℤ)) :=
          mul_lt_mul_of_pos_right (by linarith) hQ0
        have h4 : (2 * 2 ^ fracBits fp : ℚ) * 2 ^ (e + (k : ℤ)) ≤ (2 * 2 ^ fracBits fp) * (1 / 2 * 2 ^ ((bias fp : ℤ) - fracBits fp)) :=
          mul_le_mul_of_nonneg_left hQ (by positivity)
        nlinarith

/-- R265, D14: rounding an exact non-negative number and packing it gives the pattern roundTiesToEven asks for. -/
theorem packFp_roundFp (fp : FpFormat) (n : ℕ) {e : ℤ} (he : 0 ≤ e) :
    Spec.Rounds fp ((n : ℚ) * 2 ^ e) (packFp fp (roundFp fp .tiesToEven false n e)) := by
  rcases roundFp_cases fp n he with ⟨h, ho⟩ | ⟨m, q, h, hq, hm, ht, ho, hx⟩
  · rw [h, packFp_inf, Spec.Rounds, if_pos ho]
  · obtain ⟨p1, p2, p3⟩ := packFp_val fp (le_trans he hq) hm ht
    rw [h, Spec.Rounds, if_neg (not_le.2 ho)]
    refine ⟨p1, fun y hy hne => ?_⟩
    rw [p2]
    rcases hx with hx | ⟨hmf, a, d, unit, hd, ha, hma, hx⟩
    · left
      rw [hx, sub_self, abs_zero, abs_pos, sub_ne_zero, ← hx, ← p2]
      exact val_ne_of_ne hy p1 hne
    · have hQ : (0 : ℚ) < 2 ^ q := by positivity
      have hU : (0 : ℚ) < unit := by exact_mod_cast (by omega : 0 < unit)
      have hD0 : (0 : ℚ) ≤ d / unit := by positivity
      rw [hx, ← sub_mul, abs_mul, abs_of_pos hQ, p3 hmf]
      obtain ⟨k, j, hv, hk⟩ := magnitude_val hy
      have hyz : (k : ℚ) * 2 ^ j ≠ m * 2 ^ q := by rw [← hv, ← p2]; exact val_ne_of_ne hy p1 hne
      rw [hv]
      rcases le_or_gt q j with c | c
      · obtain ⟨i, hi⟩ := Int.eq_ofNat_of_zero_le (sub_nonneg.2 c)
        have hj : (k : ℚ) * 2 ^ j = ((k * 2 ^ i : ℕ) : ℚ) * 2 ^ q := by
          rw [show j = i + q by omega, zpow_split, zpow_natCast]; push_cast; ring
        rw [hj, ← sub_mul, abs_mul, abs_of_pos hQ]
        have hT : k * 2 ^ i ≠ m := fun hc => hyz (by rw [hj, hc])
        rcases tiesToEven_nearest hd hma hT with t | ⟨t, t'⟩
        · exact .inl (mul_lt_mul_of_pos_right t hQ)
        · exact .inr ⟨by rw [t], t'⟩
      · left
        have hle : |(m : ℚ) - (a + d / unit)| ≤ d / unit := by
          have e1 : |(a : ℚ) - (a + d / unit)| = d / unit := by rw [abs_of_nonpos (by linarith)]; ring
          by_cases hc : a = m
          · rw [← hc, e1]
          · rcases tiesToEven_nearest hd hma hc with t | ⟨t, -⟩ <;> rw [e1] at t <;> linarith
        have hkk : (k : ℚ) < 2 * 2 ^ fracBits fp := by
          have : k < 2 * 2 ^ fracBits fp := by rw [pow_succ] at hk; omega
          exact_mod_cast this
        have hj : (2 : ℚ) ^ j * 2 ≤ 2 ^ q := by
          rw [show (2 : ℚ) ^ j * 2 = 2 ^ (j + 1) by rw [zpow_split, zpow_one]]
          exact zpow_mono (by omega)
        have hj0 : (0 : ℚ) < 2 ^ j := by positivity
        have ha' : (2 : ℚ) ^ fracBits fp ≤ a := by exact_mod_cast ha
        have hlt : (k : ℚ) * 2 ^ j < a * 2 ^ q := by
          calc (k : ℚ) * 2 ^ j < (2 * 2 ^ fracBits fp) * 2 ^ j := mul_lt_mul_of_pos_right hkk hj0
            _ = 2 ^ fracBits fp * (2 ^ j * 2) := by ring
            _ ≤ a * 2 ^ q := mul_le_mul ha' hj (by positivity) (by positivity)
        calc |(m : ℚ) - (a + d / unit)| * 2 ^ q ≤ d / unit * 2 ^ q := mul_le_mul_of_nonneg_right hle hQ.le
          _ < (a + d / unit) * 2 ^ q - k * 2 ^ j := by linarith [add_mul (a : ℚ) (d / unit) (2 ^ q)]
          _ ≤ |(k : ℚ) * 2 ^ j - (a + d / unit) * 2 ^ q| := by rw [abs_sub_comm]; exact le_abs_self _

/-- Rounding a number below 2^64 gives a number the format holds, and its pattern stands for it. -/
theorem cvtFp_cases (fp : FpFormat) (n : Limb) :
    ∃ (m : ℕ) (q : ℤ), cvtFp fp .tiesToEven n = .fin false m q ∧ 0 ≤ q ∧ Spec.val fp (packFp fp (.fin false m q)) = m * 2 ^ q ∧
      Spec.Rounds fp (n.toNat : ℚ) (packFp fp (.fin false m q)) := by
  have hr := packFp_roundFp fp n.toNat (le_refl (0 : ℤ))
  rw [zpow_zero, mul_one] at hr
  rw [cvtFp]
  rcases roundFp_cases fp n.toNat (le_refl (0 : ℤ)) with ⟨h, ho⟩ | ⟨m, q, h, hq, hm, ht, -⟩
  · exfalso
    have h1 : (n.toNat : ℚ) < 2 ^ 64 := by exact_mod_cast n.isLt
    have h2 : (2 : ℚ) ^ 64 ≤ Spec.overflowAt fp := by
      rw [overflowAt_eq_mul]
      have e1 : (2 : ℚ) ^ 64 ≤ 2 ^ ((bias fp : ℤ) - fracBits fp) := by
        rw [← zpow_natCast]; exact zpow_mono (by cases fp <;> decide)
      have e2 : (2 : ℚ) ≤ 2 ^ (fracBits fp + 1) := by
        calc (2 : ℚ) = 2 ^ 1 := by norm_num
          _ ≤ _ := pow_le_pow_right₀ (by norm_num) (by omega)
      nlinarith
    rw [zpow_zero, mul_one] at ho
    linarith
  · rw [h] at hr
    exact ⟨m, q, h, hq, (packFp_val fp hq hm ht).2.1, hr⟩

/-- The end of the format, as a number. -/
theorem pastLargest_iff (fp : FpFormat) (m : ℕ) (e : ℤ) :
    pastLargest fp m e = true ↔ (2 : ℚ) ^ (bias fp + 1) ≤ m * 2 ^ e := by
  by_cases hm : m = 0
  · subst hm
    simp [pastLargest]
  · obtain ⟨l1, l2⟩ := log2_bounds hm
    have l1' : (2 : ℚ) ^ (Nat.log2 m : ℤ) ≤ m := by rw [zpow_natCast]; exact_mod_cast l1
    have l2' : (m : ℚ) < 2 ^ ((Nat.log2 m : ℤ) + 1) := by
      rw [show ((Nat.log2 m : ℤ) + 1) = ((Nat.log2 m + 1 : ℕ) : ℤ) by push_cast; rfl, zpow_natCast]; exact_mod_cast l2
    have he : (0 : ℚ) < 2 ^ e := by positivity
    simp only [pastLargest, Bool.and_eq_true, bne_iff_ne, ne_eq, hm, not_false_eq_true, true_and, decide_eq_true_eq]
    rw [← zpow_natCast]
    push_cast
    constructor
    · intro h
      calc (2 : ℚ) ^ ((bias fp : ℤ) + 1) ≤ 2 ^ ((Nat.log2 m : ℤ) + e) := zpow_mono (by omega)
        _ = 2 ^ (Nat.log2 m : ℤ) * 2 ^ e := zpow_split _ _
        _ ≤ _ := mul_le_mul_of_nonneg_right l1' he.le
    · intro h
      have : (2 : ℚ) ^ ((bias fp : ℤ) + 1) < 2 ^ ((Nat.log2 m : ℤ) + 1 + e) := by
        rw [zpow_split ((Nat.log2 m : ℤ) + 1)]
        exact lt_of_le_of_lt h (mul_lt_mul_of_pos_right l2' he)
      have := (zpow_lt_zpow_iff_right₀ (by norm_num : (1 : ℚ) < 2)).1 this
      omega

/-- R265: the sum of two non-negative numbers, rounded once. -/
theorem packFp_faddFp (fp : FpFormat) (m1 m2 : ℕ) {e1 e2 : ℤ} (h1 : 0 ≤ e1) (h2 : 0 ≤ e2) :
    Spec.Rounds fp ((m1 : ℚ) * 2 ^ e1 + m2 * 2 ^ e2) (packFp fp (faddFp fp .tiesToEven (.fin false m1 e1) (.fin false m2 e2))) := by
  rw [faddFp]
  simp only [alignedInt, Bool.false_eq_true, if_false]
  have h0 : 0 ≤ min e1 e2 := le_min h1 h2
  have key (m : ℕ) (e : ℤ) (h : min e1 e2 ≤ e) : (m : ℚ) * 2 ^ e = ((m * 2 ^ (e - min e1 e2).toNat : ℕ) : ℚ) * 2 ^ (min e1 e2) := by
    obtain ⟨k, hk⟩ := Int.eq_ofNat_of_zero_le (sub_nonneg.2 h)
    rw [hk, Int.toNat_natCast]
    push_cast
    rw [mul_assoc, ← zpow_natCast, ← zpow_split, ← hk]; congr 2; ring
  rw [key m1 e1 (min_le_left _ _), key m2 e2 (min_le_right _ _), ← add_mul, ← Nat.cast_add]
  have hr := packFp_roundFp fp (m1 * 2 ^ (e1 - min e1 e2).toNat + m2 * 2 ^ (e2 - min e1 e2).toNat) h0
  have hn : ((m1 : ℤ) * 2 ^ (e1 - min e1 e2).toNat + m2 * 2 ^ (e2 - min e1 e2).toNat) =
      ((m1 * 2 ^ (e1 - min e1 e2).toNat + m2 * 2 ^ (e2 - min e1 e2).toNat : ℕ) : ℤ) := by push_cast; rfl
  rw [hn]
  generalize m1 * 2 ^ (e1 - min e1 e2).toNat + m2 * 2 ^ (e2 - min e1 e2).toNat = n at *
  by_cases hz : n = 0
  · subst hz
    simp only [Nat.cast_zero, if_true, zero_mul]
    have := packFp_roundFp fp 0 (le_refl (0 : ℤ))
    have e : packFp fp (roundFp fp .tiesToEven false 0 0) = packFp fp (.fin (zeroSumSign .tiesToEven false false) 0 0) := by cases fp <;> rfl
    rw [e] at this
    simpa using this
  · rw [if_neg (by exact_mod_cast hz)]
    have hd : decide ((n : ℤ) < 0) = false := by simp
    rw [hd, Int.natAbs_natCast]
    exact hr

end Sys2Proof.Laws
end

