-- ==== Sys2Proof/Laws/Numerals.lean ====
section
/-! SUPPORT. The formatter's digits (spec/46_format.md R222 to R224) are the numeral of the magnitude: the chunks are positional
and the pad width keeps them so (R231). -/

namespace Sys2Proof.Laws

open Sys2Proof.Machine

/-- The numeral of `n`: its base-`r` digits, most significant first; one 0 for zero. -/
abbrev numeralOf (r n : Nat) : List Nat := if n = 0 then [0] else (Nat.digits r n).reverse

theorem radix_gt_one (b : Base) : 1 < radix b := by cases b <;> decide

/-- Repeated division produces the numeral when it has the fuel for every digit. -/
theorem numeral_eq {r : Nat} (hr : 1 < r) : ∀ (fuel n : Nat), n < r ^ (fuel + 1) →
    numeral r (fuel + 1) n = numeralOf r n
  | 0, n, h => by
    have h : n < r := by simpa using h
    rw [numeral, if_pos h]
    by_cases h0 : n = 0
    · simp [numeralOf, h0]
    · simp [numeralOf, h0, Nat.digits_of_lt r n h0 h]
  | fuel + 1, n, h => by
    rw [numeral]
    split
    · rename_i hlt
      by_cases h0 : n = 0
      · simp [numeralOf, h0]
      · simp [numeralOf, h0, Nat.digits_of_lt r n h0 hlt]
    · rename_i hge
      have hq : n / r < r ^ (fuel + 1) := by
        rw [Nat.div_lt_iff_lt_mul (by omega), ← pow_succ]; exact h
      have hq0 : n / r ≠ 0 := by
        rw [Ne, Nat.div_eq_zero_iff]; omega
      rw [numeral_eq hr fuel (n / r) hq, numeralOf, if_neg hq0, numeralOf, if_neg (by omega),
        Nat.digits_def' hr (by omega : 0 < n), List.reverse_cons]

/-- `dig(c)` of R224. -/
theorem dig_eq (b : Base) (c : Limb) : dig b c = numeralOf (radix b) c.toNat := by
  refine numeral_eq (radix_gt_one b) 63 c.toNat (lt_of_lt_of_le c.isLt ?_)
  exact Nat.pow_le_pow_left (radix_gt_one b) 64

theorem chunkDivisor_toNat (b : Base) : (chunkDivisor b).toNat = radix b ^ chunkWidth b := by
  cases b <;> rfl

theorem chunkValue_toNat (b : Base) : (chunkValue b).toNat = radix b ^ chunkWidth b := by
  rw [chunkValue, toNat_pair, chunkDivisor_toNat]; simp

/-- The chunk divisor is at least 2^60 and fits in a limb (R222). -/
theorem chunk_bounds (b : Base) : 2 ^ 60 ≤ radix b ^ chunkWidth b ∧ radix b ^ chunkWidth b < 2 ^ 64 := by
  cases b <;> decide

/-- R223: the three chunks, as numbers. -/
theorem chunks_toNat (b : Base) (mag : Value) :
    (chunks b mag).1.toNat = mag.toNat / radix b ^ chunkWidth b / radix b ^ chunkWidth b ∧
    (chunks b mag).2.1.toNat = mag.toNat / radix b ^ chunkWidth b % radix b ^ chunkWidth b ∧
    (chunks b mag).2.2.toNat = mag.toNat % radix b ^ chunkWidth b := by
  have ⟨h1, h2⟩ := chunk_bounds b
  have hm := mag.isLt
  have hD : 0 < radix b ^ chunkWidth b := by omega
  have q1 : mag.toNat / radix b ^ chunkWidth b < 2 ^ 68 := by
    rw [Nat.div_lt_iff_lt_mul hD]
    calc _ < 2 ^ 128 := hm
      _ = 2 ^ 68 * 2 ^ 60 := by norm_num
      _ ≤ _ := Nat.mul_le_mul_left _ h1
  have q2 : mag.toNat / radix b ^ chunkWidth b / radix b ^ chunkWidth b < 2 ^ 64 := by
    rw [Nat.div_lt_iff_lt_mul hD]
    calc _ < 2 ^ 68 := q1
      _ ≤ 2 ^ 64 * 2 ^ 60 := by norm_num
      _ ≤ _ := Nat.mul_le_mul_left _ h1
  have r1 := Nat.mod_lt (mag.toNat / radix b ^ chunkWidth b) hD
  have r2 := Nat.mod_lt mag.toNat hD
  simp only [chunks, udivmod128_eq, toNat_lo, BitVec.toNat_udiv, BitVec.toNat_umod, chunkValue_toNat]
  refine ⟨Nat.mod_eq_of_lt q2, Nat.mod_eq_of_lt (by omega), Nat.mod_eq_of_lt (by omega)⟩

/-- A number below `r^w`, as `w` digits: its digits and then zeros, least significant first. -/
theorem padded_eq (b : Base) (c : Limb) (h : c.toNat < radix b ^ chunkWidth b) :
    padded b c = ((Nat.digits (radix b) c.toNat) ++
      List.replicate (chunkWidth b - (Nat.digits (radix b) c.toNat).length) 0).reverse := by
  have hw : chunkWidth b ≠ 0 := by cases b <;> decide
  rw [padded, dig_eq]
  by_cases h0 : c.toNat = 0
  · obtain ⟨w, hw'⟩ := Nat.exists_eq_succ_of_ne_zero hw
    rw [numeralOf, if_pos h0, h0, hw']
    simp [List.replicate_succ, ← List.replicate_succ']
  · rw [numeralOf, if_neg h0]
    simp

/-- A chunk in front of a padded chunk is positional. -/
theorem numeral_append {r w hi lo : Nat} (hr : 1 < r) (hh : hi ≠ 0) (hl : lo < r ^ w) :
    (Nat.digits r hi).reverse ++ (Nat.digits r lo ++ List.replicate (w - (Nat.digits r lo).length) 0).reverse =
      (Nat.digits r (hi * r ^ w + lo)).reverse := by
  have hlen : (Nat.digits r lo).length ≤ w := (Nat.digits_length_le_iff hr lo).mpr hl
  have := Nat.digits_append_zeroes_append_digits (b := r) (k := w - (Nat.digits r lo).length) (m := hi) (n := lo) hr (by omega)
  rw [← List.reverse_append]
  congr 1
  rw [this]
  congr 1
  rw [show (Nat.digits r lo).length + (w - (Nat.digits r lo).length) = w by omega]
  ring

/-- R224, R231: the digits printed are the numeral of the magnitude. -/
theorem digits_eq (b : Base) (mag : Value) : digits b mag = numeralOf (radix b) mag.toNat := by
  obtain ⟨c1, c2, c3⟩ := chunks_toNat b mag
  have hr := radix_gt_one b
  have ⟨h1, _⟩ := chunk_bounds b
  have hD : 0 < radix b ^ chunkWidth b := by omega
  have l2 : (chunks b mag).2.1.toNat < radix b ^ chunkWidth b := by rw [c2]; exact Nat.mod_lt _ hD
  have l3 : (chunks b mag).2.2.toNat < radix b ^ chunkWidth b := by rw [c3]; exact Nat.mod_lt _ hD
  have e1 := Nat.div_add_mod mag.toNat (radix b ^ chunkWidth b)
  have e2 := Nat.div_add_mod (mag.toNat / radix b ^ chunkWidth b) (radix b ^ chunkWidth b)
  rw [← c3] at e1
  rw [← c1, ← c2] at e2
  rw [← e2] at e1
  rw [digits]
  generalize chunks b mag = t at *
  obtain ⟨h, m, l⟩ := t
  simp only at *
  have nz (x : Limb) : (x != 0) = true ↔ x.toNat ≠ 0 := by
    simp [← BitVec.toNat_inj]
  simp only [nz]
  by_cases hh : h.toNat = 0
  · by_cases hm : m.toNat = 0
    · simp only [hh, hm, ne_eq, not_true_eq_false, if_false]
      rw [dig_eq]
      rw [hh, hm] at e1
      simp only [Nat.mul_zero, Nat.zero_add] at e1
      rw [e1]
    · simp only [hh, hm, ne_eq, not_true_eq_false, not_false_eq_true, if_false, if_true]
      rw [dig_eq, padded_eq b l l3, numeralOf, if_neg hm, numeral_append hr hm l3]
      rw [hh] at e1
      have : mag.toNat = m.toNat * radix b ^ chunkWidth b + l.toNat := by
        rw [← e1]; ring
      rw [← this, numeralOf, if_neg]
      rw [this]
      have := Nat.mul_pos (Nat.pos_of_ne_zero hm) hD
      omega
  · simp only [hh, ne_eq, not_false_eq_true, if_true]
    have hp := Nat.mul_pos (Nat.pos_of_ne_zero hh) hD
    have hp2 := Nat.mul_pos (Nat.lt_of_lt_of_le hp (Nat.le_add_right _ m.toNat)) hD
    rw [dig_eq, padded_eq b l l3, padded_eq b m l2, numeralOf, if_neg hh, numeral_append hr hh l2,
      numeral_append hr (by omega) l3]
    have : mag.toNat = (h.toNat * radix b ^ chunkWidth b + m.toNat) * radix b ^ chunkWidth b + l.toNat := by
      rw [← e1]; ring
    rw [← this, numeralOf, if_neg]
    omega

/-- The number of characters of a numeral (R230). -/
theorem numeralOf_length_le {r k n : Nat} (hr : 1 < r) (h : n < r ^ (k + 1)) : (numeralOf r n).length ≤ k + 1 := by
  unfold numeralOf
  split
  · simp
  · rw [List.length_reverse]; exact (Nat.digits_length_le_iff hr n).mpr h

theorem numeralOf_ne_nil (r n : Nat) : numeralOf r n ≠ [] := by
  unfold numeralOf
  split
  · simp
  · rename_i h
    simpa using Nat.digits_ne_nil_iff_ne_zero.mpr h

/-- Every digit of a numeral is below the radix. -/
theorem numeralOf_lt {r n d : Nat} (hr : 1 < r) (h : d ∈ numeralOf r n) : d < r := by
  unfold numeralOf at h
  split at h
  · simp at h; omega
  · exact Nat.digits_lt_base hr (List.mem_reverse.mp h)

/-! ## Texts -/

theorem signText_length_le (base : Base) (sg sp : Bool) (v : Value) :
    (signText base sg sp v).length ≤ if base = .dec then 1 else 0 := by
  cases base <;> cases sg <;> cases sp <;> cases h : v.msb <;> simp [signText, printsNegative, h]

theorem prefixText_length_le (base : Base) (uc sb : Bool) (v : Value) :
    (prefixText base uc sb v).length ≤ match base with | .dec => 0 | .oct => 1 | .hex => 2 := by
  unfold prefixText
  split
  · cases base <;> simp
  · simp

/-- The digits of a magnitude: at most 39, 43 or 32 (R230). -/
theorem digits_length_le (b : Base) (v : Value) :
    (digits b v).length ≤ match b with | .dec => 39 | .oct => 43 | .hex => 32 := by
  have := v.isLt
  rw [digits_eq]
  cases b
  · exact numeralOf_length_le (k := 38) (by decide) (lt_of_lt_of_le this (by decide))
  · exact numeralOf_length_le (k := 42) (by decide) (lt_of_lt_of_le this (by decide))
  · exact numeralOf_length_le (k := 31) (by decide) (lt_of_lt_of_le this (by decide))

theorem digits_ne_nil (b : Base) (v : Value) : digits b v ≠ [] := by
  rw [digits_eq]; exact numeralOf_ne_nil _ _

/-- R230: 1 to 44 characters, whatever is printed. -/
theorem formatText_length (base : Base) (sg uc sb sp : Bool) (v : Value) :
    1 ≤ (formatText base sg uc sb sp v).length ∧
      (formatText base sg uc sb sp v).length ≤ match base with | .dec => 40 | .oct => 44 | .hex => 34 := by
  have h1 := signText_length_le base sg sp v
  have h2 := prefixText_length_le base uc sb (magnitude base sg v)
  have h3 := digits_length_le base (magnitude base sg v)
  have h4 := List.length_pos_of_ne_nil (digits_ne_nil base (magnitude base sg v))
  simp only [formatText, List.length_append, List.length_map]
  constructor
  · omega
  · cases base <;> simp only [if_true, if_false, reduceCtorEq] at h1 h2 h3 ⊢ <;> omega

/-- A digit's character is a printable ASCII character. -/
theorem digitChar_bounds (uc : Bool) {d : Nat} (h : d < 16) :
    0 < (digitChar uc d).toNat ∧ (digitChar uc d).toNat < 128 := by
  revert uc; revert d; decide

/-- Every byte of a text is a nonzero ASCII character (R229, D20). -/
theorem formatText_ascii (base : Base) (sg uc sb sp : Bool) (v : Value) :
    ∀ c ∈ formatText base sg uc sb sp v, 0 < c.toNat ∧ c.toNat < 128 := by
  intro c hc
  simp only [formatText, List.mem_append, List.mem_map] at hc
  rcases hc with (hc | hc) | ⟨d, hd, rfl⟩
  · unfold signText at hc
    split at hc
    · simp at hc; subst hc; decide
    · split at hc
      · simp at hc; subst hc; decide
      · simp at hc
  · unfold prefixText at hc
    split at hc
    · cases base <;> cases uc <;> simp at hc
      · subst hc; decide
      · subst hc; decide
      · obtain rfl | rfl := hc <;> decide
      · obtain rfl | rfl := hc <;> decide
    · simp at hc
  · rw [digits_eq] at hd
    have := numeralOf_lt (radix_gt_one base) hd
    exact digitChar_bounds uc (by cases base <;> simp [radix] at this <;> omega)

end Sys2Proof.Laws
end

