-- ==== Sys2Proof/Laws/Ops.lean ====
section
/-! SUPPORT. What each shared operation of Machine/Ops.lean and Machine/Command.lean can answer, said once. -/

namespace Sys2Proof.Laws

open Sys2Proof.Machine

/-- In the checked unit a violation is fault entry (spec/60_exceptions.md R300, R306). -/
theorem violation_eq (c : Cause) (i : Instr) (s : State) :
    violation c i s = .next (raise c (encodeWord i) s) := rfl

/-- In AU128 a wrapping result is the result (D15). -/
theorem wrapOrStop_eq (n : Int) (r : Result) : wrapOrStop n r = r := rfl

theorem done_eq (s : State) (z : Limb) : done s z = .next (respond s z) := rfl

/-- `CFG = 0x87` (spec/10_state.md R28). -/
theorem cfgReg_eq : cfgReg = 0x87 := rfl

theorem halted_iff (s : State) : halted s = true ↔ s.flt ≠ 0 := by simp [halted]

@[simp] theorem readV_eq (s : State) (r : Reg) : readV s r = s.v[r] := rfl

/-- A register reads as it was written. -/
theorem readV_writeV_same (s : State) (r : Reg) (x : Value) : readV (writeV s r x) r = x := by
  simp [writeV]

/-- A write leaves every other register alone (R23). -/
theorem readV_writeV_other {s : State} {r q : Reg} (x : Value) (h : q ≠ r) :
    readV (writeV s r x) q = readV s q := by
  have h' : r.val ≠ q.val := fun e => h (Fin.ext e.symm)
  simp [writeV, h']

/-- Byte `k` of a text of at most 48 characters: the character, or a zero byte past the end (R227). -/
theorem fillText_getElem (text : List Byte) (k : Nat) (hk : k < 48) :
    (fillText text)[k] = if h : k < text.length then text[k] else 0 := by
  simp only [fillText, Vector.getElem_mk, List.getElem_toArray, List.getElem_take]
  rw [List.getElem_append]
  split
  · rfl
  · rw [List.getElem_replicate]

/-- Byte `j` of a text word is `T[8*K + j]` (spec/20_memory.md R52). -/
theorem readTextWord_byte (s : State) (k : TextWord) (j : Nat) (hj : j < 8) :
    (readTextWord s k).extractLsb' (8 * j) 8 = s.t[8 * k.val + j] := by
  obtain rfl | rfl | rfl | rfl | rfl | rfl | rfl | rfl :
      j = 0 ∨ j = 1 ∨ j = 2 ∨ j = 3 ∨ j = 4 ∨ j = 5 ∨ j = 6 ∨ j = 7 := by omega
  all_goals
    apply BitVec.eq_of_getLsbD_eq
    intro i hi
    simp only [readTextWord, BitVec.getLsbD_extractLsb', BitVec.getLsbD_append, hi, decide_true, Bool.true_and]
    repeat' (split)
    all_goals first
      | omega
      | (congr 1 <;> omega)

/-- A step with a packet presented runs it; with a reset presented resets; with nothing presented waits. -/
theorem takeInput_command {s : State} {p : Packet} {rest : List Input} (h : s.inputs = .command p :: rest) :
    takeInput s = runPacket p { s with inputs := rest } := by
  simp [takeInput, h, runInput]

theorem takeInput_reset {s : State} {o : Option Packet} {rest : List Input} (h : s.inputs = .reset o :: rest) :
    takeInput s = .next (resetUnit { s with inputs := rest }) := by
  simp [takeInput, h, runInput]

theorem takeInput_idle {s : State} (h : s.inputs = []) : takeInput s = .next s := by
  simp [takeInput, h]

/-- The running unit (spec/30_encoding.md R81). -/
theorem runPacket_running {s : State} (p : Packet) (h : s.flt = 0) :
    runPacket p s = match decode p with
      | .ok i => exec i s
      | .error _ => .next (raise .illegal p.cw s) := by
  rw [runPacket, halted, h]; rfl

end Sys2Proof.Laws
end

