-- ==== Sys2Proof/Laws/State.lean ====
section
/-! SUPPORT. What each update of the state does to each field, so that no later proof unfolds a record update. -/

namespace Sys2Proof.Laws

open Sys2Proof.Machine

@[simp] theorem writeV_v (s : State) (r : Reg) (x : Value) : (writeV s r x).v = s.v.set r.val x r.isLt := rfl
@[simp] theorem writeV_t (s : State) (r : Reg) (x : Value) : (writeV s r x).t = s.t := rfl
@[simp] theorem writeV_tlen (s : State) (r : Reg) (x : Value) : (writeV s r x).tlen = s.tlen := rfl
@[simp] theorem writeV_flt (s : State) (r : Reg) (x : Value) : (writeV s r x).flt = s.flt := rfl
@[simp] theorem writeV_finfo (s : State) (r : Reg) (x : Value) : (writeV s r x).finfo = s.finfo := rfl
@[simp] theorem writeV_inputs (s : State) (r : Reg) (x : Value) : (writeV s r x).inputs = s.inputs := rfl
@[simp] theorem writeV_responses (s : State) (r : Reg) (x : Value) : (writeV s r x).responses = s.responses := rfl

@[simp] theorem writeText_v (s : State) (l : List Byte) : (writeText s l).v = s.v := rfl
@[simp] theorem writeText_t (s : State) (l : List Byte) : (writeText s l).t = fillText l := rfl
@[simp] theorem writeText_tlen (s : State) (l : List Byte) : (writeText s l).tlen = BitVec.ofNat 8 l.length := rfl
@[simp] theorem writeText_flt (s : State) (l : List Byte) : (writeText s l).flt = s.flt := rfl
@[simp] theorem writeText_finfo (s : State) (l : List Byte) : (writeText s l).finfo = s.finfo := rfl
@[simp] theorem writeText_inputs (s : State) (l : List Byte) : (writeText s l).inputs = s.inputs := rfl
@[simp] theorem writeText_responses (s : State) (l : List Byte) : (writeText s l).responses = s.responses := rfl

@[simp] theorem respond_v (s : State) (z : Limb) : (respond s z).v = s.v := rfl
@[simp] theorem respond_t (s : State) (z : Limb) : (respond s z).t = s.t := rfl
@[simp] theorem respond_tlen (s : State) (z : Limb) : (respond s z).tlen = s.tlen := rfl
@[simp] theorem respond_flt (s : State) (z : Limb) : (respond s z).flt = s.flt := rfl
@[simp] theorem respond_finfo (s : State) (z : Limb) : (respond s z).finfo = s.finfo := rfl
@[simp] theorem respond_inputs (s : State) (z : Limb) : (respond s z).inputs = s.inputs := rfl
@[simp] theorem respond_responses (s : State) (z : Limb) : (respond s z).responses = { st := s.flt &&& 0x7F, z := z } :: s.responses := rfl

@[simp] theorem raise_v (c : Cause) (w : CmdWord) (s : State) : (raise c w s).v = s.v := rfl
@[simp] theorem raise_t (c : Cause) (w : CmdWord) (s : State) : (raise c w s).t = s.t := rfl
@[simp] theorem raise_tlen (c : Cause) (w : CmdWord) (s : State) : (raise c w s).tlen = s.tlen := rfl
@[simp] theorem raise_flt (c : Cause) (w : CmdWord) (s : State) : (raise c w s).flt = c.code := rfl
@[simp] theorem raise_finfo (c : Cause) (w : CmdWord) (s : State) : (raise c w s).finfo = w := rfl
@[simp] theorem raise_inputs (c : Cause) (w : CmdWord) (s : State) : (raise c w s).inputs = s.inputs := rfl
@[simp] theorem raise_responses (c : Cause) (w : CmdWord) (s : State) : (raise c w s).responses = { st := 0x80 ||| c.code, z := 0 } :: s.responses := rfl

@[simp] theorem refuseHalted_v (s : State) : (refuseHalted s).v = s.v := rfl
@[simp] theorem refuseHalted_t (s : State) : (refuseHalted s).t = s.t := rfl
@[simp] theorem refuseHalted_tlen (s : State) : (refuseHalted s).tlen = s.tlen := rfl
@[simp] theorem refuseHalted_flt (s : State) : (refuseHalted s).flt = s.flt := rfl
@[simp] theorem refuseHalted_finfo (s : State) : (refuseHalted s).finfo = s.finfo := rfl
@[simp] theorem refuseHalted_inputs (s : State) : (refuseHalted s).inputs = s.inputs := rfl
@[simp] theorem refuseHalted_responses (s : State) : (refuseHalted s).responses = { st := 0x80 ||| s.flt, z := 0 } :: s.responses := rfl

@[simp] theorem resetUnit_v (s : State) : (resetUnit s).v = Vector.replicate 8 0 := rfl
@[simp] theorem resetUnit_t (s : State) : (resetUnit s).t = Vector.replicate 48 0 := rfl
@[simp] theorem resetUnit_tlen (s : State) : (resetUnit s).tlen = 0 := rfl
@[simp] theorem resetUnit_flt (s : State) : (resetUnit s).flt = 0 := rfl
@[simp] theorem resetUnit_finfo (s : State) : (resetUnit s).finfo = 0 := rfl
@[simp] theorem resetUnit_inputs (s : State) : (resetUnit s).inputs = s.inputs := rfl
@[simp] theorem resetUnit_responses (s : State) : (resetUnit s).responses = s.responses := rfl

@[simp] theorem present_v (p : Packet) (s : State) : (present p s).v = s.v := rfl
@[simp] theorem present_t (p : Packet) (s : State) : (present p s).t = s.t := rfl
@[simp] theorem present_tlen (p : Packet) (s : State) : (present p s).tlen = s.tlen := rfl
@[simp] theorem present_flt (p : Packet) (s : State) : (present p s).flt = s.flt := rfl
@[simp] theorem present_finfo (p : Packet) (s : State) : (present p s).finfo = s.finfo := rfl
@[simp] theorem present_inputs (p : Packet) (s : State) : (present p s).inputs = .command p :: s.inputs := rfl
@[simp] theorem present_responses (p : Packet) (s : State) : (present p s).responses = s.responses := rfl

end Sys2Proof.Laws
end

