-- ==== Sys2Proof/Laws/Running.lean ====
section
/-! SUPPORT. The shared operations in the running unit, in the vocabulary `Spec` of Safety.lean. -/

namespace Sys2Proof.Laws

open Sys2Proof.Machine

/-- `FLT` of the running unit, as `ST` shows it. -/
theorem status_running {s : State} (h : s.flt = 0) : s.flt &&& 0x7F = 0 := by rw [h]; decide

/-- A command that only answers. -/
theorem done_running {s : State} (h : s.flt = 0) (z : Limb) : done s z = .next (Spec.executed s z) := by
  rw [done_eq, respond, status_running h]; rfl

/-- A command that writes one value register. -/
theorem done_writeV_running {s : State} (h : s.flt = 0) (r : Reg) (x : Value) :
    done (writeV s r x) 0 = .next (Spec.wrote s r x) := by
  rw [done_eq, respond, writeV_flt, status_running h]; rfl

/-- A command that writes two. -/
theorem done_writeV_writeV_running {s : State} (h : s.flt = 0) (r q : Reg) (x y : Value) :
    done (writeV (writeV s r x) q y) 0 = .next (Spec.wroteBoth s r x q y) := by
  rw [done_eq, respond, writeV_flt, writeV_flt, status_running h]; rfl

/-- A command that faults. -/
theorem violation_running (c : Cause) (i : Instr) (s : State) {w : CmdWord} (hw : encodeWord i = w) :
    violation c i s = .next (Spec.faulted s c.code w) := by
  rw [violation_eq, hw]; rfl

/-- The command word of an instruction, as R71's sum of its fields. -/
theorem encodeWord_eq_word (i : Instr) (h : (encodeFields i).z4 = 0) :
    encodeWord i = Spec.word (encodeFields i).opc.toNat (encodeFields i).rd.toNat (encodeFields i).ra.toNat
      (encodeFields i).rb.toNat (encodeFields i).re.toNat (encodeFields i).fl.toNat :=
  packWord_eq_word _ h

/-- The amount of a shift in [0, 128), as the barrel takes it (spec/42_shift_rotate.md R140). -/
theorem shiftAmount_some {x : Limb} (h0 : 0 ≤ x.toInt) (h1 : x.toInt < 128) :
    shiftAmount x = some ⟨x.toInt.toNat, by omega⟩ := by
  rw [shiftAmount, dif_pos ⟨h0, h1⟩]

/-- Any other amount. -/
theorem shiftAmount_none {x : Limb} (h : x.toInt < 0 ∨ 128 ≤ x.toInt) : shiftAmount x = none := by
  rw [shiftAmount, dif_neg (by omega)]

/-- Truncation of an exact quotient is the division of the signed view (R195). -/
theorem truncate_div (a b : ℤ) : Spec.truncate ((a : ℚ) / b) = a.tdiv b := by
  unfold Spec.truncate
  rcases Int.lt_trichotomy b 0 with hb | hb | hb
  · obtain ⟨c, rfl⟩ : ∃ c, b = -c := ⟨-b, by ring⟩
    have hc : 0 < c := by omega
    have hcq : (0 : ℚ) < c := by exact_mod_cast hc
    rw [Int.tdiv_neg]
    push_cast
    rw [div_neg]
    rcases Int.lt_or_le 0 a with ha | ha
    · have haq : (0 : ℚ) < a := by exact_mod_cast ha
      rw [if_neg (by have := div_pos haq hcq; linarith), Int.ceil_neg]
      rw [Int.tdiv_eq_ediv_of_nonneg ha.le]
      congr 1
      exact Rat.floor_intCast_div_natCast a c.toNat |> fun h => by
        have : ((c.toNat : ℕ) : ℤ) = c := by omega
        have h2 : ((c.toNat : ℕ) : ℚ) = c := by exact_mod_cast this
        rw [h2] at h; rw [h, this]
    · have haq : (a : ℚ) ≤ 0 := by exact_mod_cast ha
      rw [if_pos (by have := div_nonpos_of_nonpos_of_nonneg haq hcq.le; linarith)]
      obtain ⟨d, rfl⟩ : ∃ d, a = -d := ⟨-a, by ring⟩
      rw [Int.neg_tdiv, Int.tdiv_eq_ediv_of_nonneg (by omega : 0 ≤ d), neg_neg]
      push_cast
      rw [neg_div, neg_neg]
      exact Rat.floor_intCast_div_natCast d c.toNat |> fun h => by
        have : ((c.toNat : ℕ) : ℤ) = c := by omega
        have h2 : ((c.toNat : ℕ) : ℚ) = c := by exact_mod_cast this
        rw [h2] at h; rw [h, this]
  · subst hb; simp
  · have hcq : (0 : ℚ) < b := by exact_mod_cast hb
    rcases Int.lt_or_le a 0 with ha | ha
    · have haq : (a : ℚ) < 0 := by exact_mod_cast ha
      rw [if_neg (by have := div_neg_of_neg_of_pos haq hcq; linarith)]
      obtain ⟨d, rfl⟩ : ∃ d, a = -d := ⟨-a, by ring⟩
      rw [Int.neg_tdiv, Int.tdiv_eq_ediv_of_nonneg (by omega : 0 ≤ d)]
      push_cast
      rw [neg_div, Int.ceil_neg]
      congr 1
      exact Rat.floor_intCast_div_natCast d b.toNat |> fun h => by
        have : ((b.toNat : ℕ) : ℤ) = b := by omega
        have h2 : ((b.toNat : ℕ) : ℚ) = b := by exact_mod_cast this
        rw [h2] at h; rw [h, this]
    · have haq : (0 : ℚ) ≤ a := by exact_mod_cast ha
      rw [if_pos (by positivity), Int.tdiv_eq_ediv_of_nonneg ha]
      exact Rat.floor_intCast_div_natCast a b.toNat |> fun h => by
        have : ((b.toNat : ℕ) : ℤ) = b := by omega
        have h2 : ((b.toNat : ℕ) : ℚ) = b := by exact_mod_cast this
        rw [h2] at h; rw [h, this]

/-- A command word the decoder refuses raises `ILLEGAL` in the running unit (R303). -/
theorem raisesIllegal_of_decode {w : CmdWord} {e : Illegal} (h : ∀ x y, decode { cw := w, x := x, y := y } = .error e) :
    Spec.RaisesIllegal w := by
  intro x y s hs
  have h1 : step (present { cw := w, x := x, y := y } s) = runPacket { cw := w, x := x, y := y } s := rfl
  rw [h1, runPacket_running _ hs, h]
  rfl

end Sys2Proof.Laws
end

