-- ==== Sys2Proof/Laws/Outcomes.lean ====
section
/-! SUPPORT. Everything an instruction, a packet and a step can do, said once: later proofs take these cases and never unfold the
dispatch. -/

namespace Sys2Proof.Laws

open Sys2Proof.Machine

/-- What `exec` can answer: it only responds, it writes its one destination, its two, the text buffer, or it faults. -/
inductive ExecCase (i : Instr) (s : State) : Result → Prop
  | reads (z : Limb) (h : Spec.readsOnly i = true) (hf : Spec.neverFaults i = true) (hd : Spec.dests i = []) :
      ExecCase i s (.next (respond s z))
  | writes (r : Reg) (x : Value) (h : Spec.hasResult i = false) (hd : Spec.dests i = [r]) :
      ExecCase i s (.next (respond (writeV s r x) 0))
  | writesBoth (r q : Reg) (x y : Value) (h : Spec.hasResult i = false) (hd : Spec.dests i = [r, q]) :
      ExecCase i s (.next (respond (writeV (writeV s r x) q y) 0))
  | formats (ra : Reg) (base : Base) (sg uc sb sp : Bool) (h : i = .fmt ra base sg uc sb sp) :
      ExecCase i s (.next (respond (writeText s (formatText base sg uc sb sp s.v[ra]))
        (BitVec.ofNat 64 (formatText base sg uc sb sp s.v[ra]).length)))
  | faults (c : Cause) (hf : Spec.neverFaults i = false) :
      ExecCase i s (.next (raise c (encodeWord i) s))

theorem exec_case (i : Instr) (s : State) : ExecCase i s (exec i s) := by
  cases i with
  | mkhl rd x y => exact .writes rd _ rfl rfl
  | gethi ra => exact .reads _ rfl rfl rfl
  | getlo ra => exact .reads _ rfl rfl rfl
  | ldc rd k => exact .writes rd _ rfl rfl
  | mov rd ra => exact .writes rd _ rfl rfl
  | fromint rd wd sg x => exact .writes rd _ rfl rfl
  | toint ra wd sg => exact .reads _ rfl rfl rfl
  | add rd ra rb => exact .writes rd (add128 s.v[ra] s.v[rb]) rfl rfl
  | sub rd ra rb => exact .writes rd (sub128 s.v[ra] s.v[rb]) rfl rfl
  | mul rd ra rb => exact .writes rd (mul128 s.v[ra] s.v[rb]) rfl rfl
  | neg rd ra => exact .writes rd _ rfl rfl
  | negs rd ra =>
    rw [exec_negs, execNegs]
    split
    · exact .faults _ rfl
    · exact .writes rd _ rfl rfl
  | divu rd ra rb =>
    rw [exec_divu, execDivu]
    split
    · exact .faults _ rfl
    · exact .writes rd _ rfl rfl
  | modu rd ra rb =>
    rw [exec_modu, execModu]
    split
    · exact .faults _ rfl
    · exact .writes rd _ rfl rfl
  | divmodu rd re ra rb =>
    rw [exec_divmodu, execDivmodu]
    split
    · exact .faults .illegal rfl
    · simp only
      split
      · exact .faults _ rfl
      · exact .writesBoth rd re _ _ rfl rfl
  | divs rd ra rb =>
    rw [exec_divs, execDivs]
    split
    · exact .faults _ rfl
    · split
      · exact .faults _ rfl
      · exact .writes rd _ rfl rfl
  | mods rd ra rb =>
    rw [exec_mods, execMods]
    split
    · exact .faults _ rfl
    · split
      · exact .faults _ rfl
      · exact .writes rd _ rfl rfl
  | divmods rd re ra rb =>
    rw [exec_divmods, execDivmods]
    split
    · exact .faults .illegal rfl
    · simp only
      split
      · exact .faults _ rfl
      · split
        · exact .faults _ rfl
        · exact .writesBoth rd re _ _ rfl rfl
  | shl rd ra x =>
    rw [exec_shl, execShl]
    split
    · exact .faults _ rfl
    · exact .writes rd _ rfl rfl
  | shr rd ra x =>
    rw [exec_shr, execShr]
    split
    · exact .faults _ rfl
    · exact .writes rd _ rfl rfl
  | sar rd ra x =>
    rw [exec_sar, execSar]
    split
    · exact .faults _ rfl
    · exact .writes rd _ rfl rfl
  | rol rd ra x =>
    rw [exec_rol, execRol]
    split
    · exact .faults _ rfl
    · exact .writes rd _ rfl rfl
  | ror rd ra x =>
    rw [exec_ror, execRor]
    split
    · exact .faults _ rfl
    · exact .writes rd _ rfl rfl
  | and rd ra rb => exact .writes rd _ rfl rfl
  | or rd ra rb => exact .writes rd _ rfl rfl
  | xor rd ra rb => exact .writes rd _ rfl rfl
  | not rd ra => exact .writes rd _ rfl rfl
  | eq ra rb => exact .reads _ rfl rfl rfl
  | ne ra rb => exact .reads _ rfl rfl rfl
  | ltu ra rb => exact .reads _ rfl rfl rfl
  | leu ra rb => exact .reads _ rfl rfl rfl
  | gtu ra rb => exact .reads _ rfl rfl rfl
  | geu ra rb => exact .reads _ rfl rfl rfl
  | lts ra rb => exact .reads _ rfl rfl rfl
  | les ra rb => exact .reads _ rfl rfl rfl
  | gts ra rb => exact .reads _ rfl rfl rfl
  | ges ra rb => exact .reads _ rfl rfl rfl
  | fromfu rd fp x =>
    rw [exec_fromfu, execFromfu]
    split
    · exact .faults _ rfl
    · exact .writes rd _ rfl rfl
  | fromfs rd fp x =>
    rw [exec_fromfs, execFromfs]
    split
    · exact .faults _ rfl
    · exact .writes rd _ rfl rfl
  | tofu ra fp => exact .reads _ rfl rfl rfl
  | tofs ra fp => exact .reads _ rfl rfl rfl
  | fmt ra base sg uc sb sp => exact .formats ra base sg uc sb sp rfl
  | rdtxt k => exact .reads _ rfl rfl rfl
  | rdcr n => exact .reads _ rfl rfl rfl

/-- What the unit can do with a packet (spec/30_encoding.md R81): execute it, refuse it halted, or fault it as illegal. -/
inductive PacketCase (p : Packet) (s : State) : Result → Prop
  | executes (i : Instr) (hd : decode p = .ok i) (h : s.flt = 0 ∨ ∃ n, i = .rdcr n) : PacketCase p s (exec i s)
  | refuses (h : s.flt ≠ 0) (hn : ∀ n, decode p ≠ .ok (.rdcr n)) : PacketCase p s (.next (refuseHalted s))
  | illegal (e : Illegal) (hd : decode p = .error e) (h : s.flt = 0) : PacketCase p s (.next (raise .illegal p.cw s))

theorem runPacket_case (p : Packet) (s : State) : PacketCase p s (runPacket p s) := by
  rw [runPacket]
  split
  · rename_i hh
    rw [halted_iff] at hh
    split
    · rename_i i hd
      cases i with
      | rdcr n => exact .executes _ hd (.inr ⟨n, rfl⟩)
      | _ => exact .refuses hh fun n e => by rw [hd] at e; cases e
    · rename_i e hd
      exact .refuses hh fun n h => by rw [hd] at h; cases h
  · rename_i hh
    have h0 : s.flt = 0 := by
      by_contra h
      exact hh ((halted_iff s).mpr h)
    split
    · rename_i i hd
      exact .executes i hd (.inl h0)
    · rename_i e hd
      exact .illegal e hd h0

end Sys2Proof.Laws
end

