-- ==== Sys2Proof/Laws/PerInstr.lean ====
section
/-! SUPPORT. Laws stated for every instruction, one lemma per constructor. Family TableRow: the command word of an instruction
selects its own row of the opcode table, `w & mask = match` (spec/30_encoding.md R73, R74). -/

namespace Sys2Proof.Laws

/-- `mask` of the instruction's row of R73. -/
def rowMask : Instr → CmdWord
  | .mkhl _ _ _ => 0xFF1FFFFF
  | .gethi _ => 0xFFE3FFFF
  | .getlo _ => 0xFFE3FFFF
  | .ldc _ _ => 0xFF1FFFCF
  | .mov _ _ => 0xFF03FFFF
  | .fromint _ _ _ _ => 0xFF1FFF8F
  | .toint _ _ _ => 0xFFE3FF8F
  | .add _ _ _ => 0xFF007FFF
  | .sub _ _ _ => 0xFF007FFF
  | .mul _ _ _ => 0xFF007FFF
  | .neg _ _ => 0xFF03FFFF
  | .negs _ _ => 0xFF03FFFF
  | .divu _ _ _ => 0xFF007FFF
  | .modu _ _ _ => 0xFF007FFF
  | .divmodu _ _ _ _ => 0xFF000FFF
  | .divs _ _ _ => 0xFF007FFF
  | .mods _ _ _ => 0xFF007FFF
  | .divmods _ _ _ _ => 0xFF000FFF
  | .shl _ _ _ => 0xFF03FFFF
  | .shr _ _ _ => 0xFF03FFFF
  | .sar _ _ _ => 0xFF03FFFF
  | .rol _ _ _ => 0xFF03FFFF
  | .ror _ _ _ => 0xFF03FFFF
  | .and _ _ _ => 0xFF007FFF
  | .or _ _ _ => 0xFF007FFF
  | .xor _ _ _ => 0xFF007FFF
  | .not _ _ => 0xFF03FFFF
  | .eq _ _ => 0xFFE07FFF
  | .ne _ _ => 0xFFE07FFF
  | .ltu _ _ => 0xFFE07FFF
  | .leu _ _ => 0xFFE07FFF
  | .gtu _ _ => 0xFFE07FFF
  | .geu _ _ => 0xFFE07FFF
  | .lts _ _ => 0xFFE07FFF
  | .les _ _ => 0xFFE07FFF
  | .gts _ _ => 0xFFE07FFF
  | .ges _ _ => 0xFFE07FFF
  | .fromfu _ _ _ => 0xFF1FFFEF
  | .fromfs _ _ _ => 0xFF1FFFEF
  | .tofu _ _ => 0xFFE3FFEF
  | .tofs _ _ => 0xFFE3FFEF
  | .fmt _ _ _ _ _ _ => 0xFFE3FC0F
  | .rdtxt _ => 0xFFFFFF8F
  | .rdcr _ => 0xFFFFFFCF

/-- `match` of the instruction's row of R73. -/
def rowMatch : Instr → CmdWord
  | .mkhl _ _ _ => 0x01000000
  | .gethi _ => 0x02000000
  | .getlo _ => 0x03000000
  | .ldc _ _ => 0x04000000
  | .mov _ _ => 0x05000000
  | .fromint _ _ _ _ => 0x06000000
  | .toint _ _ _ => 0x07000000
  | .add _ _ _ => 0x10000000
  | .sub _ _ _ => 0x11000000
  | .mul _ _ _ => 0x12000000
  | .neg _ _ => 0x13000000
  | .negs _ _ => 0x14000000
  | .divu _ _ _ => 0x18000000
  | .modu _ _ _ => 0x19000000
  | .divmodu _ _ _ _ => 0x1A000000
  | .divs _ _ _ => 0x1C000000
  | .mods _ _ _ => 0x1D000000
  | .divmods _ _ _ _ => 0x1E000000
  | .shl _ _ _ => 0x20000000
  | .shr _ _ _ => 0x21000000
  | .sar _ _ _ => 0x22000000
  | .rol _ _ _ => 0x23000000
  | .ror _ _ _ => 0x24000000
  | .and _ _ _ => 0x28000000
  | .or _ _ _ => 0x29000000
  | .xor _ _ _ => 0x2A000000
  | .not _ _ => 0x2B000000
  | .eq _ _ => 0x30000000
  | .ne _ _ => 0x31000000
  | .ltu _ _ => 0x32000000
  | .leu _ _ => 0x33000000
  | .gtu _ _ => 0x34000000
  | .geu _ _ => 0x35000000
  | .lts _ _ => 0x36000000
  | .les _ _ => 0x37000000
  | .gts _ _ => 0x38000000
  | .ges _ _ => 0x39000000
  | .fromfu _ _ _ => 0x40000000
  | .fromfs _ _ _ => 0x41000000
  | .tofu _ _ => 0x42000000
  | .tofs _ _ => 0x43000000
  | .fmt _ _ _ _ _ _ => 0x50000000
  | .rdtxt _ => 0x51000000
  | .rdcr _ => 0x60000000

/-- The row of R73 the command word of `i` selects is the row of `i`. -/
abbrev TableRow.Statement (i : Instr) : Prop := encodeWord i &&& rowMask i = rowMatch i

/-- Masking a packed word masks its fields. -/
theorem packWord_and (f : Fields) (m : CmdWord) :
    packWord f &&& m =
      packWord { opc := f.opc &&& (unpackWord m).opc, rd := f.rd &&& (unpackWord m).rd,
                 ra := f.ra &&& (unpackWord m).ra, rb := f.rb &&& (unpackWord m).rb,
                 re := f.re &&& (unpackWord m).re, fl := f.fl &&& (unpackWord m).fl,
                 z4 := f.z4 &&& (unpackWord m).z4 } := by
  have h : unpackWord (packWord f &&& m) =
      { opc := (unpackWord (packWord f)).opc &&& (unpackWord m).opc,
        rd := (unpackWord (packWord f)).rd &&& (unpackWord m).rd,
        ra := (unpackWord (packWord f)).ra &&& (unpackWord m).ra,
        rb := (unpackWord (packWord f)).rb &&& (unpackWord m).rb,
        re := (unpackWord (packWord f)).re &&& (unpackWord m).re,
        fl := (unpackWord (packWord f)).fl &&& (unpackWord m).fl,
        z4 := (unpackWord (packWord f)).z4 &&& (unpackWord m).z4 } := by
    simp only [unpackWord, BitVec.extractLsb'_and]
  rw [unpackWord_packWord] at h
  rw [← h, packWord_unpackWord]

/-- A packed word selects a row when its masked fields are the fields of `match`. -/
theorem masked_eq {f : Fields} {mask mtch : CmdWord}
    (h : ({ opc := f.opc &&& (unpackWord mask).opc, rd := f.rd &&& (unpackWord mask).rd,
            ra := f.ra &&& (unpackWord mask).ra, rb := f.rb &&& (unpackWord mask).rb,
            re := f.re &&& (unpackWord mask).re, fl := f.fl &&& (unpackWord mask).fl,
            z4 := f.z4 &&& (unpackWord mask).z4 } : Fields) = unpackWord mtch) :
    packWord f &&& mask = mtch := by
  rw [packWord_and, h, packWord_unpackWord]

theorem TableRow.mkhl (rd : Reg) (x y : Limb) : TableRow.Statement (.mkhl rd x y) :=
  masked_eq (f := { opc := 0x01, rd := regBits rd })
    (mask := 0xFF1FFFFF) (mtch := 0x01000000) (by simp [unpackWord])

theorem TableRow.gethi (ra : Reg) : TableRow.Statement (.gethi ra) :=
  masked_eq (f := { opc := 0x02, ra := regBits ra })
    (mask := 0xFFE3FFFF) (mtch := 0x02000000) (by simp [unpackWord])

theorem TableRow.getlo (ra : Reg) : TableRow.Statement (.getlo ra) :=
  masked_eq (f := { opc := 0x03, ra := regBits ra })
    (mask := 0xFFE3FFFF) (mtch := 0x03000000) (by simp [unpackWord])

theorem TableRow.ldc (rd : Reg) (k : Konst) : TableRow.Statement (.ldc rd k) :=
  masked_eq (f := { opc := 0x04, rd := regBits rd, fl := 0#6 ++ konstBits k })
    (mask := 0xFF1FFFCF) (mtch := 0x04000000) (by simp [unpackWord]; cases k <;> decide)

theorem TableRow.mov (rd ra : Reg) : TableRow.Statement (.mov rd ra) :=
  masked_eq (f := { opc := 0x05, rd := regBits rd, ra := regBits ra })
    (mask := 0xFF03FFFF) (mtch := 0x05000000) (by simp [unpackWord])

theorem TableRow.fromint (rd : Reg) (wd : NativeWidth) (sg : Bool) (x : Limb) : TableRow.Statement (.fromint rd wd sg x) :=
  masked_eq (f := { opc := 0x06, rd := regBits rd, fl := 0#5 ++ bit sg ++ widthBits wd })
    (mask := 0xFF1FFF8F) (mtch := 0x06000000) (by simp [unpackWord]; cases wd <;> cases sg <;> decide)

theorem TableRow.toint (ra : Reg) (wd : NativeWidth) (sg : Bool) : TableRow.Statement (.toint ra wd sg) :=
  masked_eq (f := { opc := 0x07, ra := regBits ra, fl := 0#5 ++ bit sg ++ widthBits wd })
    (mask := 0xFFE3FF8F) (mtch := 0x07000000) (by simp [unpackWord]; cases wd <;> cases sg <;> decide)

theorem TableRow.add (rd ra rb : Reg) : TableRow.Statement (.add rd ra rb) :=
  masked_eq (f := { opc := 0x10, rd := regBits rd, ra := regBits ra, rb := regBits rb })
    (mask := 0xFF007FFF) (mtch := 0x10000000) (by simp [unpackWord])

theorem TableRow.sub (rd ra rb : Reg) : TableRow.Statement (.sub rd ra rb) :=
  masked_eq (f := { opc := 0x11, rd := regBits rd, ra := regBits ra, rb := regBits rb })
    (mask := 0xFF007FFF) (mtch := 0x11000000) (by simp [unpackWord])

theorem TableRow.mul (rd ra rb : Reg) : TableRow.Statement (.mul rd ra rb) :=
  masked_eq (f := { opc := 0x12, rd := regBits rd, ra := regBits ra, rb := regBits rb })
    (mask := 0xFF007FFF) (mtch := 0x12000000) (by simp [unpackWord])

theorem TableRow.neg (rd ra : Reg) : TableRow.Statement (.neg rd ra) :=
  masked_eq (f := { opc := 0x13, rd := regBits rd, ra := regBits ra })
    (mask := 0xFF03FFFF) (mtch := 0x13000000) (by simp [unpackWord])

theorem TableRow.negs (rd ra : Reg) : TableRow.Statement (.negs rd ra) :=
  masked_eq (f := { opc := 0x14, rd := regBits rd, ra := regBits ra })
    (mask := 0xFF03FFFF) (mtch := 0x14000000) (by simp [unpackWord])

theorem TableRow.divu (rd ra rb : Reg) : TableRow.Statement (.divu rd ra rb) :=
  masked_eq (f := { opc := 0x18, rd := regBits rd, ra := regBits ra, rb := regBits rb })
    (mask := 0xFF007FFF) (mtch := 0x18000000) (by simp [unpackWord])

theorem TableRow.modu (rd ra rb : Reg) : TableRow.Statement (.modu rd ra rb) :=
  masked_eq (f := { opc := 0x19, rd := regBits rd, ra := regBits ra, rb := regBits rb })
    (mask := 0xFF007FFF) (mtch := 0x19000000) (by simp [unpackWord])

theorem TableRow.divmodu (rd re ra rb : Reg) : TableRow.Statement (.divmodu rd re ra rb) :=
  masked_eq (f := { opc := 0x1A, rd := regBits rd, ra := regBits ra, rb := regBits rb, re := regBits re })
    (mask := 0xFF000FFF) (mtch := 0x1A000000) (by simp [unpackWord])

theorem TableRow.divs (rd ra rb : Reg) : TableRow.Statement (.divs rd ra rb) :=
  masked_eq (f := { opc := 0x1C, rd := regBits rd, ra := regBits ra, rb := regBits rb })
    (mask := 0xFF007FFF) (mtch := 0x1C000000) (by simp [unpackWord])

theorem TableRow.mods (rd ra rb : Reg) : TableRow.Statement (.mods rd ra rb) :=
  masked_eq (f := { opc := 0x1D, rd := regBits rd, ra := regBits ra, rb := regBits rb })
    (mask := 0xFF007FFF) (mtch := 0x1D000000) (by simp [unpackWord])

theorem TableRow.divmods (rd re ra rb : Reg) : TableRow.Statement (.divmods rd re ra rb) :=
  masked_eq (f := { opc := 0x1E, rd := regBits rd, ra := regBits ra, rb := regBits rb, re := regBits re })
    (mask := 0xFF000FFF) (mtch := 0x1E000000) (by simp [unpackWord])

theorem TableRow.shl (rd ra : Reg) (x : Limb) : TableRow.Statement (.shl rd ra x) :=
  masked_eq (f := { opc := 0x20, rd := regBits rd, ra := regBits ra })
    (mask := 0xFF03FFFF) (mtch := 0x20000000) (by simp [unpackWord])

theorem TableRow.shr (rd ra : Reg) (x : Limb) : TableRow.Statement (.shr rd ra x) :=
  masked_eq (f := { opc := 0x21, rd := regBits rd, ra := regBits ra })
    (mask := 0xFF03FFFF) (mtch := 0x21000000) (by simp [unpackWord])

theorem TableRow.sar (rd ra : Reg) (x : Limb) : TableRow.Statement (.sar rd ra x) :=
  masked_eq (f := { opc := 0x22, rd := regBits rd, ra := regBits ra })
    (mask := 0xFF03FFFF) (mtch := 0x22000000) (by simp [unpackWord])

theorem TableRow.rol (rd ra : Reg) (x : Limb) : TableRow.Statement (.rol rd ra x) :=
  masked_eq (f := { opc := 0x23, rd := regBits rd, ra := regBits ra })
    (mask := 0xFF03FFFF) (mtch := 0x23000000) (by simp [unpackWord])

theorem TableRow.ror (rd ra : Reg) (x : Limb) : TableRow.Statement (.ror rd ra x) :=
  masked_eq (f := { opc := 0x24, rd := regBits rd, ra := regBits ra })
    (mask := 0xFF03FFFF) (mtch := 0x24000000) (by simp [unpackWord])

theorem TableRow.and (rd ra rb : Reg) : TableRow.Statement (.and rd ra rb) :=
  masked_eq (f := { opc := 0x28, rd := regBits rd, ra := regBits ra, rb := regBits rb })
    (mask := 0xFF007FFF) (mtch := 0x28000000) (by simp [unpackWord])

theorem TableRow.or (rd ra rb : Reg) : TableRow.Statement (.or rd ra rb) :=
  masked_eq (f := { opc := 0x29, rd := regBits rd, ra := regBits ra, rb := regBits rb })
    (mask := 0xFF007FFF) (mtch := 0x29000000) (by simp [unpackWord])

theorem TableRow.xor (rd ra rb : Reg) : TableRow.Statement (.xor rd ra rb) :=
  masked_eq (f := { opc := 0x2A, rd := regBits rd, ra := regBits ra, rb := regBits rb })
    (mask := 0xFF007FFF) (mtch := 0x2A000000) (by simp [unpackWord])

theorem TableRow.not (rd ra : Reg) : TableRow.Statement (.not rd ra) :=
  masked_eq (f := { opc := 0x2B, rd := regBits rd, ra := regBits ra })
    (mask := 0xFF03FFFF) (mtch := 0x2B000000) (by simp [unpackWord])

theorem TableRow.eq (ra rb : Reg) : TableRow.Statement (.eq ra rb) :=
  masked_eq (f := { opc := 0x30, ra := regBits ra, rb := regBits rb })
    (mask := 0xFFE07FFF) (mtch := 0x30000000) (by simp [unpackWord])

theorem TableRow.ne (ra rb : Reg) : TableRow.Statement (.ne ra rb) :=
  masked_eq (f := { opc := 0x31, ra := regBits ra, rb := regBits rb })
    (mask := 0xFFE07FFF) (mtch := 0x31000000) (by simp [unpackWord])

theorem TableRow.ltu (ra rb : Reg) : TableRow.Statement (.ltu ra rb) :=
  masked_eq (f := { opc := 0x32, ra := regBits ra, rb := regBits rb })
    (mask := 0xFFE07FFF) (mtch := 0x32000000) (by simp [unpackWord])

theorem TableRow.leu (ra rb : Reg) : TableRow.Statement (.leu ra rb) :=
  masked_eq (f := { opc := 0x33, ra := regBits ra, rb := regBits rb })
    (mask := 0xFFE07FFF) (mtch := 0x33000000) (by simp [unpackWord])

theorem TableRow.gtu (ra rb : Reg) : TableRow.Statement (.gtu ra rb) :=
  masked_eq (f := { opc := 0x34, ra := regBits ra, rb := regBits rb })
    (mask := 0xFFE07FFF) (mtch := 0x34000000) (by simp [unpackWord])

theorem TableRow.geu (ra rb : Reg) : TableRow.Statement (.geu ra rb) :=
  masked_eq (f := { opc := 0x35, ra := regBits ra, rb := regBits rb })
    (mask := 0xFFE07FFF) (mtch := 0x35000000) (by simp [unpackWord])

theorem TableRow.lts (ra rb : Reg) : TableRow.Statement (.lts ra rb) :=
  masked_eq (f := { opc := 0x36, ra := regBits ra, rb := regBits rb })
    (mask := 0xFFE07FFF) (mtch := 0x36000000) (by simp [unpackWord])

theorem TableRow.les (ra rb : Reg) : TableRow.Statement (.les ra rb) :=
  masked_eq (f := { opc := 0x37, ra := regBits ra, rb := regBits rb })
    (mask := 0xFFE07FFF) (mtch := 0x37000000) (by simp [unpackWord])

theorem TableRow.gts (ra rb : Reg) : TableRow.Statement (.gts ra rb) :=
  masked_eq (f := { opc := 0x38, ra := regBits ra, rb := regBits rb })
    (mask := 0xFFE07FFF) (mtch := 0x38000000) (by simp [unpackWord])

theorem TableRow.ges (ra rb : Reg) : TableRow.Statement (.ges ra rb) :=
  masked_eq (f := { opc := 0x39, ra := regBits ra, rb := regBits rb })
    (mask := 0xFFE07FFF) (mtch := 0x39000000) (by simp [unpackWord])

theorem TableRow.fromfu (rd : Reg) (fp : FpFormat) (x : Limb) : TableRow.Statement (.fromfu rd fp x) :=
  masked_eq (f := { opc := 0x40, rd := regBits rd, fl := 0#7 ++ bit (fpBit fp) })
    (mask := 0xFF1FFFEF) (mtch := 0x40000000) (by simp [unpackWord]; cases fp <;> decide)

theorem TableRow.fromfs (rd : Reg) (fp : FpFormat) (x : Limb) : TableRow.Statement (.fromfs rd fp x) :=
  masked_eq (f := { opc := 0x41, rd := regBits rd, fl := 0#7 ++ bit (fpBit fp) })
    (mask := 0xFF1FFFEF) (mtch := 0x41000000) (by simp [unpackWord]; cases fp <;> decide)

theorem TableRow.tofu (ra : Reg) (fp : FpFormat) : TableRow.Statement (.tofu ra fp) :=
  masked_eq (f := { opc := 0x42, ra := regBits ra, fl := 0#7 ++ bit (fpBit fp) })
    (mask := 0xFFE3FFEF) (mtch := 0x42000000) (by simp [unpackWord]; cases fp <;> decide)

theorem TableRow.tofs (ra : Reg) (fp : FpFormat) : TableRow.Statement (.tofs ra fp) :=
  masked_eq (f := { opc := 0x43, ra := regBits ra, fl := 0#7 ++ bit (fpBit fp) })
    (mask := 0xFFE3FFEF) (mtch := 0x43000000) (by simp [unpackWord]; cases fp <;> decide)

theorem TableRow.fmt (ra : Reg) (base : Base) (sg uc sb sp : Bool) : TableRow.Statement (.fmt ra base sg uc sb sp) :=
  masked_eq (f := { opc := 0x50, ra := regBits ra, fl := 0#2 ++ bit sp ++ bit sb ++ bit uc ++ bit sg ++ baseBits base })
    (mask := 0xFFE3FC0F) (mtch := 0x50000000) (by simp [unpackWord]; cases base <;> cases sg <;> cases uc <;> cases sb <;> cases sp <;> decide)

theorem TableRow.rdtxt (k : TextWord) : TableRow.Statement (.rdtxt k) := by
  revert k; decide

theorem TableRow.rdcr (n : CtrlReg) : TableRow.Statement (.rdcr n) :=
  masked_eq (f := { opc := 0x60, fl := 0#6 ++ ctrlRegBits n })
    (mask := 0xFFFFFFCF) (mtch := 0x60000000) (by simp [unpackWord]; cases n <;> decide)

end Sys2Proof.Laws
end

