-- ==== Sys2Proof/Tests/Slice0.lean ====
section
/-! SUPPORT. Tests and witnesses. Every expected value is from spec/95 to 98 (test vectors and programs), cited by section; the
witnesses show that the hypotheses of each obligation can be met, each clause at a boundary of its range. -/

namespace Sys2Proof.Tests

-- The theorems are elaborated one after another: each starts a thread otherwise, and there are many.
set_option Elab.async false

open Sys2Proof.Machine

/-! ## Well-formedness (30_encoding.md R75 d) -/

theorem test_divmodu_equal_destinations : (Instr.divmodu 2 2 0 1).wellFormed = false := by decide

theorem test_divmods_equal_destinations : (Instr.divmods 0 0 0 0).wellFormed = false := by decide

theorem test_divmods_sources_may_repeat : (Instr.divmods 0 1 0 0).wellFormed = true := by decide

/-! ## Decoding: the words of 97_test_vectors section 2.9, one at least for every constructor; the
160-bit numbers put the payload words above `CW` (log 8) -/

theorem test_decode_construct :
    decodeTableWord 160 (0x01E00000 + 0xAAAA * 2 ^ 32 + 0x5555 * 2 ^ 96) = some (.mkhl 7 0xAAAA 0x5555) ∧
    decodeTableWord 32 0x02140000 = some (.gethi 5) ∧
    decodeTableWord 32 0x03180000 = some (.getlo 6) ∧
    decodeTableWord 32 0x04200000 = some (.ldc 1 .umax) ∧
    decodeTableWord 32 0x04400010 = some (.ldc 2 .smax) ∧
    decodeTableWord 32 0x04600020 = some (.ldc 3 .smin) ∧
    decodeTableWord 32 0x059C0000 = some (.mov 4 7) ∧
    decodeTableWord 160 (0x06600050 + 0x8000 * 2 ^ 32) = some (.fromint 3 .w16 true 0x8000) ∧
    decodeTableWord 32 0x07080020 = some (.toint 2 .w32 false) := by decide

theorem test_decode_add_sub_mul :
    decodeTableWord 32 0x10298000 = some (.add 1 2 3) ∧
    decodeTableWord 32 0x11970000 = some (.sub 4 5 6) ∧
    decodeTableWord 32 0x12E08000 = some (.mul 7 0 1) ∧
    decodeTableWord 32 0x13280000 = some (.neg 1 2) ∧
    decodeTableWord 32 0x14700000 = some (.negs 3 4) := by decide

theorem test_decode_divide :
    decodeTableWord 32 0x18298000 = some (.divu 1 2 3) ∧
    decodeTableWord 32 0x19970000 = some (.modu 4 5 6) ∧
    decodeTableWord 32 0x1A2E2000 = some (.divmodu 1 2 3 4) ∧
    decodeTableWord 32 0x1CFA8000 = some (.divs 7 6 5) ∧
    decodeTableWord 32 0x1D1C8000 = some (.mods 0 7 1) ∧
    decodeTableWord 32 0x1EBC6000 = some (.divmods 5 6 7 0) ∧
    decodeTableWord 32 0x1E001000 = some (.divmods 0 1 0 0) := by decide

theorem test_decode_shift_rotate :
    decodeTableWord 160 (0x20280000 + 0x3 * 2 ^ 32) = some (.shl 1 2 3) ∧
    decodeTableWord 160 (0x21700000 + 0x40 * 2 ^ 32) = some (.shr 3 4 64) ∧
    decodeTableWord 160 (0x22B80000 + 0x7F * 2 ^ 32) = some (.sar 5 6 127) ∧
    decodeTableWord 160 (0x23E00000 + 0x1 * 2 ^ 32) = some (.rol 7 0 1) ∧
    decodeTableWord 160 (0x24240000 + 0x9 * 2 ^ 32) = some (.ror 1 1 9) := by decide

theorem test_decode_bitwise :
    decodeTableWord 32 0x28298000 = some (.and 1 2 3) ∧
    decodeTableWord 32 0x29970000 = some (.or 4 5 6) ∧
    decodeTableWord 32 0x2AFF8000 = some (.xor 7 7 7) ∧
    decodeTableWord 32 0x2B4C0000 = some (.not 2 3) := by decide

theorem test_decode_compare :
    decodeTableWord 32 0x30050000 = some (.eq 1 2) ∧
    decodeTableWord 32 0x310E0000 = some (.ne 3 4) ∧
    decodeTableWord 32 0x32170000 = some (.ltu 5 6) ∧
    decodeTableWord 32 0x331C0000 = some (.leu 7 0) ∧
    decodeTableWord 32 0x34078000 = some (.gtu 1 7) ∧
    decodeTableWord 32 0x350B0000 = some (.geu 2 6) ∧
    decodeTableWord 32 0x360E8000 = some (.lts 3 5) ∧
    decodeTableWord 32 0x37120000 = some (.les 4 4) ∧
    decodeTableWord 32 0x38158000 = some (.gts 5 3) ∧
    decodeTableWord 32 0x39190000 = some (.ges 6 2) := by decide

theorem test_decode_float :
    decodeTableWord 160 (0x40200010 + 0x3FF0000000000000 * 2 ^ 32) = some (.fromfu 1 .binary64 0x3FF0000000000000) ∧
    decodeTableWord 160 (0x41400000 + 0xBF800000 * 2 ^ 32) = some (.fromfs 2 .binary32 0xBF800000) ∧
    decodeTableWord 32 0x420C0000 = some (.tofu 3 .binary32) ∧
    decodeTableWord 32 0x43100010 = some (.tofs 4 .binary64) := by decide

theorem test_decode_format_system :
    decodeTableWord 32 0x50140240 = some (.fmt 5 .dec true false false true) ∧
    decodeTableWord 32 0x50180110 = some (.fmt 6 .oct false false true false) ∧
    decodeTableWord 32 0x501C01A0 = some (.fmt 7 .hex false true true false) ∧
    decodeTableWord 32 0x51000050 = some (.rdtxt 5) ∧
    decodeTableWord 32 0x60000000 = some (.rdcr .flt) ∧
    decodeTableWord 32 0x60000010 = some (.rdcr .finfo) ∧
    decodeTableWord 32 0x60000020 = some (.rdcr .cfg) := by decide

/-- The name the decoder gives an illegal word. -/
def whyIllegal (cw : CmdWord) : Option Illegal :=
  match decode { cw := cw, x := 0, y := 0 } with
  | .ok _ => none
  | .error e => some e

theorem test_illegal_opcode :
    ([0x00000000, 0xFFFFFFFF, 0x08000000, 0x15000000, 0x1B000000, 0x25000000, 0x3A000000].map whyIllegal).all
      (· == some .unknownOpcode) = true := by decide

theorem test_illegal_must_be_zero :
    ([0x10408001, 0x10409000, 0x10408010, 0x02200000, 0x30208000, 0x04000040, 0x06000080, 0x40000020, 0x50000400, 0x51040000,
      0x20208000].map whyIllegal).all (· == some .mustBeZero) = true := by decide

theorem test_illegal_reserved :
    ([0x04000030, 0x50000030, 0x51000060, 0x51000070, 0x60000030].map whyIllegal).all (· == some .reservedField) = true := by
  decide

theorem test_illegal_equal_destinations :
    ([0x1A40A000, 0x1E000000].map whyIllegal).all (· == some .equalDestinations) = true := by decide

/-! ## One step: the unit running, `V[0]` and `V[1]` given, one packet (96, 97; sections 2.1 to 2.8) -/

/-- The unit after reset with `V[0]` and `V[1]` written. -/
def holding (a b : Value) : State := { State.reset with v := #v[a, b, 0, 0, 0, 0, 0, 0] }

/-- `ST`, `Z`, `V[2]` and `V[3]` after one packet. -/
def ran (cw : CmdWord) (x y : Limb) (a b : Value) : Option (BitVec 8 × Limb × Value × Value) :=
  match step (present { cw := cw, x := x, y := y } (holding a b)) with
  | .next t => t.responses.head?.map fun r => (r.st, r.z, t.v[2], t.v[3])
  | .fault _ => none
  | .refused _ => none

/-! Construction (section 2.1, 98 P1, 95 sections 1.6 and 1.7 f) -/

theorem test_mkhl : ran 0x01400000 0x0123456789ABCDEF 0xFEDCBA9876543210 0 0 = some (0, 0, 0x0123456789ABCDEFFEDCBA9876543210, 0) := by decide +kernel

theorem test_gethi : ran 0x02000000 0 0 0xDEADBEEF000000018000000000000123 0 = some (0, 0xDEADBEEF00000001, 0, 0) := by decide +kernel

theorem test_getlo : ran 0x03000000 0 0 0xDEADBEEF000000018000000000000123 0 = some (0, 0x8000000000000123, 0, 0) := by decide +kernel

theorem test_ldc_smin : ran 0x04400020 0 0 0 0 = some (0, 0, 0x80000000000000000000000000000000, 0) := by decide +kernel

theorem test_ldc_smax : ran 0x04400010 0 0 0 0 = some (0, 0, 0x7FFFFFFFFFFFFFFFFFFFFFFFFFFFFFFF, 0) := by decide +kernel

theorem test_mov : ran 0x05400000 0 0 0x0123456789ABCDEFFEDCBA9876543210 0 = some (0, 0, 0x0123456789ABCDEFFEDCBA9876543210, 0) := by decide +kernel

theorem test_fromint_s32 : ran 0x06400060 0xABCDEF0080000000 0 0 0 = some (0, 0, 0xFFFFFFFFFFFFFFFFFFFFFFFF80000000, 0) := by decide +kernel

theorem test_fromint_u8 : ran 0x06400000 0x1FF 0 0 0 = some (0, 0, 0xFF, 0) := by decide +kernel

theorem test_toint_s16 : ran 0x07000050 0 0 0x000000000000AAAAFFFFFFFF80008080 0 = some (0, 0xFFFFFFFFFFFF8080, 0, 0) := by decide +kernel

theorem test_toint_u32 : ran 0x07000020 0 0 0x000000000000AAAAFFFFFFFF80008080 0 = some (0, 0x80008080, 0, 0) := by decide +kernel

/-! Add, subtract, multiply, negate (section 2.2) -/

theorem test_add_carry : ran 0x10408000 0 0 0x0000000000000000FFFFFFFFFFFFFFFF 1 = some (0, 0, 0x00000000000000010000000000000000, 0) := by decide +kernel

theorem test_add_wraps : ran 0x10408000 0 0 0xFFFFFFFFFFFFFFFFFFFFFFFFFFFFFFFF 1 = some (0, 0, 0, 0) := by decide +kernel

theorem test_sub_borrow : ran 0x11408000 0 0 0x00000000000000010000000000000000 1 = some (0, 0, 0xFFFFFFFFFFFFFFFF, 0) := by decide +kernel

theorem test_mul_cross : ran 0x12408000 0 0 0x0123456789ABCDEFFEDCBA9876543210 0x0FEDCBA987654321123456789ABCDEF0 = some (0, 0, 0xAA6C876160EC6A42236D88FE5618CF00, 0) := by decide +kernel

theorem test_mul_full : ran 0x12408000 0 0 0xFFFFFFFFFFFFFFFF 0xFFFFFFFFFFFFFFFF = some (0, 0, 0xFFFFFFFFFFFFFFFE0000000000000001, 0) := by decide +kernel

theorem test_neg : ran 0x13400000 0 0 0x0000000000000000FFFFFFFFFFFFFFFF 0 = some (0, 0, 0xFFFFFFFFFFFFFFFF0000000000000001, 0) := by decide +kernel

theorem test_negs : ran 0x14400000 0 0 0x7FFFFFFFFFFFFFFFFFFFFFFFFFFFFFFF 0 = some (0, 0, 0x80000000000000000000000000000001, 0) := by decide +kernel

theorem test_negs_overflow : ran 0x14400000 0 0 0x80000000000000000000000000000000 0 = some (0x84, 0, 0, 0) := by decide +kernel

/-! Division (section 2.6, 95 section 1.7) -/

theorem test_divu : ran 0x18408000 0 0 0x0123456789ABCDEFFEDCBA9876543210 0xDEADBEEF = some (0, 0, 0x00000000014EDB42717DCE0520562DA1, 0) := by decide +kernel

theorem test_divu_zero : ran 0x18408000 0 0 0 0 = some (0x82, 0, 0, 0) := by decide +kernel

theorem test_modu : ran 0x19408000 0 0 0x0123456789ABCDEFFEDCBA9876543210 0x00000000000012340000000000005678 = some (0, 0, 0x0000000000000CB7F97520EC5C62F340, 0) := by decide +kernel

theorem test_divmodu : ran 0x1A40B000 0 0 0x4B3B4CA85A86C47A098A224000003039 0x8AC7230489E80000 = some (0, 0, 0x8AC7230489E80000, 0x3039) := by decide +kernel

theorem test_divs : ran 0x1C408000 0 0 0xFFFFFFFFFFFFFFFFFFFFFFFFFFFFFFF9 2 = some (0, 0, 0xFFFFFFFFFFFFFFFFFFFFFFFFFFFFFFFD, 0) := by decide +kernel

theorem test_divs_overflow : ran 0x1C408000 0 0 0x80000000000000000000000000000000 0xFFFFFFFFFFFFFFFFFFFFFFFFFFFFFFFF = some (0x83, 0, 0, 0) := by decide +kernel

theorem test_mods : ran 0x1D408000 0 0 7 0xFFFFFFFFFFFFFFFFFFFFFFFFFFFFFFFE = some (0, 0, 1, 0) := by decide +kernel

theorem test_divmods : ran 0x1E40B000 0 0 0x80000000000000000000000000000000 0x7FFFFFFFFFFFFFFFFFFFFFFFFFFFFFFF = some (0, 0, 0xFFFFFFFFFFFFFFFFFFFFFFFFFFFFFFFF, 0xFFFFFFFFFFFFFFFFFFFFFFFFFFFFFFFF) := by decide +kernel

/-! Shifts and rotates (section 2.3) -/

theorem test_shl : ran 0x20400000 63 0 0x8123456789ABCDEFFEDCBA9876543211 0 = some (0, 0, 0xFF6E5D4C3B2A19088000000000000000, 0) := by decide +kernel

theorem test_shl_amount : ran 0x20400000 128 0 1 0 = some (0x85, 0, 0, 0) := by decide +kernel

theorem test_shr : ran 0x21400000 65 0 0x8123456789ABCDEFFEDCBA9876543211 0 = some (0, 0, 0x00000000000000004091A2B3C4D5E6F7, 0) := by decide +kernel

theorem test_sar : ran 0x22400000 100 0 0x8123456789ABCDEFFEDCBA9876543211 0 = some (0, 0, 0xFFFFFFFFFFFFFFFFFFFFFFFFF8123456, 0) := by decide +kernel

theorem test_sar_minus_seven : ran 0x22400000 1 0 0xFFFFFFFFFFFFFFFFFFFFFFFFFFFFFFF9 0 = some (0, 0, 0xFFFFFFFFFFFFFFFFFFFFFFFFFFFFFFFC, 0) := by decide +kernel

theorem test_rol : ran 0x23400000 100 0 0x8123456789ABCDEFFEDCBA9876543211 0 = some (0, 0, 0x65432118123456789ABCDEFFEDCBA987, 0) := by decide +kernel

theorem test_rol_negative_amount : ran 0x23400000 0xFFFFFFFFFFFFFFFF 0 0x8123456789ABCDEFFEDCBA9876543211 0 = some (0x85, 0, 0, 0) := by decide +kernel

theorem test_ror : ran 0x24400000 100 0 0x8123456789ABCDEFFEDCBA9876543211 0 = some (0, 0, 0x789ABCDEFFEDCBA98765432118123456, 0) := by decide +kernel

/-! Bitwise (section 2.5) -/

theorem test_and : ran 0x28408000 0 0 0x000000000000FF000000000000000F0F 0x0000000000000FF000000000000000FF = some (0, 0, 0x0000000000000F00000000000000000F, 0) := by decide +kernel

theorem test_or : ran 0x29408000 0 0 0x000000000000FF000000000000000F0F 0x0000000000000FF000000000000000FF = some (0, 0, 0x000000000000FFF00000000000000FFF, 0) := by decide +kernel

theorem test_xor : ran 0x2A408000 0 0 0x000000000000FF000000000000000F0F 0x0000000000000FF000000000000000FF = some (0, 0, 0x000000000000F0F00000000000000FF0, 0) := by decide +kernel

theorem test_not : ran 0x2B400000 0 0 0x000000000000FF000000000000000F0F 0x0000000000000FF000000000000000FF = some (0, 0, 0xFFFFFFFFFFFF00FFFFFFFFFFFFFFF0F0, 0) := by decide +kernel

/-! Comparisons (section 2.4) -/

theorem test_eq : ran 0x30008000 0 0 0x0000000000000000FFFFFFFFFFFFFFFF 0x0000000000000000FFFFFFFFFFFFFFFF = some (0, 1, 0, 0) := by decide +kernel

theorem test_ne : ran 0x31008000 0 0 0x00000000000000010000000000000000 0x0000000000000000FFFFFFFFFFFFFFFF = some (0, 1, 0, 0) := by decide +kernel

theorem test_ltu : ran 0x32008000 0 0 0x0000000000000000FFFFFFFFFFFFFFFF 0x00000000000000010000000000000000 = some (0, 1, 0, 0) := by decide +kernel

theorem test_leu : ran 0x33008000 0 0 0x00000000000000010000000000000000 0x0000000000000000FFFFFFFFFFFFFFFF = some (0, 0, 0, 0) := by decide +kernel

theorem test_gtu : ran 0x34008000 0 0 0x80000000000000000000000000000000 0x7FFFFFFFFFFFFFFFFFFFFFFFFFFFFFFF = some (0, 1, 0, 0) := by decide +kernel

theorem test_geu : ran 0x35008000 0 0 0xFFFFFFFFFFFFFFFFFFFFFFFFFFFFFFFF 0 = some (0, 1, 0, 0) := by decide +kernel

theorem test_lts : ran 0x36008000 0 0 0x80000000000000000000000000000000 0x7FFFFFFFFFFFFFFFFFFFFFFFFFFFFFFF = some (0, 1, 0, 0) := by decide +kernel

theorem test_les : ran 0x37008000 0 0 0 0xFFFFFFFFFFFFFFFFFFFFFFFFFFFFFFFF = some (0, 0, 0, 0) := by decide +kernel

theorem test_gts : ran 0x38008000 0 0 0x7FFFFFFFFFFFFFFFFFFFFFFFFFFFFFFF 0x80000000000000000000000000000000 = some (0, 1, 0, 0) := by decide +kernel

theorem test_ges : ran 0x39008000 0 0 0x80000000000000000000000000000000 0xFFFFFFFFFFFFFFFFFFFFFFFFFFFFFFFF = some (0, 0, 0, 0) := by decide +kernel

/-! The float bridge (section 2.8) -/

theorem test_fromfu : ran 0x40400010 0x43F0000000000001 0 0 0 = some (0, 0, 0x00000000000000010000000000001000, 0) := by decide +kernel

theorem test_fromfu_range : ran 0x40400010 0xBFE0000000000000 0 0 0 = some (0x87, 0, 0, 0) := by decide +kernel

theorem test_fromfs : ran 0x41400000 0xFF000000 0 0 0 = some (0, 0, 0x80000000000000000000000000000000, 0) := by decide +kernel

theorem test_fromfs_nan : ran 0x41400010 0x7FF0000000000001 0 0 0 = some (0x86, 0, 0, 0) := by decide +kernel

theorem test_tofu_double_rounding : ran 0x42000010 0 0 0x000000000000000180000000000017FF 0 = some (0, 0x43F8000000000002, 0, 0) := by decide +kernel

theorem test_tofu_overflow : ran 0x42000000 0 0 0xFFFFFF80000000000000000000000000 0 = some (0, 0x7F800000, 0, 0) := by decide +kernel

theorem test_tofs : ran 0x43000010 0 0 0xFFFFFFFFFFFFFFFE7FFFFFFFFFFFE801 0 = some (0, 0xC3F8000000000002, 0, 0) := by decide +kernel

theorem test_tofs_binary32 : ran 0x43000000 0 0 0x80000000000000000000000000000000 0 = some (0, 0xFF000000, 0, 0) := by decide +kernel

/-! Control registers (48_system.md R290, 97 section 2.10) -/

theorem test_rdcr_cfg : ran 0x60000020 0 0 0 0 = some (0, 0x87, 0, 0) := by decide +kernel

/-! The formatter (section 2.7, 95 sections 1.5 and 1.2) -/

/-- The text after one `FMT` of `V[0]`, with its length. -/
def printed (cw : CmdWord) (a : Value) : Option (List Byte × BitVec 8) :=
  match step (present { cw := cw, x := 0, y := 0 } (holding a 0)) with
  | .next t => some (t.t.toList.take t.tlen.toNat, t.tlen)
  | .fault _ => none
  | .refused _ => none

theorem test_fmt_hex : printed 0x500001A0 0xFF = some ([0x30, 0x58, 0x46, 0x46], 4) := by decide +kernel

theorem test_fmt_dec_signed :
    printed 0x50000040 0x80000000000000000000000000000000 =
      some (Spec.ascii "-170141183460469231731687303715884105728", 40) := by decide +kernel

/-- A text buffer that holds `0XFF` (95 section 1.5). -/
def holdingText : State := writeText (holding 0 0) [0x30, 0x58, 0x46, 0x46]

theorem test_rdtxt : step (present { cw := 0x51000000, x := 0, y := 0 } holdingText) =
    .next (Spec.executed holdingText 0x0000000046465830) := by rfl

/-! ## Witnesses: the hypotheses of each obligation that has some, met together, each clause at a boundary of its range -/

/-- The unit halted by `DIVZERO` (97 section 2.10: `modu v2, v0, v1` with `V[1] = 0`). -/
def stopped : State := raise .divzero 0x19408000 (holding 7 0)

/-- A packet without payload on the port. -/
def presented (cw : CmdWord) (x : Limb) (s : State) : State := present { cw := cw, x := x, y := 0 } s

theorem witness_DecodeOfEncodeIsInstruction : (Instr.divmodu 1 2 3 4).wellFormed = true := by decide

theorem witness_DecodedInstructionHasPacketsWordAndUsedPayload :
    decode { cw := 0x1E001000, x := 0, y := 0 } = .ok (.divmods 0 1 0 0) ∧
    decode { cw := 0x01E00000, x := 0xAAAA, y := 0x5555 } = .ok (.mkhl 7 0xAAAA 0x5555) := by
  constructor <;> rfl

/-- Both sides of the equivalence: a legal word, and one of each kind of R75. -/
theorem witness_LegalWordsAreTableWords :
    Spec.legal 0x1E001000 ∧ ¬ Spec.legal 0x1E000000 ∧ ¬ Spec.legal 0x00000000 ∧ ¬ Spec.legal 0x10408001 ∧
      ¬ Spec.legal 0x51000060 := by
  refine ⟨?_, ?_, ?_, ?_, ?_⟩ <;>
    (unfold Spec.legal Spec.reserved Spec.Row.Selects
     dsimp only
     decide)

theorem witness_WordSelectsItsOwnRow :
    decode { cw := 0x500001A0, x := 0, y := 0 } = .ok (.fmt 0 .hex false true true false) ∧
    ⟨"FMT", 0x50000000, 0xFFE3FC0F⟩ ∈ Spec.table ∧
    Spec.Row.Selects ⟨"FMT", 0x50000000, 0xFFE3FC0F⟩ 0x500001A0 := by
  refine ⟨rfl, by decide, ?_⟩
  unfold Spec.Row.Selects
  decide

/-- `fromint.u8` with payloads that differ above bit 7 of `X` and in `Y`. -/
theorem witness_UnusedPayloadIsIgnored :
    decode { cw := 0x06000000, x := 0x1FF, y := 5 } = .ok (.fromint 0 .w8 false 0x1FF) ∧
    (0x1FF : Limb) &&& Spec.usedX (.fromint 0 .w8 false 0x1FF) = 0xFF &&& Spec.usedX (.fromint 0 .w8 false 0x1FF) ∧
    (5 : Limb) &&& Spec.usedY (.fromint 0 .w8 false 0x1FF) = 0 &&& Spec.usedY (.fromint 0 .w8 false 0x1FF) := by
  refine ⟨rfl, by decide, by decide⟩

theorem witness_StepRunsDecodedInstruction :
    (presented 0x10408000 0 (holding 1 2)).inputs = .command { cw := 0x10408000, x := 0, y := 0 } :: [] ∧
    decode { cw := 0x10408000, x := 0, y := 0 } = .ok (.add 2 0 1) ∧ (presented 0x10408000 0 (holding 1 2)).flt = 0 ∧
    decode { cw := 0x60000000, x := 0, y := 0 } = .ok (.rdcr .flt) ∧ (presented 0x60000000 0 stopped).flt ≠ 0 := by
  refine ⟨rfl, rfl, by decide, rfl, by decide⟩

theorem witness_PresentedTableWordRuns :
    State.reset.flt = 0 ∧ decodeTableWord 32 0x10408000 = some (.add 2 0 1) := by decide

theorem witness_IllegalCommandFaults :
    (presented 0x1A40A000 0 (holding 7 2)).flt = 0 ∧
    (presented 0x1A40A000 0 (holding 7 2)).inputs = .command { cw := 0x1A40A000, x := 0, y := 0 } :: [] ∧
    ¬ Spec.legal 0x1A40A000 := by
  refine ⟨by decide, rfl, ?_⟩
  unfold Spec.legal Spec.reserved Spec.Row.Selects
  dsimp only
  decide

/-- The halted unit with a `getlo`, with an illegal word (98 P4), and with a legal `rdcr`. -/
theorem witness_HaltedUnitRefuses :
    (presented 0x03000000 0 stopped).flt ≠ 0 ∧
    (∀ n, decode { cw := 0x03000000, x := 0, y := 0 } ≠ .ok (.rdcr n)) ∧
    (∀ n, decode { cw := 0x60000030, x := 0, y := 0 } ≠ .ok (.rdcr n)) ∧
    decode { cw := 0x60000010, x := 0, y := 0 } = .ok (.rdcr .finfo) := by
  refine ⟨by decide, fun n h => ?_, fun n h => ?_, rfl⟩
  · have : decode { cw := 0x03000000, x := 0, y := 0 } = .ok (.getlo 0) := rfl
    rw [this] at h; cases h
  · have : decode { cw := 0x60000030, x := 0, y := 0 } = .error .reservedField := rfl
    rw [this] at h; cases h

theorem witness_ResetInputResetsUnit :
    ({ stopped with inputs := [.reset (some { cw := 0x10408000, x := 0, y := 0 })] } : State).inputs =
      .reset (some { cw := 0x10408000, x := 0, y := 0 }) :: [] := rfl

theorem witness_IdleUnitWaits : State.reset.inputs = [] := rfl

theorem witness_StepKeepsInvariant :
    (presented 0x19408000 0 State.reset).Inv ∧
    step (presented 0x19408000 0 State.reset) = .next (raise .divzero 0x19408000 State.reset) :=
  ⟨⟨by decide, by decide, by decide⟩, rfl⟩

theorem witness_OnlyResetClearsFault :
    (presented 0x06000030 5 stopped).flt ≠ 0 ∧
    step (presented 0x06000030 5 stopped) = .next (refuseHalted stopped) ∧
    ({ stopped with inputs := [.reset none] } : State).flt ≠ 0 ∧
    step { stopped with inputs := [.reset none] } = .next (resetUnit stopped) := by
  refine ⟨by decide, rfl, by decide, rfl⟩

theorem witness_OneResponsePerCommand :
    (presented 0x03000000 0 stopped).inputs = .command { cw := 0x03000000, x := 0, y := 0 } :: [] ∧
    step (presented 0x03000000 0 stopped) = .next (refuseHalted stopped) ∧
    ({ stopped with inputs := [.reset none] } : State).inputs = .reset none :: [] ∧
    step { stopped with inputs := [.reset none] } = .next (resetUnit stopped) := by
  refine ⟨rfl, rfl, rfl, rfl⟩

/-- A faulting command in the running unit, and `rdcr` in the halted one. -/
theorem witness_ResponseReportsFault :
    step (presented 0x19408000 0 (holding 7 0)) = .next stopped ∧
    stopped.responses = { st := 0x82, z := 0 } :: (holding 7 0).responses ∧
    step (presented 0x60000000 0 stopped) = .next (respond stopped 2) ∧
    (respond stopped 2).responses = { st := 0x02, z := 2 } :: stopped.responses := by
  refine ⟨rfl, rfl, rfl, rfl⟩

theorem witness_InstructionFrame :
    exec (.negs 2 0) (holding 0x80000000000000000000000000000000 1) =
      .next (raise .snegovf 0x14400000 (holding 0x80000000000000000000000000000000 1)) ∧
    exec (.mov 2 0) (holding 5 1) = .next (Spec.wrote (holding 5 1) 2 5) := by
  refine ⟨rfl, rfl⟩

theorem witness_FaultEntryHasNoOtherEffect :
    (presented 0x19408000 0 (holding 7 0)).flt = 0 ∧ step (presented 0x19408000 0 (holding 7 0)) = .next stopped ∧
    stopped.flt ≠ 0 := by
  refine ⟨by decide, rfl, by decide⟩

theorem witness_ReadsChangeNothing :
    Spec.readsOnly (.gethi 0) = true ∧
    exec (.gethi 0) (holding 0xDEADBEEF000000018000000000000123 0) =
      .next (respond (holding 0xDEADBEEF000000018000000000000123 0) 0xDEADBEEF00000001) := by
  refine ⟨rfl, rfl⟩

theorem witness_NeverFaultingInstructionsExecute :
    Spec.neverFaults (.neg 0 0) = true ∧ Spec.neverFaults (.fmt 0 .dec true false false false) = true ∧ State.reset.flt = 0 := by
  decide

/-- Each of the seven causes in the running unit, and the state after it (97 section 2.10). -/
theorem witness_FaultCauses :
    step (presented 0x00000000 0 (holding 7 0)) = .next (raise .illegal 0x00000000 (holding 7 0)) ∧
    step (presented 0x19408000 0 (holding 7 0)) = .next (raise .divzero 0x19408000 (holding 7 0)) ∧
    step (presented 0x1D408000 0 (holding 0x80000000000000000000000000000000 0xFFFFFFFFFFFFFFFFFFFFFFFFFFFFFFFF)) =
      .next (raise .sdivovf 0x1D408000 (holding 0x80000000000000000000000000000000 0xFFFFFFFFFFFFFFFFFFFFFFFFFFFFFFFF)) ∧
    step (presented 0x14000000 0 (holding 0x80000000000000000000000000000000 0)) =
      .next (raise .snegovf 0x14000000 (holding 0x80000000000000000000000000000000 0)) ∧
    step (presented 0x23000000 0x80 (holding 1 0)) = .next (raise .shamt 0x23000000 (holding 1 0)) ∧
    step (presented 0x41000000 0x7FC00000 (holding 1 0)) = .next (raise .fnan 0x41000000 (holding 1 0)) ∧
    step (presented 0x40000010 0xBFF0000000000000 (holding 1 0)) = .next (raise .frange 0x40000010 (holding 1 0)) := by
  refine ⟨rfl, rfl, rfl, rfl, rfl, rfl, rfl⟩

/-- The only hypothesis on the state of the statements about one instruction's effect: the running unit. -/
theorem witness_running : State.reset.flt = 0 ∧ (holding 7 2).flt = 0 := by decide

/-- Clauses of NegateSigned and of SignedDivision: SignedMin and its neighbour; divisors 0, -1, 1. -/
theorem witness_NegateSigned :
    (holding 0x80000000000000000000000000000000 0).v[0].toInt = -2 ^ 127 ∧
    (holding 0x80000000000000000000000000000001 0).v[0].toInt ≠ -2 ^ 127 := by decide +kernel

theorem witness_SignedArithmeticInRange :
    let a := (holding 0x7FFFFFFFFFFFFFFFFFFFFFFFFFFFFFFE 1).v[0].toInt
    let b := (holding 0x7FFFFFFFFFFFFFFFFFFFFFFFFFFFFFFE 1).v[1].toInt
    (-2 ^ 127 ≤ a + b ∧ a + b < 2 ^ 127) ∧ (-2 ^ 127 ≤ a - b ∧ a - b < 2 ^ 127) ∧ -2 ^ 127 ≤ a * b ∧ a * b < 2 ^ 127 := by
  decide +kernel

/-- Amounts at the ends of each clause: 0, 1 and 127; -1 and 128. -/
theorem witness_Shifts_Rotates :
    0 ≤ (0 : Limb).toInt ∧ 1 ≤ (1 : Limb).toInt ∧ (127 : Limb).toInt < 128 ∧ (0xFFFFFFFFFFFFFFFF : Limb).toInt < 0 ∧ 128 ≤ (128 : Limb).toInt := by
  decide +kernel

theorem witness_ShiftLaw :
    0 ≤ (127 : Limb).toInt ∧ (127 : Limb).toInt < 128 ∧ (holding 1 0).v[0].toNat < 2 ^ (128 - (127 : Limb).toInt.toNat) ∧
    0 ≤ (0 : Limb).toInt ∧ (holding 0xFFFFFFFFFFFFFFFFFFFFFFFFFFFFFFFF 0).v[0].toNat < 2 ^ (128 - (0 : Limb).toInt.toNat) := by
  decide +kernel

theorem witness_UnsignedDivision :
    (holding 7 1).v[1].toNat ≠ 0 ∧ (holding 7 0).v[1].toNat = 0 ∧ (2 : Reg) ≠ 3 ∧ (2 : Reg) = 2 := by decide +kernel

/-- A divisor of 1 and a dividend one above SignedMin by -1; the zero divisor; SignedMin by -1. -/
theorem witness_SignedDivision :
    ((holding 7 1).v[1].toInt ≠ 0 ∧ ¬ ((holding 7 1).v[0].toInt = -2 ^ 127 ∧ (holding 7 1).v[1].toInt = -1)) ∧
    (holding 0x80000000000000000000000000000001 0xFFFFFFFFFFFFFFFFFFFFFFFFFFFFFFFF).v[0].toInt ≠ -2 ^ 127 ∧
    (holding 7 0).v[1].toInt = 0 ∧
    (holding 0x80000000000000000000000000000000 0xFFFFFFFFFFFFFFFFFFFFFFFFFFFFFFFF).v[0].toInt = -2 ^ 127 ∧
    (holding 0x80000000000000000000000000000000 0xFFFFFFFFFFFFFFFFFFFFFFFFFFFFFFFF).v[1].toInt = -1 := by decide +kernel

theorem witness_DivisionIdentity :
    (holding 7 2).flt = 0 ∧ (holding 7 2).v[1] ≠ 0 ∧
    ¬ ((holding 7 2).v[0].toInt = -2 ^ 127 ∧ (holding 7 2).v[1].toInt = -1) := by decide +kernel

/-- The three values whose texts are the longest, in the running unit. -/
theorem witness_TextLength :
    (holding 0x80000000000000000000000000000000 0).v[0] = BitVec.ofInt 128 (-2 ^ 127) ∧
    (holding 0x40000000000000000000000000000000 0).v[0] = BitVec.ofNat 128 (2 ^ 126) ∧
    (holding 0xFFFFFFFFFFFFFFFFFFFFFFFFFFFFFFFF 0).v[0] = BitVec.ofNat 128 (2 ^ 128 - 1) ∧
    (∀ a : Value, (holding a 0).flt = 0) :=
  ⟨by decide +kernel, by decide +kernel, by decide +kernel, fun _ => rfl⟩

/-- The halted unit with a packet that is no `rdcr`, and with `rdcr` of `N = 3` (98 P4). -/
theorem witness_ReadControlRegister :
    stopped.flt ≠ 0 ∧
    (∀ n, decode { cw := 0x03000000, x := 0, y := 0 } ≠ .ok (.rdcr n)) ∧
    Spec.word 0x60 0 0 0 0 3 = 0x60000030 ∧ (∀ n, decode { cw := 0x60000030, x := 0, y := 0 } ≠ .ok (.rdcr n)) :=
  ⟨by decide, witness_HaltedUnitRefuses.2.1, by decide, witness_HaltedUnitRefuses.2.2.1⟩

/-- `2^64`, with one significant bit. -/
theorem witness_ToFloatExactAndOverflow :
    (holding 0x10000000000000000 0).v[0].toNat = 1 * 2 ^ 64 ∧ 1 < 2 ^ (Spec.fracWidth .binary32 + 1) := by decide +kernel

/-- NaN and infinity patterns of both formats, the bits above 31 set in binary32. -/
theorem witness_FromFloat_special :
    Spec.IsNan .binary64 0x7FF0000000000001 ∧ Spec.IsNan .binary32 0xFFFFFFFF7FC00000 ∧
    Spec.IsInf .binary64 0xFFF0000000000000 ∧ Spec.IsInf .binary32 0x7F800000 := by
  unfold Spec.IsNan Spec.IsInf
  decide +kernel

/-- The smallest negative number and 2^128 are out of the unsigned range; -0 and the largest binary32 number are in it. -/
theorem witness_FromFloatUnsigned :
    (Spec.IsFinite .binary64 0x8000000000000001 ∧ Spec.val .binary64 0x8000000000000001 < 0) ∧
    (Spec.IsFinite .binary64 0x47F0000000000000 ∧ 2 ^ 128 ≤ Spec.val .binary64 0x47F0000000000000) ∧
    (Spec.IsFinite .binary64 0x8000000000000000 ∧ 0 ≤ Spec.val .binary64 0x8000000000000000 ∧
      Spec.val .binary64 0x8000000000000000 < 2 ^ 128) ∧
    (Spec.IsFinite .binary32 0x7F7FFFFF ∧ 0 ≤ Spec.val .binary32 0x7F7FFFFF ∧ Spec.val .binary32 0x7F7FFFFF < 2 ^ 128) := by
  unfold Spec.IsFinite
  decide +kernel

/-- 2^127 and the number below -2^127 are out of the signed range; -2^127 and the largest number below 2^127 are in it. -/
theorem witness_FromFloatSigned :
    (Spec.IsFinite .binary64 0x47E0000000000000 ∧ 2 ^ 127 ≤ Spec.val .binary64 0x47E0000000000000) ∧
    (Spec.IsFinite .binary64 0xC7E0000000000001 ∧ Spec.val .binary64 0xC7E0000000000001 ≤ -2 ^ 127 - 1) ∧
    (Spec.IsFinite .binary64 0xC7E0000000000000 ∧ -2 ^ 127 - 1 < Spec.val .binary64 0xC7E0000000000000 ∧
      Spec.val .binary64 0xC7E0000000000000 < 2 ^ 127) ∧
    (Spec.IsFinite .binary32 0x7EFFFFFF ∧ -2 ^ 127 - 1 < Spec.val .binary32 0x7EFFFFFF ∧
      Spec.val .binary32 0x7EFFFFFF < 2 ^ 127) := by
  unfold Spec.IsFinite
  decide +kernel

/-- `2^64 + 2^12`, which splits into a high part and a remainder, and 0.5, which does not. -/
theorem witness_SplitIsTruncation :
    (unpackFp .binary64 0x43F0000000000001 = some (.fin false (2 ^ 52 + 1) 12) ∧ 0 ≤ Spec.val .binary64 0x43F0000000000001 ∧
      Spec.val .binary64 0x43F0000000000001 < 2 ^ 128) ∧
    (unpackFp .binary32 0x3F000000 = some (.fin false (2 ^ 23) (-24)) ∧ 0 ≤ Spec.val .binary32 0x3F000000 ∧
      Spec.val .binary32 0x3F000000 < 2 ^ 128) := by
  decide +kernel

end Sys2Proof.Tests
end

/-! ## Proofs: the state after reset (spec/10_state.md R34) -/

namespace Sys2Proof.Proofs

open Sys2Proof.Machine Sys2Proof.Laws

/-! ### The fields of the reset state -/

theorem getElem_reset_v (r : Reg) : State.reset.v[r] = 0 :=
  Vector.getElem_replicate r.isLt

theorem getElem_reset_t (k : Fin 48) : State.reset.t[k] = 0 :=
  Vector.getElem_replicate k.isLt

@[simp] theorem reset_tlen : State.reset.tlen = 0 := rfl

@[simp] theorem reset_flt : State.reset.flt = 0 := rfl

@[simp] theorem reset_finfo : State.reset.finfo = 0 := rfl

/-! ### The hardwired values (R22, R28) -/

theorem readCtrl_cfg (s : State) : readCtrl s .cfg = 0x87 := by
  simp [readCtrl, cfgReg_eq]

theorem constant_umax : constant .umax = BitVec.ofNat 128 (2 ^ 128 - 1) := by decide

theorem constant_smax : constant .smax = BitVec.ofNat 128 (2 ^ 127 - 1) := by decide

theorem constant_smin : constant .smin = BitVec.ofNat 128 (2 ^ 127) := by decide

/-! ### `LDC` and `RDCR` in the running unit (R103, R290) -/

theorem exec_ldc_running {s : State} (h : s.flt = 0) (rd : Reg) (k : Konst) :
    exec (.ldc rd k) s = .next (Spec.wrote s rd (constant k)) :=
  (exec_ldc rd k s).trans (done_writeV_running h rd (constant k))

theorem exec_rdcr_running {s : State} (h : s.flt = 0) (n : CtrlReg) :
    exec (.rdcr n) s = .next (Spec.executed s (readCtrl s n)) :=
  (exec_rdcr n s).trans (done_running h (readCtrl s n))

/-- Settles O12: the fields by their reset values, `CFG` and the constants by running `RDCR` and `LDC`, since the reset unit runs. -/
theorem resetValues : Obligations.ResetValues := by
  unfold Obligations.ResetValues
  have ldc (k : Konst) : exec (.ldc 0 k) State.reset = .next (Spec.wrote State.reset 0 (constant k)) :=
    exec_ldc_running reset_flt 0 k
  refine ⟨getElem_reset_v, getElem_reset_t, reset_tlen, reset_flt, reset_finfo, ?cfg, ?umax, ?smax, ?smin⟩
  case cfg => rw [exec_rdcr_running reset_flt, readCtrl_cfg]
  case umax => rw [ldc, constant_umax]
  case smax => rw [ldc, constant_smax]
  case smin => rw [ldc, constant_smin]

end Sys2Proof.Proofs

/-! ## Proofs: the decoder against the opcode map, and the payload bits it uses (spec/30_encoding.md R70 to R76) -/

namespace Sys2Proof.Proofs

open Sys2Proof.Machine Sys2Proof.Laws

/-! ### Rows of the opcode map and the words they select (R73) -/

/-- `OPC` of a row's `match`. -/
def opcode (r : Spec.Row) : BitVec 8 := (unpackWord r.mtch).opc

/-- The row of an instruction. -/
def rowOf (i : Instr) : Spec.Row := ⟨Spec.mnemonic i, rowMatch i, rowMask i⟩

theorem rowOf_mem (i : Instr) : rowOf i ∈ Spec.table := by
  have h : decide (rowOf i ∈ Spec.table) = true := by cases i <;> rfl
  exact of_decide_eq_true h

theorem mask_opc : ∀ r ∈ Spec.table, (unpackWord r.mask).opc = 0xFF#8 := by decide

theorem mask_z4 : ∀ r ∈ Spec.table, (unpackWord r.mask).z4 = 0xF#4 := by decide

/-- A row's `match` holds its opcode and nothing else. -/
theorem match_eq : ∀ r ∈ Spec.table, unpackWord r.mtch = { opc := opcode r } := by decide

theorem opcode_nodup : (Spec.table.map opcode).Nodup := by decide

theorem row_eq_of_opcode_eq {r r' : Spec.Row} (hr : r ∈ Spec.table) (hr' : r' ∈ Spec.table)
    (h : opcode r = opcode r') : r = r' :=
  List.inj_on_of_nodup_map opcode_nodup hr hr' h

/-- A row selects a packed word field by field. -/
theorem selects_packWord (r : Spec.Row) (f : Fields) :
    r.Selects (packWord f) ↔
      f.opc &&& (unpackWord r.mask).opc = (unpackWord r.mtch).opc ∧
      f.rd &&& (unpackWord r.mask).rd = (unpackWord r.mtch).rd ∧
      f.ra &&& (unpackWord r.mask).ra = (unpackWord r.mtch).ra ∧
      f.rb &&& (unpackWord r.mask).rb = (unpackWord r.mtch).rb ∧
      f.re &&& (unpackWord r.mask).re = (unpackWord r.mtch).re ∧
      f.fl &&& (unpackWord r.mask).fl = (unpackWord r.mtch).fl ∧
      f.z4 &&& (unpackWord r.mask).z4 = (unpackWord r.mtch).z4 := by
  have inj : Function.Injective packWord := Function.LeftInverse.injective unpackWord_packWord
  rw [Spec.Row.Selects, packWord_and, ← packWord_unpackWord r.mtch, inj.eq_iff, unpackWord_packWord, Fields.mk.injEq]

/-- `OPC` is in every mask (R73). -/
theorem opcode_of_selects {r : Spec.Row} (hr : r ∈ Spec.table) {f : Fields} (h : r.Selects (packWord f)) :
    opcode r = f.opc := by
  obtain ⟨hopc, -⟩ := (selects_packWord r f).mp h
  rw [mask_opc r hr] at hopc
  rw [opcode, ← hopc]
  exact BitVec.and_allOnes

/-- Reserved values and equal destinations (R75 c and d), said of the fields. -/
theorem reserved_packWord (f : Fields) : Spec.reserved (packWord f) ↔
    (f.opc = 0x04 ∧ f.fl.extractLsb' 0 2 = 3) ∨ (f.opc = 0x50 ∧ f.fl.extractLsb' 0 2 = 3) ∨
      (f.opc = 0x51 ∧ 6 ≤ (f.fl.extractLsb' 0 3).toNat) ∨ (f.opc = 0x60 ∧ f.fl.extractLsb' 0 2 = 3) ∨
      ((f.opc = 0x1A ∨ f.opc = 0x1E) ∧ f.rd = f.re) := by
  have h := packWord_toNat f
  have h1 := f.rd.isLt; have h2 := f.ra.isLt; have h3 := f.rb.isLt
  have h4 := f.re.isLt; have h5 := f.fl.isLt; have h6 := f.z4.isLt
  have e1 : (packWord f).toNat / 2 ^ 24 = f.opc.toNat := by omega
  have e2 : (packWord f).toNat / 2 ^ 4 % 2 ^ 8 = f.fl.toNat := by omega
  have e3 : (packWord f).toNat / 2 ^ 21 % 8 = f.rd.toNat := by omega
  have e4 : (packWord f).toNat / 2 ^ 12 % 8 = f.re.toNat := by omega
  simp only [Spec.reserved, e1, e2, e3, e4]
  simp [← BitVec.toNat_inj]

/-- The opcodes of the rows R75 (c) and (d) speak of. -/
def reservedOpcodes : List (BitVec 8) := [0x04, 0x50, 0x51, 0x60, 0x1A, 0x1E]

theorem not_reserved_of_opc {f : Fields} (h : reservedOpcodes.contains f.opc = false) : ¬ Spec.reserved (packWord f) := by
  simp only [reservedOpcodes, List.contains_eq_mem, List.mem_cons, List.not_mem_nil, or_false, decide_eq_false_iff_not] at h
  rw [reserved_packWord]
  tauto

theorem konstOf_eq_none_iff : ∀ b, konstOf b = none ↔ b = 3 := by decide

theorem baseOf_eq_none_iff : ∀ b, baseOf b = none ↔ b = 3 := by decide

theorem ctrlRegOf_eq_none_iff : ∀ b, ctrlRegOf b = none ↔ b = 3 := by decide

theorem textWordOf_eq_none_iff : ∀ b, textWordOf b = none ↔ 6 ≤ b.toNat := by decide

/-! ### The must-be-zero check is the row's mask (R74) -/

theorem and_seven (b : BitVec 3) : b &&& 7#3 = b := BitVec.and_allOnes

theorem and_255 (b : BitVec 8) : b &&& 255#8 = b := BitVec.and_allOnes

theorem fl_eq_zero_iff (fl : BitVec 8) : fl = 0#8 ↔ fl &&& 0xFF#8 = 0#8 := by rw [and_255]

theorem flHigh7_eq_zero_iff : ∀ fl : BitVec 8, fl.extractLsb' 1 7 = 0#7 ↔ fl &&& 0xFE#8 = 0#8 := by decide

theorem flHigh6_eq_zero_iff : ∀ fl : BitVec 8, fl.extractLsb' 2 6 = 0#6 ↔ fl &&& 0xFC#8 = 0#8 := by decide

theorem flHigh5_eq_zero_iff : ∀ fl : BitVec 8, fl.extractLsb' 3 5 = 0#5 ↔ fl &&& 0xF8#8 = 0#8 := by decide

theorem flHigh2_eq_zero_iff : ∀ fl : BitVec 8, fl.extractLsb' 6 2 = 0#2 ↔ fl &&& 0xC0#8 = 0#8 := by decide

/-- For a word with the row's opcode, being selected is: every field is zero under the mask. -/
theorem selects_iff_masked_zero {r : Spec.Row} {f : Fields} (hr : r ∈ Spec.table) (ho : opcode r = f.opc) :
    r.Selects (packWord f) ↔
      f.rd &&& (unpackWord r.mask).rd = 0#3 ∧ f.ra &&& (unpackWord r.mask).ra = 0#3 ∧
      f.rb &&& (unpackWord r.mask).rb = 0#3 ∧ f.re &&& (unpackWord r.mask).re = 0#3 ∧
      f.fl &&& (unpackWord r.mask).fl = 0#8 ∧ f.z4 = 0#4 := by
  have h4 : f.z4 &&& 15#4 = f.z4 := BitVec.and_allOnes
  simp [selects_packWord, match_eq r hr, mask_opc r hr, mask_z4 r hr, ho, h4, and_255]

/-- The decoder's check `zero` of the fields `f` is the mask of the row `r`, whose opcode they hold. -/
structure RowCheck (r : Spec.Row) (f : Fields) (zero : Bool) : Prop where
  mem : r ∈ Spec.table
  opc : opcode r = f.opc
  iff : zero = true ↔ r.Selects (packWord f)

section
variable {r : Spec.Row} {f : Fields} {n : Nat} {flHigh : BitVec n} {m : BitVec 8}
  (hr : r ∈ Spec.table) (ho : opcode r = f.opc)
include hr ho

theorem RowCheck.of_zeroButRd (hfl : flHigh = 0#n ↔ f.fl &&& m = 0#8)
    (hm : unpackWord r.mask = ⟨0xFF, 0, 7, 7, 7, m, 0xF⟩ := by decide) : RowCheck r f (zeroButRd f flHigh) :=
  ⟨hr, ho, by simp [selects_iff_masked_zero hr ho, hm, zeroButRd, hfl, and_seven, and_assoc]⟩

theorem RowCheck.of_zeroButRa (hfl : flHigh = 0#n ↔ f.fl &&& m = 0#8)
    (hm : unpackWord r.mask = ⟨0xFF, 7, 0, 7, 7, m, 0xF⟩ := by decide) : RowCheck r f (zeroButRa f flHigh) :=
  ⟨hr, ho, by simp [selects_iff_masked_zero hr ho, hm, zeroButRa, hfl, and_seven, and_assoc]⟩

theorem RowCheck.of_zeroButFl (hfl : flHigh = 0#n ↔ f.fl &&& m = 0#8)
    (hm : unpackWord r.mask = ⟨0xFF, 7, 7, 7, 7, m, 0xF⟩ := by decide) : RowCheck r f (zeroButFl f flHigh) :=
  ⟨hr, ho, by simp [selects_iff_masked_zero hr ho, hm, zeroButFl, hfl, and_seven, and_assoc]⟩

theorem RowCheck.of_zeroButRdRa (hm : unpackWord r.mask = ⟨0xFF, 0, 0, 7, 7, 0xFF, 0xF⟩ := by decide) :
    RowCheck r f (zeroButRdRa f) :=
  ⟨hr, ho, by simp [selects_iff_masked_zero hr ho, hm, zeroButRdRa, and_seven, and_255, and_assoc]⟩

theorem RowCheck.of_zeroButRaRb (hm : unpackWord r.mask = ⟨0xFF, 7, 0, 0, 7, 0xFF, 0xF⟩ := by decide) :
    RowCheck r f (zeroButRaRb f) :=
  ⟨hr, ho, by simp [selects_iff_masked_zero hr ho, hm, zeroButRaRb, and_seven, and_255, and_assoc]⟩

theorem RowCheck.of_zeroButRdRaRb (hm : unpackWord r.mask = ⟨0xFF, 0, 0, 0, 7, 0xFF, 0xF⟩ := by decide) :
    RowCheck r f (zeroButRdRaRb f) :=
  ⟨hr, ho, by simp [selects_iff_masked_zero hr ho, hm, zeroButRdRaRb, and_seven, and_255, and_assoc]⟩

theorem RowCheck.of_zeroButRegs (hm : unpackWord r.mask = ⟨0xFF, 0, 0, 0, 0, 0xFF, 0xF⟩ := by decide) :
    RowCheck r f (zeroButRegs f) :=
  ⟨hr, ho, by simp [selects_iff_masked_zero hr ho, hm, zeroButRegs, and_255]⟩

end

theorem RowCheck.not_legal {r : Spec.Row} {f : Fields} {zero : Bool} (hc : RowCheck r f zero) (hz : zero = false) :
    ¬ Spec.legal (packWord f) := by
  rintro ⟨⟨r', hr', hs⟩, -⟩
  obtain rfl : r = r' := row_eq_of_opcode_eq hc.mem hr' (hc.opc.trans (opcode_of_selects hr' hs).symm)
  exact absurd (hc.iff.mpr hs) (by simp [hz])

/-! ### What the decoder does with the fields of a word, for every payload at once -/

/-- An instruction with its payload operands replaced (R76). -/
def withPayload (x y : Limb) : Instr → Instr
  | .mkhl rd _ _ => .mkhl rd x y
  | .fromint rd wd sg _ => .fromint rd wd sg x
  | .shl rd ra _ => .shl rd ra x
  | .shr rd ra _ => .shr rd ra x
  | .sar rd ra _ => .sar rd ra x
  | .rol rd ra _ => .rol rd ra x
  | .ror rd ra _ => .ror rd ra x
  | .fromfu rd fp _ => .fromfu rd fp x
  | .fromfs rd fp _ => .fromfs rd fp x
  | i => i

/-- What a decoder of the fields `f`, as a function of the payload words, can be: it refuses every payload and the word is not
legal, or the word is legal in the row of `i` and the payload goes into the operands of `i`. -/
inductive DecodeCase (f : Fields) (g : Limb → Limb → Except Illegal Instr) : Prop
  | illegal (h : ¬ Spec.legal (packWord f)) (e : Illegal) (hg : ∀ x y, g x y = .error e)
  | legal (i : Instr) (hs : (rowOf i).Selects (packWord f)) (hr : ¬ Spec.reserved (packWord f))
      (hg : ∀ x y, g x y = .ok (withPayload x y i))

section
variable {r : Spec.Row} {f : Fields} {zero : Bool} {g rest : Limb → Limb → Except Illegal Instr}

/-- The must-be-zero check comes first; past it the row selects the word. -/
theorem DecodeCase.of_needZero (hc : RowCheck r f zero) (hg : ∀ x y, g x y = needZero zero (rest x y))
    (h : r.Selects (packWord f) → DecodeCase f rest) : DecodeCase f g := by
  cases zero with
  | false => exact .illegal (hc.not_legal rfl) .mustBeZero hg
  | true =>
    obtain rfl : g = rest := funext₂ hg
    exact h (hc.iff.mp rfl)

/-- A row without reserved values. -/
theorem DecodeCase.plain (i : Instr) (hc : RowCheck r f zero) (hg : ∀ x y, g x y = needZero zero (.ok (withPayload x y i)))
    (hi : rowOf i = r := by rfl) (hr : reservedOpcodes.contains f.opc = false := by rfl) : DecodeCase f g :=
  .of_needZero hc hg fun hs => .legal i (hi ▸ hs) (not_reserved_of_opc hr) fun _ _ => rfl

/-- A row with a sub-field that has reserved values (R75 c). -/
theorem DecodeCase.named {α : Type} {o : Option α} {k : α → Instr} (hc : RowCheck r f zero)
    (hg : ∀ x y, g x y = needZero zero (needNamed o k)) (ho : o = none ↔ Spec.reserved (packWord f))
    (hi : ∀ a, rowOf (k a) = r := by intros; rfl) (hp : ∀ a x y, withPayload x y (k a) = k a := by intros; rfl) :
    DecodeCase f g := by
  refine .of_needZero hc hg fun hs => ?_
  cases o with
  | none => exact .illegal (fun hl => hl.2 (ho.mp rfl)) .reservedField fun _ _ => rfl
  | some a => exact .legal (k a) (hi a ▸ hs) (fun h => nomatch ho.mpr h) fun x y => (hp a x y).symm ▸ rfl

/-- A row with two destinations (R75 d). -/
theorem DecodeCase.distinct {i : Instr} (hc : RowCheck r f zero)
    (hg : ∀ x y, g x y = needZero zero (needDistinct f.rd f.re i)) (he : f.rd = f.re ↔ Spec.reserved (packWord f))
    (hi : rowOf i = r := by rfl) (hp : ∀ x y, withPayload x y i = i := by intros; rfl) : DecodeCase f g := by
  refine .of_needZero hc hg fun hs => ?_
  by_cases h : f.rd = f.re
  · exact .illegal (fun hl => hl.2 (he.mp h)) .equalDestinations fun _ _ => if_pos h
  · exact .legal i (hi ▸ hs) (fun hres => h (he.mpr hres)) fun x y => (hp x y).symm ▸ if_neg h

end

/-! The rows, each by its equation of Laws/Decoding.lean. -/

theorem decodeCase_rows1 (f : Fields) : ∀ r ∈ Spec.rows1, opcode r = f.opc → DecodeCase f (decodeFields f) := by
  obtain ⟨opc, rd, ra, rb, re, fl, z4⟩ := f
  rintro r hr (rfl : opcode r = opc)
  have hm : r ∈ Spec.table := by simp [Spec.table, hr]
  simp only [Spec.rows1, List.mem_cons, List.not_mem_nil, or_false] at hr
  rcases hr with rfl | rfl | rfl | rfl | rfl | rfl | rfl | rfl | rfl | rfl | rfl
  · exact .plain (.mkhl (regOf rd) 0 0) (.of_zeroButRd hm rfl (fl_eq_zero_iff _)) (decodeFields_mkhl rd ra rb re fl z4)
  · exact .plain (.gethi (regOf ra)) (.of_zeroButRa hm rfl (fl_eq_zero_iff _)) (decodeFields_gethi rd ra rb re fl z4)
  · exact .plain (.getlo (regOf ra)) (.of_zeroButRa hm rfl (fl_eq_zero_iff _)) (decodeFields_getlo rd ra rb re fl z4)
  · exact .named (.of_zeroButRd hm rfl (flHigh6_eq_zero_iff _))
      (decodeFields_ldc rd ra rb re fl z4) (by simp [reserved_packWord, opcode, unpackWord, konstOf_eq_none_iff])
  · exact .plain (.mov (regOf rd) (regOf ra)) (.of_zeroButRdRa hm rfl) (decodeFields_mov rd ra rb re fl z4)
  · exact .plain (.fromint (regOf rd) (widthOf (fl.extractLsb' 0 2)) (fl.getLsbD 2) 0)
      (.of_zeroButRd hm rfl (flHigh5_eq_zero_iff _)) (decodeFields_fromint rd ra rb re fl z4)
  · exact .plain (.toint (regOf ra) (widthOf (fl.extractLsb' 0 2)) (fl.getLsbD 2))
      (.of_zeroButRa hm rfl (flHigh5_eq_zero_iff _)) (decodeFields_toint rd ra rb re fl z4)
  · exact .plain (.add (regOf rd) (regOf ra) (regOf rb)) (.of_zeroButRdRaRb hm rfl) (decodeFields_add rd ra rb re fl z4)
  · exact .plain (.sub (regOf rd) (regOf ra) (regOf rb)) (.of_zeroButRdRaRb hm rfl) (decodeFields_sub rd ra rb re fl z4)
  · exact .plain (.mul (regOf rd) (regOf ra) (regOf rb)) (.of_zeroButRdRaRb hm rfl) (decodeFields_mul rd ra rb re fl z4)
  · exact .plain (.neg (regOf rd) (regOf ra)) (.of_zeroButRdRa hm rfl) (decodeFields_neg rd ra rb re fl z4)

theorem decodeCase_rows2 (f : Fields) : ∀ r ∈ Spec.rows2, opcode r = f.opc → DecodeCase f (decodeFields f) := by
  obtain ⟨opc, rd, ra, rb, re, fl, z4⟩ := f
  rintro r hr (rfl : opcode r = opc)
  have hm : r ∈ Spec.table := by simp [Spec.table, hr]
  simp only [Spec.rows2, List.mem_cons, List.not_mem_nil, or_false] at hr
  rcases hr with rfl | rfl | rfl | rfl | rfl | rfl | rfl | rfl | rfl | rfl | rfl
  · exact .plain (.negs (regOf rd) (regOf ra)) (.of_zeroButRdRa hm rfl) (decodeFields_negs rd ra rb re fl z4)
  · exact .plain (.divu (regOf rd) (regOf ra) (regOf rb)) (.of_zeroButRdRaRb hm rfl) (decodeFields_divu rd ra rb re fl z4)
  · exact .plain (.modu (regOf rd) (regOf ra) (regOf rb)) (.of_zeroButRdRaRb hm rfl) (decodeFields_modu rd ra rb re fl z4)
  · exact .distinct (.of_zeroButRegs hm rfl)
      (decodeFields_divmodu rd ra rb re fl z4) (by simp [reserved_packWord, opcode, unpackWord])
  · exact .plain (.divs (regOf rd) (regOf ra) (regOf rb)) (.of_zeroButRdRaRb hm rfl) (decodeFields_divs rd ra rb re fl z4)
  · exact .plain (.mods (regOf rd) (regOf ra) (regOf rb)) (.of_zeroButRdRaRb hm rfl) (decodeFields_mods rd ra rb re fl z4)
  · exact .distinct (.of_zeroButRegs hm rfl)
      (decodeFields_divmods rd ra rb re fl z4) (by simp [reserved_packWord, opcode, unpackWord])
  · exact .plain (.shl (regOf rd) (regOf ra) 0) (.of_zeroButRdRa hm rfl) (decodeFields_shl rd ra rb re fl z4)
  · exact .plain (.shr (regOf rd) (regOf ra) 0) (.of_zeroButRdRa hm rfl) (decodeFields_shr rd ra rb re fl z4)
  · exact .plain (.sar (regOf rd) (regOf ra) 0) (.of_zeroButRdRa hm rfl) (decodeFields_sar rd ra rb re fl z4)
  · exact .plain (.rol (regOf rd) (regOf ra) 0) (.of_zeroButRdRa hm rfl) (decodeFields_rol rd ra rb re fl z4)

theorem decodeCase_rows3 (f : Fields) : ∀ r ∈ Spec.rows3, opcode r = f.opc → DecodeCase f (decodeFields f) := by
  obtain ⟨opc, rd, ra, rb, re, fl, z4⟩ := f
  rintro r hr (rfl : opcode r = opc)
  have hm : r ∈ Spec.table := by simp [Spec.table, hr]
  simp only [Spec.rows3, List.mem_cons, List.not_mem_nil, or_false] at hr
  rcases hr with rfl | rfl | rfl | rfl | rfl | rfl | rfl | rfl | rfl | rfl | rfl
  · exact .plain (.ror (regOf rd) (regOf ra) 0) (.of_zeroButRdRa hm rfl) (decodeFields_ror rd ra rb re fl z4)
  · exact .plain (.and (regOf rd) (regOf ra) (regOf rb)) (.of_zeroButRdRaRb hm rfl) (decodeFields_and rd ra rb re fl z4)
  · exact .plain (.or (regOf rd) (regOf ra) (regOf rb)) (.of_zeroButRdRaRb hm rfl) (decodeFields_or rd ra rb re fl z4)
  · exact .plain (.xor (regOf rd) (regOf ra) (regOf rb)) (.of_zeroButRdRaRb hm rfl) (decodeFields_xor rd ra rb re fl z4)
  · exact .plain (.not (regOf rd) (regOf ra)) (.of_zeroButRdRa hm rfl) (decodeFields_not rd ra rb re fl z4)
  · exact .plain (.eq (regOf ra) (regOf rb)) (.of_zeroButRaRb hm rfl) (decodeFields_eq rd ra rb re fl z4)
  · exact .plain (.ne (regOf ra) (regOf rb)) (.of_zeroButRaRb hm rfl) (decodeFields_ne rd ra rb re fl z4)
  · exact .plain (.ltu (regOf ra) (regOf rb)) (.of_zeroButRaRb hm rfl) (decodeFields_ltu rd ra rb re fl z4)
  · exact .plain (.leu (regOf ra) (regOf rb)) (.of_zeroButRaRb hm rfl) (decodeFields_leu rd ra rb re fl z4)
  · exact .plain (.gtu (regOf ra) (regOf rb)) (.of_zeroButRaRb hm rfl) (decodeFields_gtu rd ra rb re fl z4)
  · exact .plain (.geu (regOf ra) (regOf rb)) (.of_zeroButRaRb hm rfl) (decodeFields_geu rd ra rb re fl z4)

theorem decodeCase_rows4 (f : Fields) : ∀ r ∈ Spec.rows4, opcode r = f.opc → DecodeCase f (decodeFields f) := by
  obtain ⟨opc, rd, ra, rb, re, fl, z4⟩ := f
  rintro r hr (rfl : opcode r = opc)
  have hm : r ∈ Spec.table := by simp [Spec.table, hr]
  simp only [Spec.rows4, List.mem_cons, List.not_mem_nil, or_false] at hr
  rcases hr with rfl | rfl | rfl | rfl | rfl | rfl | rfl | rfl | rfl | rfl | rfl
  · exact .plain (.lts (regOf ra) (regOf rb)) (.of_zeroButRaRb hm rfl) (decodeFields_lts rd ra rb re fl z4)
  · exact .plain (.les (regOf ra) (regOf rb)) (.of_zeroButRaRb hm rfl) (decodeFields_les rd ra rb re fl z4)
  · exact .plain (.gts (regOf ra) (regOf rb)) (.of_zeroButRaRb hm rfl) (decodeFields_gts rd ra rb re fl z4)
  · exact .plain (.ges (regOf ra) (regOf rb)) (.of_zeroButRaRb hm rfl) (decodeFields_ges rd ra rb re fl z4)
  · exact .plain (.fromfu (regOf rd) (fpOf (fl.getLsbD 0)) 0) (.of_zeroButRd hm rfl (flHigh7_eq_zero_iff _))
      (decodeFields_fromfu rd ra rb re fl z4)
  · exact .plain (.fromfs (regOf rd) (fpOf (fl.getLsbD 0)) 0) (.of_zeroButRd hm rfl (flHigh7_eq_zero_iff _))
      (decodeFields_fromfs rd ra rb re fl z4)
  · exact .plain (.tofu (regOf ra) (fpOf (fl.getLsbD 0))) (.of_zeroButRa hm rfl (flHigh7_eq_zero_iff _))
      (decodeFields_tofu rd ra rb re fl z4)
  · exact .plain (.tofs (regOf ra) (fpOf (fl.getLsbD 0))) (.of_zeroButRa hm rfl (flHigh7_eq_zero_iff _))
      (decodeFields_tofs rd ra rb re fl z4)
  · exact .named (.of_zeroButRa hm rfl (flHigh2_eq_zero_iff _))
      (decodeFields_fmt rd ra rb re fl z4) (by simp [reserved_packWord, opcode, unpackWord, baseOf_eq_none_iff])
  · exact .named (.of_zeroButFl hm rfl (flHigh5_eq_zero_iff _))
      (decodeFields_rdtxt rd ra rb re fl z4) (by simp [reserved_packWord, opcode, unpackWord, textWordOf_eq_none_iff])
  · exact .named (.of_zeroButFl hm rfl (flHigh6_eq_zero_iff _))
      (decodeFields_rdcr rd ra rb re fl z4) (by simp [reserved_packWord, opcode, unpackWord, ctrlRegOf_eq_none_iff])

/-- R75 (a). -/
theorem decodeFields_unknown {f : Fields} (h : ∀ r ∈ Spec.table, opcode r ≠ f.opc) (x y : Limb) :
    decodeFields f x y = .error .unknownOpcode := by
  have key : ∀ n, f.opc.toNat = n → n ∉ Spec.table.map (fun r => (opcode r).toNat) := by
    rintro n rfl hn
    obtain ⟨r, hr, he⟩ := List.mem_map.mp hn
    exact h r hr (BitVec.eq_of_toNat_eq he)
  unfold decodeFields
  split
  case h_45 => rfl
  all_goals
    rename_i hc
    exact absurd (by decide) (key _ hc)

theorem decodeFields_case (f : Fields) : DecodeCase f (decodeFields f) := by
  by_cases h : ∃ r ∈ Spec.table, opcode r = f.opc
  · obtain ⟨r, hr, hopc⟩ := h
    simp only [Spec.table, List.mem_append, or_assoc] at hr
    rcases hr with h1 | h2 | h3 | h4
    · exact decodeCase_rows1 f r h1 hopc
    · exact decodeCase_rows2 f r h2 hopc
    · exact decodeCase_rows3 f r h3 hopc
    · exact decodeCase_rows4 f r h4 hopc
  · have hu : ∀ r ∈ Spec.table, opcode r ≠ f.opc := fun r hr ho => h ⟨r, hr, ho⟩
    refine .illegal ?_ .unknownOpcode (decodeFields_unknown hu)
    rintro ⟨⟨r, hr, hs⟩, -⟩
    exact hu r hr (opcode_of_selects hr hs)

/-! ### Packets -/

/-- The same for a command word. -/
theorem decode_case (w : CmdWord) :
    (¬ Spec.legal w ∧ ∃ e, ∀ x y, decode ⟨w, x, y⟩ = .error e) ∨
      ∃ i, (rowOf i).Selects w ∧ ¬ Spec.reserved w ∧ ∀ x y, decode ⟨w, x, y⟩ = .ok (withPayload x y i) := by
  have hw : packWord (unpackWord w) = w := packWord_unpackWord w
  cases decodeFields_case (unpackWord w) with
  | illegal h e hg => exact .inl ⟨hw ▸ h, e, hg⟩
  | legal i hs hr hg => exact .inr ⟨i, hw ▸ hs, hw ▸ hr, hg⟩

theorem rowOf_withPayload (x y : Limb) (i : Instr) : rowOf (withPayload x y i) = rowOf i := by
  cases i <;> rfl

theorem runsWhileHalted_withPayload (x y : Limb) (i : Instr) : runsWhileHalted (withPayload x y i) = runsWhileHalted i := by
  cases i <;> rfl

/-- A decoded instruction has the packet's row, and the same word with another payload decodes to it with that payload. -/
theorem decode_ok {p : Packet} {i : Instr} (h : decode p = .ok i) :
    (rowOf i).Selects p.cw ∧ ∀ x y, decode ⟨p.cw, x, y⟩ = .ok (withPayload x y i) := by
  obtain ⟨hl, e, hd⟩ | ⟨j, hs, hr, hd⟩ := decode_case p.cw
  · cases (hd p.x p.y).symm.trans h
  · obtain rfl : withPayload p.x p.y j = i := Except.ok.inj ((hd p.x p.y).symm.trans h)
    refine ⟨rowOf_withPayload p.x p.y j ▸ hs, fun x y => ?_⟩
    rw [hd]; cases j <;> rfl

/-- Settles O3: the decoder either refuses a word that is not legal or finds the row of a legal one. -/
theorem legalWordsAreTableWords : Obligations.LegalWordsAreTableWords := by
  rintro ⟨w, x, y⟩
  obtain ⟨hl, e, hd⟩ | ⟨i, hs, hr, hd⟩ := decode_case w
  · exact iff_of_false (by rintro ⟨i, hi⟩; rw [hd] at hi; cases hi) hl
  · exact iff_of_true ⟨_, hd x y⟩ ⟨⟨rowOf i, rowOf_mem i, hs⟩, hr⟩

/-- Settles O4: a decoded word is in its instruction's row, and opcodes tell the rows apart. -/
theorem wordSelectsItsOwnRow : Obligations.WordSelectsItsOwnRow := by
  refine ⟨rfl, ?own, ?disjoint⟩
  case own =>
    intro p i h
    exact ⟨rowOf i, rowOf_mem i, rfl, (decode_ok h).1⟩
  case disjoint =>
    intro w r hr r' hr' h h'
    rw [← packWord_unpackWord w] at h h'
    exact row_eq_of_opcode_eq hr hr' ((opcode_of_selects hr h).trans (opcode_of_selects hr' h').symm)

/-- Settles O9: a word that is not legal is refused by the decoder, whatever the payload, and so raises `ILLEGAL`. -/
theorem illegalCommandFaults : Obligations.IllegalCommandFaults := by
  intro s p rest hf hin hl
  obtain ⟨-, e, hd⟩ | ⟨i, hs, hr, -⟩ := decode_case p.cw
  · have hp : s = present p { s with inputs := rest } := by rw [present, ← hin]
    rw [hp]
    exact raisesIllegal_of_decode hd p.x p.y { s with inputs := rest } hf
  · exact absurd ⟨⟨rowOf i, rowOf_mem i, hs⟩, hr⟩ hl

/-! ### The payload bits an instruction uses (R76) -/

/-- Words that agree under the mask of the low `k` bits have the same low `k` bits. -/
theorem setWidth_eq_of_and_eq {k : Nat} (hk : k ≤ 64) {x x' : Limb}
    (h : x &&& BitVec.ofNat 64 (2 ^ k - 1) = x' &&& BitVec.ofNat 64 (2 ^ k - 1)) : x.setWidth k = x'.setWidth k := by
  have low (z : Limb) : (z &&& BitVec.ofNat 64 (2 ^ k - 1)).toNat = (z.setWidth k).toNat := by
    have : 2 ^ k ≤ 2 ^ 64 := Nat.pow_le_pow_right (by decide) hk
    rw [BitVec.toNat_and, BitVec.toNat_ofNat, Nat.mod_eq_of_lt (by omega), Nat.and_two_pow_sub_one_eq_mod, BitVec.toNat_setWidth]
  exact BitVec.eq_of_toNat_eq (by rw [← low, ← low, h])

theorem nativeBits_eq (wd : NativeWidth) : nativeBits wd = 8 * 2 ^ Spec.widthCode wd := by cases wd <;> rfl

theorem nativeBits_le (wd : NativeWidth) : nativeBits wd ≤ 64 := by cases wd <;> decide

theorem extendNative_congr {wd : NativeWidth} {x x' : Limb}
    (h : x.setWidth (nativeBits wd) = x'.setWidth (nativeBits wd)) (sg : Bool) (n : Nat) :
    extendNative wd sg n x = extendNative wd sg n x' := by
  rw [extendNative, extendNative, h]

/-- The width of a float pattern in `X`. -/
def patternBits (fp : FpFormat) : Nat := 32 * 2 ^ Spec.fpCode fp

theorem patternBits_le (fp : FpFormat) : patternBits fp ≤ 64 := by cases fp <;> decide

theorem unpackFp_congr {fp : FpFormat} {x x' : Limb} (h : x.setWidth (patternBits fp) = x'.setWidth (patternBits fp)) :
    unpackFp fp x = unpackFp fp x' := by
  cases fp with
  | binary64 =>
    obtain rfl : x = x' := by simpa [patternBits, Spec.fpCode] using h
    rfl
  | binary32 =>
    replace h : x.setWidth 32 = x'.setWidth 32 := h
    have fields (z : Limb) : z.getLsbD 31 = (z.setWidth 32).getLsbD 31 ∧
        z.extractLsb' 23 8 = (z.setWidth 32).extractLsb' 23 8 ∧ z.extractLsb' 0 23 = (z.setWidth 32).extractLsb' 0 23 := by
      simp [BitVec.extractLsb'_setWidth_of_le]
    obtain ⟨sx, ex, fx⟩ := fields x
    obtain ⟨sx', ex', fx'⟩ := fields x'
    simp only [unpackFp, signPlace, exponent, fraction, sx, ex, fx, sx', ex', fx', h]

theorem execFromfu_congr {fp : FpFormat} {x x' : Limb} (h : x.setWidth (patternBits fp) = x'.setWidth (patternBits fp))
    (rd : Reg) (s : State) : execFromfu rd fp x s = execFromfu rd fp x' s := by
  rw [execFromfu, execFromfu, fromFloatUnsigned, fromFloatUnsigned, unpackFp_congr h]
  rfl

theorem execFromfs_congr {fp : FpFormat} {x x' : Limb} (h : x.setWidth (patternBits fp) = x'.setWidth (patternBits fp))
    (rd : Reg) (s : State) : execFromfs rd fp x s = execFromfs rd fp x' s := by
  rw [execFromfs, execFromfs, fromFloatSigned, fromFloatSigned, unpackFp_congr h]
  rfl

theorem exec_withPayload_congr {i : Instr} {x y x' y' : Limb} (hx : x &&& Spec.usedX i = x' &&& Spec.usedX i)
    (hy : y &&& Spec.usedY i = y' &&& Spec.usedY i) (s : State) :
    exec (withPayload x y i) s = exec (withPayload x' y' i) s := by
  have whole {z z' : Limb} (h : z &&& BitVec.allOnes 64 = z' &&& BitVec.allOnes 64) : z = z' := by
    rwa [BitVec.and_allOnes, BitVec.and_allOnes] at h
  cases i with
  | mkhl =>
    obtain rfl := whole hx
    obtain rfl := whole hy
    rfl
  | shl | shr | sar | rol | ror =>
    obtain rfl := whole hx
    rfl
  | fromint rd wd sg =>
    have h : x.setWidth (nativeBits wd) = x'.setWidth (nativeBits wd) :=
      setWidth_eq_of_and_eq (nativeBits_le wd) (nativeBits_eq wd ▸ hx)
    exact congrArg (fun v => done (writeV s rd v) 0) (extendNative_congr h sg 128)
  | fromfu rd fp => exact execFromfu_congr (setWidth_eq_of_and_eq (patternBits_le fp) hx) rd s
  | fromfs rd fp => exact execFromfs_congr (setWidth_eq_of_and_eq (patternBits_le fp) hx) rd s
  | _ => rfl

theorem runPacket_congr {p q : Packet} {i j : Instr} {s : State} (hp : decode p = .ok i) (hq : decode q = .ok j)
    (he : exec i s = exec j s) (hw : runsWhileHalted i = runsWhileHalted j) : runPacket p s = runPacket q s := by
  rw [runPacket, runPacket, hp, hq]
  simp only [he, hw]

/-- Settles O6: the word fixes the instruction but for its payload operands, and of these `exec` sees the used bits only. -/
theorem unusedPayloadIsIgnored : Obligations.UnusedPayloadIsIgnored := by
  intro s p q i hcw hp hx hy
  obtain ⟨-, hd⟩ := decode_ok hp
  have hp' : decode p = .ok (withPayload p.x p.y i) := hd p.x p.y
  have hq' : decode q = .ok (withPayload q.x q.y i) := by
    rw [hcw] at hd
    exact hd q.x q.y
  have hw : runsWhileHalted (withPayload p.x p.y i) = runsWhileHalted (withPayload q.x q.y i) := by
    rw [runsWhileHalted_withPayload, runsWhileHalted_withPayload]
  have run (r : Packet) : step { s with inputs := .command r :: s.inputs } = runPacket r s :=
    takeInput_command (rest := s.inputs) rfl
  rw [run, run]
  exact runPacket_congr hp' hq' (exec_withPayload_congr hx hy s) hw

end Sys2Proof.Proofs

/-! ## Proofs: halves, constants, copies and native integers (spec/40_construct_convert.md R100 to R108) -/

namespace Sys2Proof.Proofs

open Sys2Proof.Machine Sys2Proof.Laws

/-! ### Command words whose fields are register numbers -/

theorem ofNat_reg (r : Reg) : BitVec.ofNat 3 r.val = regBits r := BitVec.eq_of_toNat_eq (Nat.mod_eq_of_lt r.isLt)

/-- `Laws.decode_word` for register numbers, which are in range. -/
theorem decode_word_reg (opc : Nat) (rd ra rb re : Reg) {fl : Nat} (hfl : fl < 256) (x y : Limb) :
    decode ⟨Spec.word opc rd ra rb re fl, x, y⟩ =
      decodeFields ⟨BitVec.ofNat 8 opc, regBits rd, regBits ra, regBits rb, regBits re, BitVec.ofNat 8 fl, 0#4⟩ x y := by
  rw [decode_word rd.isLt ra.isLt rb.isLt re.isLt hfl, ofNat_reg, ofNat_reg, ofNat_reg, ofNat_reg]

theorem decode_mkhl (rd : Reg) (x y : Limb) : decode ⟨Spec.word 0x01 rd 0 0 0 0, x, y⟩ = .ok (.mkhl rd x y) :=
  (decode_word_reg 0x01 rd 0 0 0 (by decide) x y).trans (decodeFields_mkhl ..)

theorem decodes_gethi (ra : Reg) : Spec.Decodes (Spec.word 0x02 0 ra 0 0 0) (.gethi ra) := fun x y =>
  (decode_word_reg 0x02 0 ra 0 0 (by decide) x y).trans (decodeFields_gethi ..)

theorem decodes_getlo (ra : Reg) : Spec.Decodes (Spec.word 0x03 0 ra 0 0 0) (.getlo ra) := fun x y =>
  (decode_word_reg 0x03 0 ra 0 0 (by decide) x y).trans (decodeFields_getlo ..)

theorem decodes_ldc (rd : Reg) (k : Konst) : Spec.Decodes (Spec.word 0x04 rd 0 0 0 (Spec.konstCode k)) (.ldc rd k) := by
  intro x y
  cases k <;> exact (decode_word_reg 0x04 rd 0 0 0 (by decide) x y).trans (decodeFields_ldc ..)

/-- `K = 3` of `LDC` is reserved (R75 c). -/
theorem raisesIllegal_ldc (rd : Reg) : Spec.RaisesIllegal (Spec.word 0x04 rd 0 0 0 3) :=
  raisesIllegal_of_decode (e := .reservedField) fun x y =>
    (decode_word_reg 0x04 rd 0 0 0 (by decide) x y).trans (decodeFields_ldc ..)

theorem decodes_mov (rd ra : Reg) : Spec.Decodes (Spec.word 0x05 rd ra 0 0 0) (.mov rd ra) := fun x y =>
  (decode_word_reg 0x05 rd ra 0 0 (by decide) x y).trans (decodeFields_mov ..)

/-- `FL` of a native integer type: `WD` in bits 1:0, `SG` in bit 2 (R72). -/
def nativeFl (wd : NativeWidth) : Bool → Nat
  | false => Spec.widthCode wd
  | true => 4 + Spec.widthCode wd

theorem decodesX_fromint (rd : Reg) (wd : NativeWidth) (sg : Bool) :
    Spec.DecodesX (Spec.word 0x06 rd 0 0 0 (nativeFl wd sg)) (.fromint rd wd sg) := by
  intro x y
  cases wd <;> cases sg <;> exact (decode_word_reg 0x06 rd 0 0 0 (by decide) x y).trans (decodeFields_fromint ..)

theorem decodes_toint (ra : Reg) (wd : NativeWidth) (sg : Bool) :
    Spec.Decodes (Spec.word 0x07 0 ra 0 0 (nativeFl wd sg)) (.toint ra wd sg) := by
  intro x y
  cases wd <;> cases sg <;> exact (decode_word_reg 0x07 0 ra 0 0 (by decide) x y).trans (decodeFields_toint ..)

/-! ### The instructions in the running unit, each with its datapath's value -/

section
variable {s : State} (h : s.flt = 0)
include h

theorem exec_mkhl_running (rd : Reg) (x y : Limb) : exec (.mkhl rd x y) s = .next (Spec.wrote s rd (pair x y)) :=
  (exec_mkhl rd x y s).trans (done_writeV_running h rd (pair x y))

theorem exec_gethi_running (ra : Reg) : exec (.gethi ra) s = .next (Spec.executed s (hi s.v[ra])) :=
  (exec_gethi ra s).trans (done_running h (hi s.v[ra]))

theorem exec_getlo_running (ra : Reg) : exec (.getlo ra) s = .next (Spec.executed s (lo s.v[ra])) :=
  (exec_getlo ra s).trans (done_running h (lo s.v[ra]))

theorem exec_mov_running (rd ra : Reg) : exec (.mov rd ra) s = .next (Spec.wrote s rd s.v[ra]) :=
  (exec_mov rd ra s).trans (done_writeV_running h rd s.v[ra])

theorem exec_fromint_running (rd : Reg) (wd : NativeWidth) (sg : Bool) (x : Limb) :
    exec (.fromint rd wd sg x) s = .next (Spec.wrote s rd (extendNative wd sg 128 x)) :=
  (exec_fromint rd wd sg x s).trans (done_writeV_running h rd (extendNative wd sg 128 x))

theorem exec_toint_running (ra : Reg) (wd : NativeWidth) (sg : Bool) :
    exec (.toint ra wd sg) s = .next (Spec.executed s (extendNative wd sg 64 (lo s.v[ra]))) :=
  (exec_toint ra wd sg s).trans (done_running h (extendNative wd sg 64 (lo s.v[ra])))

end

/-! ### Halves as numbers (R100 to R102) -/

theorem pair_eq_ofNat (h l : Limb) : pair h l = BitVec.ofNat 128 (h.toNat * 2 ^ 64 + l.toNat) := by
  rw [← toNat_pair, BitVec.ofNat_toNat, BitVec.setWidth_eq]

theorem hi_eq_ofNat (v : Value) : hi v = BitVec.ofNat 64 (v.toNat / 2 ^ 64) := by
  rw [← toNat_hi, BitVec.ofNat_toNat, BitVec.setWidth_eq]

theorem lo_eq_ofNat (v : Value) : lo v = BitVec.ofNat 64 (v.toNat % 2 ^ 64) := by
  rw [← toNat_lo, BitVec.ofNat_toNat, BitVec.setWidth_eq]

/-- Settles O25: each word by its row of the decoder, each result by its datapath's value as a number. -/
theorem halvesConstantsAndCopy : Obligations.HalvesConstantsAndCopy := by
  intro rd ra x y k
  refine ⟨decode_mkhl rd x y, decodes_gethi ra, decodes_getlo ra, decodes_ldc rd k, raisesIllegal_ldc rd, decodes_mov rd ra,
    fun s h => ⟨?mkhl, ?gethi, ?getlo, ?umax, ?smax, ?smin, exec_mov_running h rd ra⟩⟩
  case mkhl => rw [exec_mkhl_running h, pair_eq_ofNat]
  case gethi => rw [exec_gethi_running h, hi_eq_ofNat]
  case getlo => rw [exec_getlo_running h, lo_eq_ofNat]
  case umax => rw [exec_ldc_running h, constant_umax]
  case smax => rw [exec_ldc_running h, constant_smax]
  case smin => rw [exec_ldc_running h, constant_smin]

/-! ### Native integers as numbers (R105, R106) -/

/-- The low bits of a value are the low bits of its low limb. -/
theorem setWidth_lo {k : Nat} (hk : k ≤ 64) (v : Value) : (lo v).setWidth k = v.setWidth k := by
  apply BitVec.eq_of_toNat_eq
  rw [BitVec.toNat_setWidth, BitVec.toNat_setWidth, toNat_lo, Nat.mod_mod_of_dvd _ (Nat.pow_dvd_pow 2 hk)]

section
variable {wd : NativeWidth} {x : Limb} {w : Nat} {u : BitVec w} (h : x.setWidth (nativeBits wd) = u.setWidth (nativeBits wd))
  (n : Nat)
include h

/-- The extension of `X[W-1:0]` depends on the number it stands for: `u` is any word with the same low `W` bits. -/
theorem extendNative_unsigned_eq_mod :
    extendNative wd false n x = BitVec.ofNat n (u.toNat % 2 ^ (8 * 2 ^ Spec.widthCode wd)) := by
  rw [← nativeBits_eq, ← BitVec.toNat_setWidth, ← h, BitVec.ofNat_toNat]
  rfl

theorem extendNative_signed_eq_bmod :
    extendNative wd true n x = BitVec.ofInt n ((u.toNat : Int).bmod (2 ^ (8 * 2 ^ Spec.widthCode wd))) := by
  rw [← nativeBits_eq, ← BitVec.toInt_setWidth, ← h]
  rfl

end

/-- Settles O27: the extension of the low bits of `X` itself. -/
theorem fromNativeInteger : Obligations.FromNativeInteger := by
  intro rd wd x
  refine ⟨decodesX_fromint rd wd false, decodesX_fromint rd wd true, fun s h => ⟨?unsigned, ?signed⟩⟩
  case unsigned => rw [exec_fromint_running h, extendNative_unsigned_eq_mod rfl]
  case signed => rw [exec_fromint_running h, extendNative_signed_eq_bmod rfl]

/-- Settles O28: the low limb has the low bits of the whole value. -/
theorem toNativeInteger : Obligations.ToNativeInteger := by
  intro ra wd
  refine ⟨decodes_toint ra wd false, decodes_toint ra wd true, fun s h => ?_⟩
  have low : (lo s.v[ra]).setWidth (nativeBits wd) = s.v[ra].setWidth (nativeBits wd) := setWidth_lo (nativeBits_le wd) s.v[ra]
  constructor
  · rw [exec_toint_running h, extendNative_unsigned_eq_mod low]
  · rw [exec_toint_running h, extendNative_signed_eq_bmod low]

/-! ### A 64-bit native integer is a low limb (R108) -/

theorem extendNative_w64_limb (sg : Bool) (x : Limb) : extendNative .w64 sg 64 x = x := by
  cases sg
  · exact (BitVec.setWidth_eq _).trans (BitVec.setWidth_eq x)
  · exact (BitVec.signExtend_eq _).trans (BitVec.setWidth_eq x)

/-- The high limb that extends the low limb `x` by signedness: zeros, or the sign of `x` in every bit. -/
def highLimb (sg : Bool) (x : Limb) : Limb := if sg && x.msb then BitVec.allOnes 64 else 0

/-- Bit 63 of a value is the sign of its low limb. -/
theorem msb_lo (v : Value) : (lo v).msb = v.getLsbD 63 := by
  rw [BitVec.msb_eq_getLsbD_last, getLsbD_lo]
  rfl

theorem toNat_highLimb (sg : Bool) (x : Limb) :
    (highLimb sg x).toNat = if sg = true ∧ x.msb = true then 2 ^ 64 - 1 else 0 := by
  simp only [highLimb, Bool.and_eq_true]
  split <;> rfl

/-- A 64-bit native integer becomes the value with it as the low limb and its extension as the high limb. -/
theorem extendNative_w64_value (sg : Bool) (x : Limb) : extendNative .w64 sg 128 x = pair (highLimb sg x) x := by
  have hx := x.isLt
  apply BitVec.eq_of_toNat_eq
  rw [toNat_pair, toNat_highLimb]
  cases sg with
  | false =>
    change ((x.setWidth 64).setWidth 128).toNat = _
    rw [BitVec.setWidth_eq, BitVec.toNat_setWidth, if_neg (by simp)]
    omega
  | true =>
    change ((x.setWidth 64).signExtend 128).toNat = _
    rw [BitVec.setWidth_eq, BitVec.toNat_signExtend, BitVec.toNat_setWidth]
    cases x.msb <;> simp <;> omega

/-- Settles O29: the native integer is the low limb, and the value built from it has it as its low limb again. -/
theorem conversionIdempotence : Obligations.ConversionIdempotence := by
  intro rd ra sg s h
  generalize hv : s.v[ra] = v
  have toint : exec (.toint ra .w64 sg) s = .next (Spec.executed s (lo v)) := by
    rw [exec_toint_running h, extendNative_w64_limb, hv]
  have fromint : exec (.fromint rd .w64 sg (lo v)) (Spec.executed s (lo v)) =
      .next (Spec.wrote (Spec.executed s (lo v)) rd (pair (highLimb sg (lo v)) (lo v))) := by
    rw [exec_fromint_running (s := Spec.executed s (lo v)) h, extendNative_w64_value]
  refine ⟨lo v, pair (highLimb sg (lo v)) (lo v), Spec.executed s (lo v), toint, rfl, fromint, toNat_lo v, ?low, ?high⟩
  case low => rw [← toNat_lo, lo_pair, toNat_lo]
  case high => rw [← toNat_hi, hi_pair, toNat_highLimb, msb_lo]

end Sys2Proof.Proofs

/-! ## Proofs: sums, differences, products and negations (spec/41_add_sub_mul.md R121 to R128) -/

namespace Sys2Proof.Proofs

open Sys2Proof.Machine Sys2Proof.Laws

/-! ### The words -/

theorem decodes_add (rd ra rb : Reg) : Spec.Decodes (Spec.word 0x10 rd ra rb 0 0) (.add rd ra rb) := fun x y =>
  (decode_word_reg 0x10 rd ra rb 0 (by decide) x y).trans (decodeFields_add ..)

theorem decodes_sub (rd ra rb : Reg) : Spec.Decodes (Spec.word 0x11 rd ra rb 0 0) (.sub rd ra rb) := fun x y =>
  (decode_word_reg 0x11 rd ra rb 0 (by decide) x y).trans (decodeFields_sub ..)

theorem decodes_mul (rd ra rb : Reg) : Spec.Decodes (Spec.word 0x12 rd ra rb 0 0) (.mul rd ra rb) := fun x y =>
  (decode_word_reg 0x12 rd ra rb 0 (by decide) x y).trans (decodeFields_mul ..)

theorem decodes_neg (rd ra : Reg) : Spec.Decodes (Spec.word 0x13 rd ra 0 0 0) (.neg rd ra) := fun x y =>
  (decode_word_reg 0x13 rd ra 0 0 (by decide) x y).trans (decodeFields_neg ..)

theorem decodes_negs (rd ra : Reg) : Spec.Decodes (Spec.word 0x14 rd ra 0 0 0) (.negs rd ra) := fun x y =>
  (decode_word_reg 0x14 rd ra 0 0 (by decide) x y).trans (decodeFields_negs ..)

/-- The word `FINFO` keeps when `NEGS` faults (R306). -/
theorem encodeWord_negs (rd ra : Reg) : encodeWord (.negs rd ra) = Spec.word 0x14 rd ra 0 0 0 :=
  encodeWord_eq_word (.negs rd ra) rfl

/-! ### The instructions in the running unit, each with the `BitVec` operation its datapath computes -/

section
variable {s : State} (h : s.flt = 0)
include h

theorem exec_add_running (rd ra rb : Reg) : exec (.add rd ra rb) s = .next (Spec.wrote s rd (s.v[ra] + s.v[rb])) := by
  rw [exec_add, execAdd, wrapOrStop_eq, add128_eq, done_writeV_running h, readV_eq, readV_eq]

theorem exec_sub_running (rd ra rb : Reg) : exec (.sub rd ra rb) s = .next (Spec.wrote s rd (s.v[ra] - s.v[rb])) := by
  rw [exec_sub, execSub, wrapOrStop_eq, sub128_eq, done_writeV_running h, readV_eq, readV_eq]

theorem exec_mul_running (rd ra rb : Reg) : exec (.mul rd ra rb) s = .next (Spec.wrote s rd (s.v[ra] * s.v[rb])) := by
  rw [exec_mul, execMul, wrapOrStop_eq, mul128_eq, done_writeV_running h, readV_eq, readV_eq]

theorem exec_neg_running (rd ra : Reg) : exec (.neg rd ra) s = .next (Spec.wrote s rd (-s.v[ra])) := by
  rw [exec_neg, execNeg, neg128_eq, done_writeV_running h, readV_eq]

theorem exec_negs_running {rd ra : Reg} (hne : s.v[ra] ≠ signedMin) :
    exec (.negs rd ra) s = .next (Spec.wrote s rd (-s.v[ra])) := by
  rw [exec_negs, execNegs, readV_eq, if_neg hne, neg128_eq, done_writeV_running h]

end

/-- `SNEGOVF` (R128). -/
theorem exec_negs_signedMin {s : State} {rd ra : Reg} (hmin : s.v[ra] = signedMin) :
    exec (.negs rd ra) s = .next (Spec.faulted s 0x04 (Spec.word 0x14 rd ra 0 0 0)) := by
  rw [exec_negs, execNegs, readV_eq, if_pos hmin, violation_running .snegovf (.negs rd ra) s (encodeWord_negs rd ra)]
  rfl

/-! ### Results as numbers modulo 2^128 (R121, R123, R125, R127) -/

theorem sub_eq_ofInt (a b : Value) : a - b = BitVec.ofInt 128 (a.toNat - b.toNat) := by
  have cast (v : Value) : BitVec.ofInt 128 (v.toNat : Int) = v := by
    rw [BitVec.ofInt_natCast, BitVec.ofNat_toNat, BitVec.setWidth_eq]
  rw [Int.sub_eq_add_neg, BitVec.ofInt_add, BitVec.ofInt_neg, cast, cast, BitVec.sub_eq_add_neg]

theorem mul_eq_ofNat (a b : Value) : a * b = BitVec.ofNat 128 (a.toNat * b.toNat) :=
  BitVec.eq_of_toNat_eq (by rw [BitVec.toNat_mul, BitVec.toNat_ofNat])

theorem neg_eq_ofNat (a : Value) : -a = BitVec.ofNat 128 (2 ^ 128 - a.toNat) :=
  BitVec.eq_of_toNat_eq (by rw [BitVec.toNat_neg, BitVec.toNat_ofNat])

/-- Settles O30: each result is a `BitVec` operation, which is the operation on numbers modulo 2^128. -/
theorem addSubMulNegate : Obligations.AddSubMulNegate := by
  intro rd ra rb
  refine ⟨decodes_add rd ra rb, decodes_sub rd ra rb, decodes_mul rd ra rb, decodes_neg rd ra,
    fun s h => ⟨?add, ?sub, ?mul, ?neg⟩⟩
  case add => rw [exec_add_running h, BitVec.add_def]
  case sub => rw [exec_sub_running h, sub_eq_ofInt]
  case mul => rw [exec_mul_running h, mul_eq_ofNat]
  case neg => rw [exec_neg_running h, neg_eq_ofNat]

/-! ### Negation in the signed view (R128) -/

theorem signedMin_eq_intMin : signedMin = BitVec.intMin 128 := by decide

/-- SignedMin is the value whose signed reading is least. -/
theorem eq_signedMin_iff (v : Value) : v = signedMin ↔ v.toInt = -2 ^ 127 := by
  rw [signedMin_eq_intMin, ← BitVec.toInt_inj, BitVec.toInt_intMin]
  rfl

/-- Negation is exact where its result fits. -/
theorem toInt_neg_of_ne_signedMin {v : Value} (h : v ≠ signedMin) : (-v).toInt = -v.toInt :=
  BitVec.toInt_neg_of_ne_intMin (signedMin_eq_intMin ▸ h)

/-- Settles O32: only SignedMin has no negation in the signed view, and it is what the guard of `NEGS` tests. -/
theorem negateSigned : Obligations.NegateSigned := by
  intro rd ra
  refine ⟨decodes_negs rd ra, fun s h => ⟨fun hne => ?negates, fun hmin => ?faults⟩⟩
  case negates =>
    have hv : s.v[ra] ≠ signedMin := fun e => hne ((eq_signedMin_iff s.v[ra]).mp e)
    exact ⟨-s.v[ra], exec_negs_running h hv, toInt_neg_of_ne_signedMin hv⟩
  case faults => exact exec_negs_signedMin ((eq_signedMin_iff s.v[ra]).mpr hmin)

end Sys2Proof.Proofs

/-! ## Proofs: shifts and rotates (spec/42_shift_rotate.md R140 to R147) -/

namespace Sys2Proof.Proofs

open Sys2Proof.Machine Sys2Proof.Laws

/-! ### The words -/

theorem decodesX_shl (rd ra : Reg) : Spec.DecodesX (Spec.word 0x20 rd ra 0 0 0) (.shl rd ra) := fun x y =>
  (decode_word_reg 0x20 rd ra 0 0 (by decide) x y).trans (decodeFields_shl ..)

theorem decodesX_shr (rd ra : Reg) : Spec.DecodesX (Spec.word 0x21 rd ra 0 0 0) (.shr rd ra) := fun x y =>
  (decode_word_reg 0x21 rd ra 0 0 (by decide) x y).trans (decodeFields_shr ..)

theorem decodesX_sar (rd ra : Reg) : Spec.DecodesX (Spec.word 0x22 rd ra 0 0 0) (.sar rd ra) := fun x y =>
  (decode_word_reg 0x22 rd ra 0 0 (by decide) x y).trans (decodeFields_sar ..)

theorem decodesX_rol (rd ra : Reg) : Spec.DecodesX (Spec.word 0x23 rd ra 0 0 0) (.rol rd ra) := fun x y =>
  (decode_word_reg 0x23 rd ra 0 0 (by decide) x y).trans (decodeFields_rol ..)

theorem decodesX_ror (rd ra : Reg) : Spec.DecodesX (Spec.word 0x24 rd ra 0 0 0) (.ror rd ra) := fun x y =>
  (decode_word_reg 0x24 rd ra 0 0 (by decide) x y).trans (decodeFields_ror ..)

/-! ### Amounts in [0, 128): the running unit writes the `BitVec` operation the barrel computes -/

section
variable {s : State} {x : Limb} (h : s.flt = 0) (h0 : 0 ≤ x.toInt) (h1 : x.toInt < 128) (rd ra : Reg)
include h h0 h1

theorem exec_shl_running : exec (.shl rd ra x) s = .next (Spec.wrote s rd (s.v[ra] <<< x.toInt.toNat)) := by
  simp only [exec_shl, execShl, shiftAmount_some h0 h1, shl128_eq, readV_eq, done_writeV_running h]

theorem exec_shr_running : exec (.shr rd ra x) s = .next (Spec.wrote s rd (s.v[ra] >>> x.toInt.toNat)) := by
  simp only [exec_shr, execShr, shiftAmount_some h0 h1, shr128_eq, readV_eq, done_writeV_running h]

theorem exec_sar_running :
    exec (.sar rd ra x) s = .next (Spec.wrote s rd (s.v[ra].sshiftRight x.toInt.toNat)) := by
  simp only [exec_sar, execSar, shiftAmount_some h0 h1, sar128_eq, readV_eq, done_writeV_running h]

theorem exec_rol_running :
    exec (.rol rd ra x) s = .next (Spec.wrote s rd (s.v[ra].rotateLeft x.toInt.toNat)) := by
  simp only [exec_rol, execRol, shiftAmount_some h0 h1, rol128_eq, readV_eq, done_writeV_running h]

theorem exec_ror_running :
    exec (.ror rd ra x) s = .next (Spec.wrote s rd (s.v[ra].rotateRight x.toInt.toNat)) := by
  simp only [exec_ror, execRor, shiftAmount_some h0 h1, ror128_eq, readV_eq, done_writeV_running h]

end

/-! ### Any other amount is the violation `SHAMT` (R140) -/

section
variable {x : Limb} (hx : x.toInt < 0 ∨ 128 ≤ x.toInt) (rd ra : Reg) (s : State)
include hx

theorem exec_shl_shamt : exec (.shl rd ra x) s = .next (Spec.faulted s 0x05 (Spec.word 0x20 rd ra 0 0 0)) := by
  simp only [exec_shl, execShl, shiftAmount_none hx]
  exact violation_running .shamt _ s (encodeWord_eq_word _ rfl)

theorem exec_shr_shamt : exec (.shr rd ra x) s = .next (Spec.faulted s 0x05 (Spec.word 0x21 rd ra 0 0 0)) := by
  simp only [exec_shr, execShr, shiftAmount_none hx]
  exact violation_running .shamt _ s (encodeWord_eq_word _ rfl)

theorem exec_sar_shamt : exec (.sar rd ra x) s = .next (Spec.faulted s 0x05 (Spec.word 0x22 rd ra 0 0 0)) := by
  simp only [exec_sar, execSar, shiftAmount_none hx]
  exact violation_running .shamt _ s (encodeWord_eq_word _ rfl)

theorem exec_rol_shamt : exec (.rol rd ra x) s = .next (Spec.faulted s 0x05 (Spec.word 0x23 rd ra 0 0 0)) := by
  simp only [exec_rol, execRol, shiftAmount_none hx]
  exact violation_running .shamt _ s (encodeWord_eq_word _ rfl)

theorem exec_ror_shamt : exec (.ror rd ra x) s = .next (Spec.faulted s 0x05 (Spec.word 0x24 rd ra 0 0 0)) := by
  simp only [exec_ror, execRor, shiftAmount_none hx]
  exact violation_running .shamt _ s (encodeWord_eq_word _ rfl)

end

/-! ### Shifts as numbers (R142, R144, R145) -/

theorem shiftLeft_eq_ofNat (v : Value) (n : Nat) : v <<< n = BitVec.ofNat 128 (v.toNat * 2 ^ n) :=
  BitVec.eq_of_toNat_eq (by rw [BitVec.toNat_shiftLeft, BitVec.toNat_ofNat, Nat.shiftLeft_eq])

theorem ushiftRight_eq_ofNat (v : Value) (n : Nat) : v >>> n = BitVec.ofNat 128 (v.toNat / 2 ^ n) := by
  rw [← Nat.shiftRight_eq_div_pow, ← BitVec.toNat_ushiftRight, BitVec.ofNat_toNat, BitVec.setWidth_eq]

/-- Rounding toward minus infinity: the shift of the signed reading is its integer quotient, which is the floor (R145). -/
theorem sshiftRight_eq_ofInt_floor (v : Value) (n : Nat) :
    v.sshiftRight n = BitVec.ofInt 128 ⌊(v.toInt : ℚ) / 2 ^ n⌋ := by
  have floor : ⌊(v.toInt : ℚ) / 2 ^ n⌋ = v.toInt >>> n := by
    rw [Int.shiftRight_eq_div_pow, ← Rat.floor_intCast_div_natCast, Nat.cast_pow, Nat.cast_ofNat]
  rw [floor, BitVec.sshiftRight]

/-- Settles O33: the amount's test selects the clause, the barrel's value is the number. -/
theorem shifts : Obligations.Shifts := by
  intro rd ra
  refine ⟨decodesX_shl rd ra, decodesX_shr rd ra, decodesX_sar rd ra, fun x s h => ⟨fun h0 h1 => ⟨?shl, ?shr, ?sar⟩, fun hx =>
    ⟨exec_shl_shamt hx rd ra s, exec_shr_shamt hx rd ra s, exec_sar_shamt hx rd ra s⟩⟩⟩
  case shl => rw [exec_shl_running h h0 h1, shiftLeft_eq_ofNat]
  case shr => rw [exec_shr_running h h0 h1, ushiftRight_eq_ofNat]
  case sar => rw [exec_sar_running h h0 h1, sshiftRight_eq_ofInt_floor]

/-! ### Rotations bit by bit, indices modulo 128 (R146, R147) -/

section
variable (v : Value) {n : Nat} (hn : n < 128)
include hn

/-- Bit `j` of a left rotation comes from `n` places below, around the end. -/
theorem getLsbD_rotateLeft_mod {j : Nat} (hj : j < 128) :
    (v.rotateLeft n).getLsbD j = v.getLsbD ((j + 128 - n) % 128) := by
  rw [← rol128_eq v ⟨n, hn⟩, getLsbD_rol128 v ⟨n, hn⟩ hj]
  dsimp only
  split
  case isTrue below => rw [show (j + 128 - n) % 128 = 128 - n + j by omega]
  case isFalse above => rw [show (j + 128 - n) % 128 = j - n by omega]

/-- Bit `j` of a right rotation comes from `n` places above, around the end. -/
theorem getLsbD_rotateRight_mod {j : Nat} (hj : j < 128) :
    (v.rotateRight n).getLsbD j = v.getLsbD ((j + n) % 128) := by
  rw [← ror128_eq v ⟨n, hn⟩, getLsbD_ror128 v ⟨n, hn⟩ hj]
  dsimp only
  split
  case isTrue below => rw [show (j + n) % 128 = n + j by omega]
  case isFalse above => rw [show (j + n) % 128 = j - (128 - n) by omega]

/-- R146: bit `i` goes to bit `(i + n) mod 128`. -/
theorem getLsbD_rotateLeft_add {i : Nat} (hi : i < 128) : (v.rotateLeft n).getLsbD ((i + n) % 128) = v.getLsbD i := by
  rw [getLsbD_rotateLeft_mod v hn (Nat.mod_lt _ (by decide)), show ((i + n) % 128 + 128 - n) % 128 = i by omega]

/-- R147: bit `i` goes to bit `(i - n) mod 128`. -/
theorem getLsbD_rotateRight_sub {i : Nat} (hi : i < 128) :
    (v.rotateRight n).getLsbD ((i + 128 - n) % 128) = v.getLsbD i := by
  rw [getLsbD_rotateRight_mod v hn (Nat.mod_lt _ (by decide)), show ((i + 128 - n) % 128 + n) % 128 = i by omega]

/-- Rotating left undoes rotating right: both move every bit by `n`, in opposite directions. -/
theorem rotateLeft_rotateRight : (v.rotateRight n).rotateLeft n = v := by
  refine BitVec.eq_of_getLsbD_eq fun j hj => ?_
  rw [getLsbD_rotateLeft_mod _ hn hj, getLsbD_rotateRight_sub v hn hj]

/-- For a nonzero amount, the rest of the way around to the left is the way to the right. -/
theorem rotateLeft_complement (hpos : 1 ≤ n) : v.rotateLeft (128 - n) = v.rotateRight n := by
  refine BitVec.eq_of_getLsbD_eq fun j hj => ?_
  rw [getLsbD_rotateLeft_mod v (by omega) hj, getLsbD_rotateRight_mod v hn hj, show j + 128 - (128 - n) = j + n by omega]

end

/-- The amount `128 - X` is computed without wrapping for an amount `X`. -/
theorem toInt_complement {x : Limb} (h0 : 0 ≤ x.toInt) (h1 : x.toInt < 128) : (128 - x).toInt = 128 - x.toInt := by
  have h128 : (128 : Limb).toInt = 128 := by decide
  rw [BitVec.toInt_sub, h128, Int.bmod_eq_of_le (by omega) (by omega)]

/-- A register just written reads as it was written, the response apart. -/
theorem wrote_getElem_same (s : State) (r : Reg) (x : Value) : (Spec.wrote s r x).v[r] = x := readV_writeV_same s r x

/-- Settles O34: each instruction is its rotation, and the rotations are the same movement of bits modulo 128. -/
theorem rotates : Obligations.Rotates := by
  intro rd ra
  refine ⟨decodesX_rol rd ra, decodesX_ror rd ra, fun x s h => ⟨fun h0 h1 => ?inRange, fun hx =>
    ⟨exec_rol_shamt hx rd ra s, exec_ror_shamt hx rd ra s⟩⟩⟩
  case inRange =>
    have hn : x.toInt.toNat < 128 := by omega
    refine ⟨s.v[ra].rotateLeft x.toInt.toNat, s.v[ra].rotateRight x.toInt.toNat, exec_rol_running h h0 h1 rd ra,
      exec_ror_running h h0 h1 rd ra,
      fun i hi => ⟨getLsbD_rotateLeft_add s.v[ra] hn hi, getLsbD_rotateRight_sub s.v[ra] hn hi⟩, fun hpos => ?complement, ?undo⟩
    case complement =>
      have hc := toInt_complement h0 h1
      rw [exec_rol_running h (by omega) (by omega), show (128 - x).toInt.toNat = 128 - x.toInt.toNat by omega,
        rotateLeft_complement s.v[ra] hn (by omega)]
    case undo =>
      rw [exec_rol_running (s := Spec.wrote s rd _) h h0 h1, wrote_getElem_same, rotateLeft_rotateRight s.v[ra] hn]

end Sys2Proof.Proofs

/-! ## Proofs: comparisons (spec/43_compare.md R160 to R171) -/

namespace Sys2Proof.Proofs

open Sys2Proof.Machine Sys2Proof.Laws

/-! ### The words: all ten comparisons have one shape, an opcode, two operand registers and zeros -/

/-- The word of an opcode whose decoder row asks for zeros outside `RA` and `RB`, as each comparison's does. -/
theorem decodes_compare {opc : Nat} {i : Reg → Reg → Instr}
    (row : ∀ rd ra rb re fl z4 x y, decodeFields ⟨BitVec.ofNat 8 opc, rd, ra, rb, re, fl, z4⟩ x y =
      needZero (zeroButRaRb ⟨BitVec.ofNat 8 opc, rd, ra, rb, re, fl, z4⟩) (.ok (i (regOf ra) (regOf rb))))
    (ra rb : Reg) : Spec.Decodes (Spec.word opc 0 ra rb 0 0) (i ra rb) := fun x y =>
  (decode_word_reg opc 0 ra rb 0 (by decide) x y).trans (row ..)

/-! ### The complemented tests (R161, R164, R166, R169, R171) -/

theorem not_eq128_iff (a b : Value) : (!eq128 a b) = true ↔ a ≠ b := by
  rw [Bool.not_eq_true', ← Bool.not_eq_true, eq128_iff]

theorem not_ult_iff (a b : Value) : (!ult a b) = true ↔ b.toNat ≤ a.toNat := by
  rw [Bool.not_eq_true', ← Bool.not_eq_true, ult_iff, Nat.not_lt]

theorem not_slt_iff (a b : Value) : (!slt a b) = true ↔ b.toInt ≤ a.toInt := by
  rw [Bool.not_eq_true', ← Bool.not_eq_true, slt_iff, Int.not_lt]

/-! ### The instructions in the running unit, each with the relation its test decides -/

section
variable {s : State} (h : s.flt = 0) (ra rb : Reg)
include h

/-- A comparison in the running unit: `Z` is 1 or 0 by the proposition its test decides, and nothing else is written. -/
theorem done_truth_running {b : Bool} {p : Prop} [Decidable p] (decides : b = true ↔ p) :
    done s (truth b) = .next (Spec.executed s (if p then 1 else 0)) := by
  rw [done_running h, truth, if_congr decides rfl rfl]

theorem exec_eq_running : exec (.eq ra rb) s = .next (Spec.executed s (if s.v[ra] = s.v[rb] then 1 else 0)) :=
  (exec_eq ra rb s).trans (done_truth_running h (eq128_iff ..))

theorem exec_ne_running : exec (.ne ra rb) s = .next (Spec.executed s (if s.v[ra] ≠ s.v[rb] then 1 else 0)) :=
  (exec_ne ra rb s).trans (done_truth_running h (not_eq128_iff ..))

theorem exec_ltu_running :
    exec (.ltu ra rb) s = .next (Spec.executed s (if s.v[ra].toNat < s.v[rb].toNat then 1 else 0)) :=
  (exec_ltu ra rb s).trans (done_truth_running h (ult_iff ..))

theorem exec_leu_running :
    exec (.leu ra rb) s = .next (Spec.executed s (if s.v[ra].toNat ≤ s.v[rb].toNat then 1 else 0)) :=
  (exec_leu ra rb s).trans (done_truth_running h (not_ult_iff ..))

theorem exec_gtu_running :
    exec (.gtu ra rb) s = .next (Spec.executed s (if s.v[ra].toNat > s.v[rb].toNat then 1 else 0)) :=
  (exec_gtu ra rb s).trans (done_truth_running h (ult_iff ..))

theorem exec_geu_running :
    exec (.geu ra rb) s = .next (Spec.executed s (if s.v[ra].toNat ≥ s.v[rb].toNat then 1 else 0)) :=
  (exec_geu ra rb s).trans (done_truth_running h (not_ult_iff ..))

theorem exec_lts_running :
    exec (.lts ra rb) s = .next (Spec.executed s (if s.v[ra].toInt < s.v[rb].toInt then 1 else 0)) :=
  (exec_lts ra rb s).trans (done_truth_running h (slt_iff ..))

theorem exec_les_running :
    exec (.les ra rb) s = .next (Spec.executed s (if s.v[ra].toInt ≤ s.v[rb].toInt then 1 else 0)) :=
  (exec_les ra rb s).trans (done_truth_running h (not_slt_iff ..))

theorem exec_gts_running :
    exec (.gts ra rb) s = .next (Spec.executed s (if s.v[ra].toInt > s.v[rb].toInt then 1 else 0)) :=
  (exec_gts ra rb s).trans (done_truth_running h (slt_iff ..))

theorem exec_ges_running :
    exec (.ges ra rb) s = .next (Spec.executed s (if s.v[ra].toInt ≥ s.v[rb].toInt then 1 else 0)) :=
  (exec_ges ra rb s).trans (done_truth_running h (not_slt_iff ..))

end

/-- Settles O37: each word by its row of the decoder, each truth value by what the limb-wise test decides about the operands. -/
theorem equalityAndUnsignedOrder : Obligations.EqualityAndUnsignedOrder := by
  intro ra rb
  exact ⟨decodes_compare decodeFields_eq ra rb, decodes_compare decodeFields_ne ra rb,
    decodes_compare decodeFields_ltu ra rb, decodes_compare decodeFields_leu ra rb,
    decodes_compare decodeFields_gtu ra rb, decodes_compare decodeFields_geu ra rb,
    fun s h => ⟨exec_eq_running h ra rb, exec_ne_running h ra rb, exec_ltu_running h ra rb, exec_leu_running h ra rb,
      exec_gtu_running h ra rb, exec_geu_running h ra rb⟩⟩

/-- Settles O38: as O37, with the test whose high limb is compared as a signed one (R167). -/
theorem signedOrder : Obligations.SignedOrder := by
  intro ra rb
  exact ⟨decodes_compare decodeFields_lts ra rb, decodes_compare decodeFields_les ra rb,
    decodes_compare decodeFields_gts ra rb, decodes_compare decodeFields_ges ra rb,
    fun s h => ⟨exec_lts_running h ra rb, exec_les_running h ra rb, exec_gts_running h ra rb, exec_ges_running h ra rb⟩⟩

end Sys2Proof.Proofs

/-! ## Proofs: bitwise logic (spec/44_bitwise.md R180 to R183) -/

namespace Sys2Proof.Proofs

open Sys2Proof.Machine Sys2Proof.Laws

/-! ### The words -/

/-- The word of an opcode whose decoder row asks for zeros outside `RD`, `RA` and `RB`, as those of `AND`, `OR`, `XOR` do. -/
theorem decodes_threeRegister {opc : Nat} {i : Reg → Reg → Reg → Instr}
    (row : ∀ rd ra rb re fl z4 x y, decodeFields ⟨BitVec.ofNat 8 opc, rd, ra, rb, re, fl, z4⟩ x y =
      needZero (zeroButRdRaRb ⟨BitVec.ofNat 8 opc, rd, ra, rb, re, fl, z4⟩) (.ok (i (regOf rd) (regOf ra) (regOf rb))))
    (rd ra rb : Reg) : Spec.Decodes (Spec.word opc rd ra rb 0 0) (i rd ra rb) := fun x y =>
  (decode_word_reg opc rd ra rb 0 (by decide) x y).trans (row ..)

theorem decodes_not (rd ra : Reg) : Spec.Decodes (Spec.word 0x2B rd ra 0 0 0) (.not rd ra) := fun x y =>
  (decode_word_reg 0x2B rd ra 0 0 (by decide) x y).trans (decodeFields_not ..)

/-! ### The instructions in the running unit, each with the `BitVec` operation its datapath computes -/

section
variable {s : State} (h : s.flt = 0)
include h

theorem exec_and_running (rd ra rb : Reg) : exec (.and rd ra rb) s = .next (Spec.wrote s rd (s.v[ra] &&& s.v[rb])) := by
  rw [exec_and, execAnd, and128_eq, done_writeV_running h, readV_eq, readV_eq]

theorem exec_or_running (rd ra rb : Reg) : exec (.or rd ra rb) s = .next (Spec.wrote s rd (s.v[ra] ||| s.v[rb])) := by
  rw [exec_or, execOr, or128_eq, done_writeV_running h, readV_eq, readV_eq]

theorem exec_xor_running (rd ra rb : Reg) : exec (.xor rd ra rb) s = .next (Spec.wrote s rd (s.v[ra] ^^^ s.v[rb])) := by
  rw [exec_xor, execXor, xor128_eq, done_writeV_running h, readV_eq, readV_eq]

theorem exec_not_running (rd ra : Reg) : exec (.not rd ra) s = .next (Spec.wrote s rd (~~~s.v[ra])) := by
  rw [exec_not, execNot, not128_eq, done_writeV_running h, readV_eq]

end

/-! ### The complement as a number in the signed view (R183) -/

/-- Exactly one of `v` and its complement has a clear bit 127, so exactly one of the two readings subtracts 2^128. -/
theorem toInt_not_eq (v : Value) : (~~~v).toInt = -v.toInt - 1 := by
  have hv := v.isLt
  rw [BitVec.toInt_eq_toNat_cond, BitVec.toInt_eq_toNat_cond, BitVec.toNat_not]
  split <;> split <;> omega

/-- Settles O36: each result is a `BitVec` operation, whose bits and, for the complement, numbers are known. -/
theorem bitwiseLogic : Obligations.BitwiseLogic := by
  intro rd ra rb
  refine ⟨decodes_threeRegister decodeFields_and rd ra rb, decodes_threeRegister decodeFields_or rd ra rb,
    decodes_threeRegister decodeFields_xor rd ra rb, decodes_not rd ra,
    fun s h => ⟨_, _, _, _, exec_and_running h rd ra rb, exec_or_running h rd ra rb, exec_xor_running h rd ra rb,
      exec_not_running h rd ra, fun i hi => ⟨?and, ?or, ?xor, ?not⟩, BitVec.toNat_not, toInt_not_eq s.v[ra]⟩⟩
  case and => exact BitVec.getLsbD_and
  case or => exact BitVec.getLsbD_or
  case xor => exact BitVec.getLsbD_xor
  case not => rw [BitVec.getLsbD_not, decide_eq_true hi, Bool.true_and]

end Sys2Proof.Proofs

/-! ## Proofs: division (spec/45_divide.md R192 to R200) -/

namespace Sys2Proof.Proofs

open Sys2Proof.Machine Sys2Proof.Laws

/-! ### The words: the single results have three registers (`decodes_threeRegister`), the combined ones four -/

section
variable {opc : Nat} {i : Reg → Reg → Reg → Reg → Instr}
  (row : ∀ rd ra rb re fl z4 x y, decodeFields ⟨BitVec.ofNat 8 opc, rd, ra, rb, re, fl, z4⟩ x y =
    needZero (zeroButRegs ⟨BitVec.ofNat 8 opc, rd, ra, rb, re, fl, z4⟩)
      (needDistinct rd re (i (regOf rd) (regOf re) (regOf ra) (regOf rb))))
include row

/-- The word of an opcode whose decoder row asks for distinct `RD` and `RE`, as those of `DIVMODU`, `DIVMODS` do. -/
theorem decodes_distinct {rd re : Reg} (hne : rd ≠ re) (ra rb : Reg) :
    Spec.Decodes (Spec.word opc rd ra rb re 0) (i rd re ra rb) := fun x y =>
  have hbits : regBits rd ≠ regBits re := fun e => hne (congrArg regOf e)
  ((decode_word_reg opc rd ra rb re (by decide) x y).trans (row ..)).trans (if_neg hbits)

/-- The same row refuses equal destinations (R75 d). -/
theorem raisesIllegal_equalDestinations (rd ra rb : Reg) : Spec.RaisesIllegal (Spec.word opc rd ra rb rd 0) :=
  raisesIllegal_of_decode (e := .equalDestinations) fun x y =>
    ((decode_word_reg opc rd ra rb rd (by decide) x y).trans (row ..)).trans (if_pos (Eq.refl (regBits rd)))

end

/-! ### Unsigned division in the running unit, with the `BitVec` operations the engine computes (R191) -/

section
variable {s : State} {ra rb : Reg} (h : s.flt = 0) (hb : s.v[rb] ≠ 0)
include h hb

theorem exec_divu_running (rd : Reg) : exec (.divu rd ra rb) s = .next (Spec.wrote s rd (s.v[ra] / s.v[rb])) := by
  simp only [exec_divu, execDivu, readV_eq, dif_neg hb, udivmod128_eq, done_writeV_running h]

theorem exec_modu_running (rd : Reg) : exec (.modu rd ra rb) s = .next (Spec.wrote s rd (s.v[ra] % s.v[rb])) := by
  simp only [exec_modu, execModu, readV_eq, dif_neg hb, udivmod128_eq, done_writeV_running h]

theorem exec_divmodu_running {rd re : Reg} (hne : rd ≠ re) :
    exec (.divmodu rd re ra rb) s = .next (Spec.wroteBoth s rd (s.v[ra] / s.v[rb]) re (s.v[ra] % s.v[rb])) := by
  simp only [exec_divmodu, execDivmodu, if_neg hne, readV_eq, dif_neg hb, udivmod128_eq, done_writeV_writeV_running h]

end

/-! ### Signed division in the running unit, with the engine's pair, whose signed readings `sdivmod128_toInt` gives (R195) -/

section
variable {s : State} {ra rb : Reg} (h : s.flt = 0) (hb : s.v[rb] ≠ 0) (ho : signedOverflowPair s.v[ra] s.v[rb] = false)
include h hb ho

theorem exec_divs_running (rd : Reg) :
    exec (.divs rd ra rb) s = .next (Spec.wrote s rd (sdivmod128 s.v[ra] s.v[rb] hb ho).1) :=
  (exec_divs ..).trans <| (dif_neg hb).trans <| (dif_neg (Bool.eq_false_iff.mp ho)).trans <|
    done_writeV_running h rd _

theorem exec_mods_running (rd : Reg) :
    exec (.mods rd ra rb) s = .next (Spec.wrote s rd (sdivmod128 s.v[ra] s.v[rb] hb ho).2) :=
  (exec_mods ..).trans <| (dif_neg hb).trans <| (dif_neg (Bool.eq_false_iff.mp ho)).trans <|
    done_writeV_running h rd _

theorem exec_divmods_running {rd re : Reg} (hne : rd ≠ re) :
    exec (.divmods rd re ra rb) s = .next (Spec.wroteBoth s
      rd (sdivmod128 s.v[ra] s.v[rb] hb ho).1 re (sdivmod128 s.v[ra] s.v[rb] hb ho).2) :=
  (exec_divmods ..).trans <| (if_neg hne).trans <| (dif_neg hb).trans <| (dif_neg (Bool.eq_false_iff.mp ho)).trans <|
    done_writeV_writeV_running h rd re _ _

end

/-! ### A zero divisor is the violation `DIVZERO` (R199) -/

section
variable {s : State} {rb : Reg} (hb : s.v[rb] = 0) (rd ra : Reg)
include hb

theorem exec_divu_divzero : exec (.divu rd ra rb) s = .next (Spec.faulted s 0x02 (Spec.word 0x18 rd ra rb 0 0)) :=
  (exec_divu ..).trans <| (dif_pos hb).trans <|
    violation_running .divzero (.divu rd ra rb) s (encodeWord_eq_word _ rfl)

theorem exec_modu_divzero : exec (.modu rd ra rb) s = .next (Spec.faulted s 0x02 (Spec.word 0x19 rd ra rb 0 0)) :=
  (exec_modu ..).trans <| (dif_pos hb).trans <|
    violation_running .divzero (.modu rd ra rb) s (encodeWord_eq_word _ rfl)

theorem exec_divmodu_divzero {rd re : Reg} (hne : rd ≠ re) :
    exec (.divmodu rd re ra rb) s = .next (Spec.faulted s 0x02 (Spec.word 0x1A rd ra rb re 0)) :=
  (exec_divmodu ..).trans <| (if_neg hne).trans <| (dif_pos hb).trans <|
    violation_running .divzero (.divmodu rd re ra rb) s (encodeWord_eq_word _ rfl)

theorem exec_divs_divzero : exec (.divs rd ra rb) s = .next (Spec.faulted s 0x02 (Spec.word 0x1C rd ra rb 0 0)) :=
  (exec_divs ..).trans <| (dif_pos hb).trans <|
    violation_running .divzero (.divs rd ra rb) s (encodeWord_eq_word _ rfl)

theorem exec_mods_divzero : exec (.mods rd ra rb) s = .next (Spec.faulted s 0x02 (Spec.word 0x1D rd ra rb 0 0)) :=
  (exec_mods ..).trans <| (dif_pos hb).trans <|
    violation_running .divzero (.mods rd ra rb) s (encodeWord_eq_word _ rfl)

theorem exec_divmods_divzero {rd re : Reg} (hne : rd ≠ re) :
    exec (.divmods rd re ra rb) s = .next (Spec.faulted s 0x02 (Spec.word 0x1E rd ra rb re 0)) :=
  (exec_divmods ..).trans <| (if_neg hne).trans <| (dif_pos hb).trans <|
    violation_running .divzero (.divmods rd re ra rb) s (encodeWord_eq_word _ rfl)

end

/-! ### SignedMin by -1 is the violation `SDIVOVF` (R200) -/

section
variable {s : State} {ra rb : Reg} (hb : s.v[rb] ≠ 0) (ho : signedOverflowPair s.v[ra] s.v[rb] = true)
include hb ho

theorem exec_divs_sdivovf (rd : Reg) :
    exec (.divs rd ra rb) s = .next (Spec.faulted s 0x03 (Spec.word 0x1C rd ra rb 0 0)) :=
  (exec_divs ..).trans <| (dif_neg hb).trans <| (dif_pos ho).trans <|
    violation_running .sdivovf (.divs rd ra rb) s (encodeWord_eq_word _ rfl)

theorem exec_mods_sdivovf (rd : Reg) :
    exec (.mods rd ra rb) s = .next (Spec.faulted s 0x03 (Spec.word 0x1D rd ra rb 0 0)) :=
  (exec_mods ..).trans <| (dif_neg hb).trans <| (dif_pos ho).trans <|
    violation_running .sdivovf (.mods rd ra rb) s (encodeWord_eq_word _ rfl)

theorem exec_divmods_sdivovf {rd re : Reg} (hne : rd ≠ re) :
    exec (.divmods rd re ra rb) s = .next (Spec.faulted s 0x03 (Spec.word 0x1E rd ra rb re 0)) :=
  (exec_divmods ..).trans <| (if_neg hne).trans <| (dif_neg hb).trans <| (dif_pos ho).trans <|
    violation_running .sdivovf (.divmods rd re ra rb) s (encodeWord_eq_word _ rfl)

end

/-! ### Equal destinations fault `ILLEGAL`, whatever the operands (R75 d) -/

theorem exec_divmodu_illegal (rd ra rb : Reg) (s : State) :
    exec (.divmodu rd rd ra rb) s = .next (Spec.faulted s 0x01 (Spec.word 0x1A rd ra rb rd 0)) := by
  rw [exec_divmodu, execDivmodu, if_pos rfl, encodeWord_eq_word _ rfl]
  rfl

theorem exec_divmods_illegal (rd ra rb : Reg) (s : State) :
    exec (.divmods rd rd ra rb) s = .next (Spec.faulted s 0x01 (Spec.word 0x1E rd ra rb rd 0)) := by
  rw [exec_divmods, execDivmods, if_pos rfl, encodeWord_eq_word _ rfl]
  rfl

/-- Settles O40: the zero test on the divisor selects the clause, and the engine's pair is the quotient and the remainder. -/
theorem unsignedDivision : Obligations.UnsignedDivision := by
  intro rd re ra rb
  refine ⟨decodes_threeRegister decodeFields_divu rd ra rb, decodes_threeRegister decodeFields_modu rd ra rb,
    fun hne => decodes_distinct decodeFields_divmodu hne ra rb, raisesIllegal_equalDestinations decodeFields_divmodu rd ra rb,
    fun s h => ⟨fun hne0 => ?divides, fun h0 => ?divzero, ?illegal⟩⟩
  case divides =>
    have hb : s.v[rb] ≠ 0 := BitVec.toNat_ne.mpr hne0
    rw [← BitVec.udiv_def, ← BitVec.umod_def]
    exact ⟨exec_divu_running h hb rd, exec_modu_running h hb rd, exec_divmodu_running h hb⟩
  case divzero =>
    have hb : s.v[rb] = 0 := BitVec.eq_of_toNat_eq h0
    exact ⟨exec_divu_divzero hb rd ra, exec_modu_divzero hb rd ra, exec_divmodu_divzero hb ra⟩
  case illegal =>
    rintro rfl
    exact exec_divmodu_illegal rd ra rb s

/-- Settles O41: as O40 with the test of R200 after the zero test; the truncated quotient is `Int.tdiv` and the remainder
`Int.tmod`, which is the dividend minus quotient times divisor. -/
theorem signedDivision : Obligations.SignedDivision := by
  intro rd re ra rb
  refine ⟨decodes_threeRegister decodeFields_divs rd ra rb, decodes_threeRegister decodeFields_mods rd ra rb,
    fun hne => decodes_distinct decodeFields_divmods hne ra rb, raisesIllegal_equalDestinations decodeFields_divmods rd ra rb,
    fun s h => ⟨fun hne0 hfit => ?divides, fun h0 => ?divzero, fun hmin hneg => ?sdivovf, ?illegal⟩⟩
  case divides =>
    have hb : s.v[rb] ≠ 0 := BitVec.toInt_ne.mp hne0
    have ho : signedOverflowPair s.v[ra] s.v[rb] = false := Bool.eq_false_iff.mpr (mt (signedOverflowPair_iff ..).mp hfit)
    obtain ⟨hq, hr⟩ := sdivmod128_toInt s.v[ra] s.v[rb] hb ho
    refine ⟨_, _, ?quotient, ?remainder, exec_divs_running h hb ho rd, exec_mods_running h hb ho rd,
      exec_divmods_running h hb ho⟩
    case quotient => rw [hq, truncate_div]
    case remainder => rw [hr, hq, Int.tmod_def, Int.mul_comm]
  case divzero =>
    have hb : s.v[rb] = 0 := BitVec.eq_of_toInt_eq h0
    exact ⟨exec_divs_divzero hb rd ra, exec_mods_divzero hb rd ra, exec_divmods_divzero hb ra⟩
  case sdivovf =>
    have hb : s.v[rb] ≠ 0 := BitVec.toInt_ne.mp (by rw [hneg]; decide)
    have ho := (signedOverflowPair_iff ..).mpr ⟨hmin, hneg⟩
    exact ⟨exec_divs_sdivovf hb ho rd, exec_mods_sdivovf hb ho rd, exec_divmods_sdivovf hb ho⟩
  case illegal =>
    rintro rfl
    exact exec_divmods_illegal rd ra rb s

end Sys2Proof.Proofs

/-! ## Proofs: the formatter and its text buffer (spec/46_format.md R222 to R230) -/

namespace Sys2Proof.Proofs

open Sys2Proof.Machine Sys2Proof.Laws

/-! ### The words -/

/-- `FL` of `FMT`: a code of `BASE` in bits 1:0, then the flags `SG`, `UC`, `SB`, `SP` (R72). -/
def fmtFl (code : Nat) (sg uc sb sp : Bool) : Nat := code + 4 * sg.toNat + 8 * uc.toNat + 16 * sb.toNat + 32 * sp.toNat

theorem fmtFl_lt : ∀ (code : Fin 4) (sg uc sb sp : Bool), fmtFl code sg uc sb sp < 256 := by decide

/-- The decoder's sub-fields of `FL` are what `fmtFl` puts there. -/
theorem ofNat_fmtFl_fields : ∀ (code : Fin 4) (sg uc sb sp : Bool),
    let fl := BitVec.ofNat 8 (fmtFl code sg uc sb sp)
    fl.extractLsb' 6 2 = 0#2 ∧ fl.extractLsb' 0 2 = BitVec.ofNat 2 code ∧
      fl.getLsbD 2 = sg ∧ fl.getLsbD 3 = uc ∧ fl.getLsbD 4 = sb ∧ fl.getLsbD 5 = sp := by decide

theorem decode_word_fmt (ra : Reg) (code : Fin 4) (sg uc sb sp : Bool) (x y : Limb) :
    decode ⟨Spec.word 0x50 0 ra 0 0 (fmtFl code sg uc sb sp), x, y⟩ =
      needNamed (baseOf (BitVec.ofNat 2 code)) fun base => .fmt ra base sg uc sb sp := by
  obtain ⟨hz, hbase, hsg, huc, hsb, hsp⟩ := ofNat_fmtFl_fields code sg uc sb sp
  refine ((decode_word_reg 0x50 0 ra 0 0 (fmtFl_lt code sg uc sb sp) x y).trans (decodeFields_fmt ..)).trans ?_
  rw [hz, hbase, hsg, huc, hsb, hsp]
  rfl

theorem decodes_fmt (ra : Reg) (base : Base) (sg uc sb sp : Bool) :
    Spec.Decodes (Spec.word 0x50 0 ra 0 0 (fmtFl (Spec.baseCode base) sg uc sb sp)) (.fmt ra base sg uc sb sp) := by
  cases base
  case dec => exact decode_word_fmt ra 0 sg uc sb sp
  case oct => exact decode_word_fmt ra 1 sg uc sb sp
  case hex => exact decode_word_fmt ra 2 sg uc sb sp

/-- `BASE = 3` is reserved (R75 c). -/
theorem raisesIllegal_fmt (ra : Reg) (sg uc sb sp : Bool) :
    Spec.RaisesIllegal (Spec.word 0x50 0 ra 0 0 (fmtFl 3 sg uc sb sp)) :=
  raisesIllegal_of_decode (e := .reservedField) (decode_word_fmt ra 3 sg uc sb sp)

/-- The same for `K` of `RDTXT`. -/
theorem ofNat_textWord_fields : ∀ k : Fin 8,
    (BitVec.ofNat 8 k).extractLsb' 3 5 = 0#5 ∧ (BitVec.ofNat 8 k).extractLsb' 0 3 = BitVec.ofNat 3 k := by decide

theorem decode_word_rdtxt (k : Fin 8) (x y : Limb) :
    decode ⟨Spec.word 0x51 0 0 0 0 k, x, y⟩ = needNamed (textWordOf (BitVec.ofNat 3 k)) .rdtxt := by
  obtain ⟨hz, hk⟩ := ofNat_textWord_fields k
  refine ((decode_word_reg 0x51 0 0 0 0 (by omega) x y).trans (decodeFields_rdtxt ..)).trans ?_
  rw [hz, hk]
  rfl

theorem decodes_rdtxt (k : TextWord) : Spec.Decodes (Spec.word 0x51 0 0 0 0 k) (.rdtxt k) := fun x y => by
  have hk : textWordOf (BitVec.ofNat 3 k.val) = some k := textWordOf_textWordBits k
  exact (decode_word_rdtxt (k.castLE (by decide)) x y).trans (congrArg (needNamed · .rdtxt) hk)

/-- `K = 6` and `K = 7` are reserved (R75 c). -/
theorem raisesIllegal_rdtxt {k : Fin 8} (h : 6 ≤ k.val) : Spec.RaisesIllegal (Spec.word 0x51 0 0 0 0 k) :=
  raisesIllegal_of_decode (e := .reservedField) fun x y => by
    have hk : textWordOf (BitVec.ofNat 3 k.val) = none :=
      (textWordOf_eq_none_iff _).mpr (h.trans_eq (Nat.mod_eq_of_lt k.isLt).symm)
    exact (decode_word_rdtxt k x y).trans (congrArg (needNamed · .rdtxt) hk)

/-! ### Sign and magnitude (R225) -/

theorem printsNegative_iff (base : Base) (sg : Bool) (v : Value) :
    printsNegative base sg v = true ↔ sg = true ∧ base = .dec ∧ v.toInt < 0 := by
  rw [printsNegative, Bool.and_eq_true, Bool.and_eq_true, beq_iff_eq, msb_iff, and_assoc]

/-- In signed decimal the magnitude is the absolute value, as a number too; otherwise it is the pattern itself. -/
theorem toNat_magnitude (base : Base) (sg : Bool) (v : Value) : (magnitude base sg v).toNat = Spec.printed base sg v := by
  unfold Spec.printed
  split
  case isTrue h =>
    obtain ⟨rfl, rfl⟩ := h
    exact abs128_toNat v
  case isFalse h =>
    rw [magnitude, if_neg (mt (printsNegative_iff ..).mp fun ⟨hsg, hdec, _⟩ => h ⟨hsg, hdec⟩)]

theorem magnitude_eq_zero_iff (base : Base) (sg : Bool) (v : Value) : magnitude base sg v = 0 ↔ v = 0 := by
  rw [magnitude, neg128_eq]
  split
  · exact neg_eq_zero
  · rfl

/-! ### The parts of the text, as `Spec.text` writes them -/

theorem signText_eq (base : Base) (sg sp : Bool) (v : Value) :
    signText base sg sp v =
      if sg = true ∧ base = .dec ∧ v.toInt < 0 then Spec.ascii "-"
      else if sg = true ∧ base = .dec ∧ sp = true then Spec.ascii "+" else [] := by
  simp only [signText, printsNegative_iff, Bool.and_eq_true, beq_iff_eq, and_assoc]
  rfl

theorem prefixText_eq (base : Base) (uc sb : Bool) {mag v : Value} (h : mag = 0 ↔ v = 0) :
    prefixText base uc sb mag =
      if sb = true ∧ v ≠ 0 ∧ base = .hex then (if uc then Spec.ascii "0X" else Spec.ascii "0x")
      else if sb = true ∧ v ≠ 0 ∧ base = .oct then Spec.ascii "0" else [] := by
  simp only [prefixText, Bool.and_eq_true, bne_iff_ne, ne_eq, h]
  cases base
  case dec => simp only [reduceCtorEq, and_false, if_false, ite_self]
  case oct =>
    simp only [reduceCtorEq, and_false, and_true, if_false]
    rfl
  case hex =>
    simp only [reduceCtorEq, and_false, and_true, if_false]
    cases uc <;> rfl

/-- The model computes the characters of R229, the specification lists them. -/
theorem digitChar_eq_digitByte : ∀ (uc : Bool) (d : Fin 16), digitChar uc d = Spec.digitByte uc d := by decide

theorem digits_map_eq (base : Base) (uc : Bool) (mag : Value) :
    (digits base mag).map (digitChar uc) =
      (Spec.numeral (Spec.baseRadix base) mag.toNat).map (Spec.digitByte uc) := by
  have hradix : radix base = Spec.baseRadix base := by cases base <;> rfl
  have hle : radix base ≤ 16 := by cases base <;> decide
  rw [digits_eq, ← hradix]
  exact List.map_congr_left fun d hd =>
    digitChar_eq_digitByte uc ⟨d, (numeralOf_lt (radix_gt_one base) hd).trans_le hle⟩

/-- The formatter's text is the text of R225, R226 and R230. -/
theorem formatText_eq (base : Base) (sg uc sb sp : Bool) (v : Value) :
    formatText base sg uc sb sp v = Spec.text base sg uc sb sp v := by
  rw [formatText, signText_eq, prefixText_eq base uc sb (magnitude_eq_zero_iff base sg v), digits_map_eq, toNat_magnitude]
  rfl

theorem text_length_le (base : Base) (sg uc sb sp : Bool) (v : Value) : (Spec.text base sg uc sb sp v).length ≤ 44 := by
  obtain ⟨-, h⟩ := formatText_length base sg uc sb sp v
  rw [formatText_eq] at h
  cases base <;> exact h.trans (by decide)

/-! ### The text buffer (R227, R228) -/

theorem fillText_eq_ofFn (text : List Byte) : fillText text = Vector.ofFn fun k : Fin 48 => text.getD k.val 0 := by
  ext1 k hk
  rw [fillText_getElem text k hk, Vector.getElem_ofFn]
  split
  case isTrue hlt => rw [List.getD_eq_getElem _ _ hlt]
  case isFalse hge => rw [List.getD_eq_default _ _ (not_lt.mp hge)]

section
variable {s : State} (h : s.flt = 0)
include h

theorem exec_fmt_running (ra : Reg) (base : Base) (sg uc sb sp : Bool) :
    exec (.fmt ra base sg uc sb sp) s =
      .next (Spec.executed (writeText s (Spec.text base sg uc sb sp s.v[ra]))
        (BitVec.ofNat 64 (Spec.text base sg uc sb sp s.v[ra]).length)) := by
  rw [exec_fmt, execFmt, readV_eq, formatText_eq]
  exact done_running (s := writeText s _) h _

theorem exec_rdtxt_running (k : TextWord) : exec (.rdtxt k) s = .next (Spec.executed s (readTextWord s k)) :=
  (exec_rdtxt k s).trans (done_running h (readTextWord s k))

end

/-- Settles O43: the word by its row of the decoder; the text part by part, which fits the buffer and is its first bytes. -/
theorem formattedText : Obligations.FormattedText := by
  intro ra base sg uc sb sp
  refine ⟨decodes_fmt ra base sg uc sb sp, raisesIllegal_fmt ra sg uc sb sp, fun s h => ⟨?fits, ?writes⟩⟩
  case fits => exact (text_length_le base sg uc sb sp s.v[ra]).trans (by decide)
  case writes =>
    rw [exec_fmt_running h, writeText, fillText_eq_ofFn]
    rfl

/-- Settles O46: the words by their row of the decoder, which names only `K` below 6; the result byte by byte. -/
theorem readText : Obligations.ReadText := by
  intro k
  exact ⟨decodes_rdtxt k, raisesIllegal_rdtxt (k := 6) (by decide), raisesIllegal_rdtxt (k := 7) (by decide),
    fun s h => ⟨readTextWord s k, exec_rdtxt_running h k, fun j => readTextWord_byte s k j j.isLt⟩⟩

end Sys2Proof.Proofs

/-! ## Proofs: values from floats (spec/47_float.md R261, R262) -/

namespace Sys2Proof.Proofs

open Sys2Proof.Machine Sys2Proof.Laws

/-! ### The words -/

theorem decodesX_fromfu (rd : Reg) (fp : FpFormat) :
    Spec.DecodesX (Spec.word 0x40 rd 0 0 0 (Spec.fpCode fp)) (.fromfu rd fp) := by
  intro x y
  cases fp <;> exact (decode_word_reg 0x40 rd 0 0 0 (by decide) x y).trans (decodeFields_fromfu ..)

theorem decodesX_fromfs (rd : Reg) (fp : FpFormat) :
    Spec.DecodesX (Spec.word 0x41 rd 0 0 0 (Spec.fpCode fp)) (.fromfs rd fp) := by
  intro x y
  cases fp <;> exact (decode_word_reg 0x41 rd 0 0 0 (by decide) x y).trans (decodeFields_fromfs ..)

/-- The word `FINFO` keeps when `FROMFU` faults (R306). -/
theorem encodeWord_fromfu (rd : Reg) (fp : FpFormat) (x : Limb) :
    encodeWord (.fromfu rd fp x) = Spec.word 0x40 rd 0 0 0 (Spec.fpCode fp) := by
  cases fp <;> exact encodeWord_eq_word _ rfl

/-- The same for `FROMFS`. -/
theorem encodeWord_fromfs (rd : Reg) (fp : FpFormat) (x : Limb) :
    encodeWord (.fromfs rd fp x) = Spec.word 0x41 rd 0 0 0 (Spec.fpCode fp) := by
  cases fp <;> exact encodeWord_eq_word _ rfl

/-! ### Truncation of a scaled number `m * 2^e` and of its negative (R7) -/

theorem scaled_nonneg (m : Nat) (e : Int) : (0 : ℚ) ≤ m * 2 ^ e := by positivity

/-- A whole number is at or below the truncation of a scaled number exactly when it is at or below the number itself. -/
theorem le_scaleFloor_iff (n m : Nat) (e : Int) : n ≤ scaleFloor m e ↔ (n : ℚ) ≤ m * 2 ^ e := by
  rw [← Int.ofNat_le, scaleFloor_eq, Int.le_floor, Int.cast_natCast]

theorem truncate_scaled (m : Nat) (e : Int) : Spec.truncate (m * 2 ^ e) = scaleFloor m e := by
  rw [Spec.truncate, if_pos (scaled_nonneg m e), scaleFloor_eq]

/-- Truncation is toward zero on both sides of it. -/
theorem truncate_neg (q : ℚ) : Spec.truncate (-q) = -Spec.truncate q := by
  unfold Spec.truncate
  rcases lt_trichotomy q 0 with hneg | rfl | hpos
  · rw [if_pos (by linarith), if_neg (by linarith), Int.floor_neg]
  · simp
  · rw [if_neg (by linarith), if_pos hpos.le, Int.ceil_neg]

/-- The sign is restored modulo 2^128. -/
theorem neg128_ofNat (n : Nat) : neg128 (BitVec.ofNat 128 n) = BitVec.ofInt 128 (-n) := by
  rw [neg128_eq, BitVec.ofInt_neg, BitVec.ofInt_natCast]

/-- A finite pattern unpacks to a magnitude, which is its number or, under the sign bit, its negated number. -/
theorem unpackFp_sign_cases {fp : FpFormat} {x : Limb} (h : Spec.IsFinite fp x) :
    ∃ m e, (unpackFp fp x = some (.fin false m e) ∧ Spec.val fp x = m * 2 ^ e) ∨
      (unpackFp fp x = some (.fin true m e) ∧ Spec.val fp x = -(m * 2 ^ e)) := by
  obtain ⟨m, e, hunpack, hval⟩ := unpackFp_finite h
  generalize decide (Spec.signField fp x = 1) = neg at hunpack hval
  refine ⟨m, e, ?_⟩
  cases neg with
  | false => exact .inl ⟨hunpack, by rw [← hval]; exact one_mul _⟩
  | true => exact .inr ⟨hunpack, by rw [← hval]; exact neg_one_mul _⟩

/-! ### The conversions by the operand's kind -/

theorem fromFloatUnsigned_nan {fp : FpFormat} {x : Limb} (h : Spec.IsNan fp x) :
    fromFloatUnsigned fp x = .error .fnan := by
  rw [fromFloatUnsigned, unpackFp_nan h]

theorem fromFloatUnsigned_inf {fp : FpFormat} {x : Limb} (h : Spec.IsInf fp x) :
    fromFloatUnsigned fp x = .error .frange := by
  rw [fromFloatUnsigned, unpackFp_inf h]

/-- The tests of R261 on sign and magnitude are its tests on the number; past them the magnitude's truncation is the number's. A
zero passes with either sign. -/
theorem fromFloatUnsigned_finite {fp : FpFormat} {x : Limb} (h : Spec.IsFinite fp x) :
    fromFloatUnsigned fp x =
      if Spec.val fp x < 0 ∨ 2 ^ 128 ≤ Spec.val fp x then .error .frange
      else .ok (BitVec.ofInt 128 (Spec.truncate (Spec.val fp x))) := by
  obtain ⟨m, e, ⟨hunpack, hval⟩ | ⟨hunpack, hval⟩⟩ := unpackFp_sign_cases h
  case inl =>
    have hrange : 2 ^ 128 ≤ scaleFloor m e ↔ (m * 2 ^ e : ℚ) < 0 ∨ 2 ^ 128 ≤ (m * 2 ^ e : ℚ) := by
      rw [le_scaleFloor_iff, or_iff_right (scaled_nonneg m e).not_gt, Nat.cast_pow, Nat.cast_ofNat]
    simp only [fromFloatUnsigned, hunpack, hval, Bool.false_and, Bool.false_eq_true, if_false, hrange,
      truncate_scaled, BitVec.ofInt_natCast]
  case inr =>
    rcases Nat.eq_zero_or_pos m with rfl | hpos
    · simp [fromFloatUnsigned, hunpack, hval, scaleFloor, Spec.truncate]
    · have hneg : -((m : ℚ) * 2 ^ e) < 0 := neg_lt_zero.mpr (by positivity)
      simp [fromFloatUnsigned, hunpack, hval, hneg, hpos.ne']

theorem fromFloatSigned_nan {fp : FpFormat} {x : Limb} (h : Spec.IsNan fp x) :
    fromFloatSigned fp x = .error .fnan := by
  rw [fromFloatSigned, unpackFp_nan h]

theorem fromFloatSigned_inf {fp : FpFormat} {x : Limb} (h : Spec.IsInf fp x) :
    fromFloatSigned fp x = .error .frange := by
  rw [fromFloatSigned, unpackFp_inf h]

/-- The tests of R262 on sign and truncated magnitude are its tests on the number: both bounds are whole numbers. -/
theorem fromFloatSigned_finite {fp : FpFormat} {x : Limb} (h : Spec.IsFinite fp x) :
    fromFloatSigned fp x =
      if 2 ^ 127 ≤ Spec.val fp x ∨ Spec.val fp x ≤ -2 ^ 127 - 1 then .error .frange
      else .ok (BitVec.ofInt 128 (Spec.truncate (Spec.val fp x))) := by
  obtain ⟨m, e, ⟨hunpack, hval⟩ | ⟨hunpack, hval⟩⟩ := unpackFp_sign_cases h
  case inl =>
    have hq := scaled_nonneg m e
    have hrange : 2 ^ 127 ≤ scaleFloor m e ↔ 2 ^ 127 ≤ (m * 2 ^ e : ℚ) ∨ (m * 2 ^ e : ℚ) ≤ -2 ^ 127 - 1 := by
      rw [le_scaleFloor_iff, or_iff_left (by linarith), Nat.cast_pow, Nat.cast_ofNat]
    simp only [fromFloatSigned, hunpack, hval, Bool.not_false, Bool.true_and, Bool.false_and, Bool.or_false,
      decide_eq_true_eq, Bool.false_eq_true, if_false, hrange, truncate_scaled, BitVec.ofInt_natCast]
  case inr =>
    have hq := scaled_nonneg m e
    have hrange : 2 ^ 127 + 1 ≤ scaleFloor m e ↔ 2 ^ 127 ≤ -(m * 2 ^ e : ℚ) ∨ -(m * 2 ^ e : ℚ) ≤ -2 ^ 127 - 1 := by
      rw [le_scaleFloor_iff, or_iff_right (by linarith), Nat.cast_add, Nat.cast_pow, Nat.cast_ofNat, Nat.cast_one]
      constructor <;> intro <;> linarith
    simp only [fromFloatSigned, hunpack, hval, Bool.not_true, Bool.true_and, Bool.false_and, Bool.false_or,
      decide_eq_true_eq, if_true, hrange, truncate_neg, truncate_scaled, neg128_ofNat]

/-! ### The instructions by what the conversion answers -/

section
variable {fp : FpFormat} {x : Limb}

theorem exec_fromfu_error {c : Cause} (hc : fromFloatUnsigned fp x = .error c) (rd : Reg) (s : State) :
    exec (.fromfu rd fp x) s = .next (Spec.faulted s c.code (Spec.word 0x40 rd 0 0 0 (Spec.fpCode fp))) := by
  simp only [exec_fromfu, execFromfu, hc, violation_running c _ s (encodeWord_fromfu rd fp x)]

theorem exec_fromfu_ok {v : Value} (hv : fromFloatUnsigned fp x = .ok v) (rd : Reg) {s : State} (h : s.flt = 0) :
    exec (.fromfu rd fp x) s = .next (Spec.wrote s rd v) := by
  simp only [exec_fromfu, execFromfu, hv, done_writeV_running h]

theorem exec_fromfs_error {c : Cause} (hc : fromFloatSigned fp x = .error c) (rd : Reg) (s : State) :
    exec (.fromfs rd fp x) s = .next (Spec.faulted s c.code (Spec.word 0x41 rd 0 0 0 (Spec.fpCode fp))) := by
  simp only [exec_fromfs, execFromfs, hc, violation_running c _ s (encodeWord_fromfs rd fp x)]

theorem exec_fromfs_ok {v : Value} (hv : fromFloatSigned fp x = .ok v) (rd : Reg) {s : State} (h : s.flt = 0) :
    exec (.fromfs rd fp x) s = .next (Spec.wrote s rd v) := by
  simp only [exec_fromfs, execFromfs, hv, done_writeV_running h]

end

/-- Settles O47: the word by its row of the decoder; the operand's kind selects what the conversion answers, and a finite operand's
number what it answers then. -/
theorem fromFloatUnsigned : Obligations.FromFloatUnsigned := by
  intro rd fp x
  refine ⟨decodesX_fromfu rd fp, fun s h => ⟨fun hnan => ?nan, fun hinf => ?inf, fun hfin hout => ?outOfRange,
    fun hfin hlow hhigh => ?inRange⟩⟩
  case nan => exact exec_fromfu_error (fromFloatUnsigned_nan hnan) rd s
  case inf => exact exec_fromfu_error (fromFloatUnsigned_inf hinf) rd s
  case outOfRange => exact exec_fromfu_error ((fromFloatUnsigned_finite hfin).trans (if_pos hout)) rd s
  case inRange =>
    have hin : ¬(Spec.val fp x < 0 ∨ 2 ^ 128 ≤ Spec.val fp x) := not_or.mpr ⟨not_lt.mpr hlow, not_le.mpr hhigh⟩
    exact exec_fromfu_ok ((fromFloatUnsigned_finite hfin).trans (if_neg hin)) rd h

/-- Settles O48: as O47, with the bounds of the signed view. -/
theorem fromFloatSigned : Obligations.FromFloatSigned := by
  intro rd fp x
  refine ⟨decodesX_fromfs rd fp, fun s h => ⟨fun hnan => ?nan, fun hinf => ?inf, fun hfin hout => ?outOfRange,
    fun hfin hlow hhigh => ?inRange⟩⟩
  case nan => exact exec_fromfs_error (fromFloatSigned_nan hnan) rd s
  case inf => exact exec_fromfs_error (fromFloatSigned_inf hinf) rd s
  case outOfRange => exact exec_fromfs_error ((fromFloatSigned_finite hfin).trans (if_pos hout)) rd s
  case inRange =>
    have hin : ¬(2 ^ 127 ≤ Spec.val fp x ∨ Spec.val fp x ≤ -2 ^ 127 - 1) := not_or.mpr ⟨not_le.mpr hhigh, not_le.mpr hlow⟩
    exact exec_fromfs_ok ((fromFloatSigned_finite hfin).trans (if_neg hin)) rd h

end Sys2Proof.Proofs

/-! ## Proofs: reading control registers (spec/48_system.md R290) -/

namespace Sys2Proof.Proofs

open Sys2Proof.Machine Sys2Proof.Laws

/-! ### The words -/

theorem decodes_rdcr (n : CtrlReg) : Spec.Decodes (Spec.word 0x60 0 0 0 0 (Spec.ctrlCode n)) (.rdcr n) := by
  intro x y
  cases n <;> exact (decode_word_reg 0x60 0 0 0 0 (by decide) x y).trans (decodeFields_rdcr ..)

/-- `N = 3` is reserved (R75 c). -/
theorem decode_rdcr_reserved (x y : Limb) : decode ⟨Spec.word 0x60 0 0 0 0 3, x, y⟩ = .error .reservedField :=
  (decode_word_reg 0x60 0 0 0 0 (by decide) x y).trans (decodeFields_rdcr ..)

/-! ### Packets that are `RDCR`, and packets that are not (R81, R307) -/

theorem step_present (p : Packet) (s : State) : step (present p s) = runPacket p s :=
  takeInput_command (rest := s.inputs) rfl

/-- Halted or running, the unit executes `RDCR`. -/
theorem runPacket_rdcr {p : Packet} {n : CtrlReg} (hp : decode p = .ok (.rdcr n)) (s : State) :
    runPacket p s = exec (.rdcr n) s := by
  have hcase := runPacket_case p s
  generalize runPacket p s = r at hcase ⊢
  cases hcase with
  | executes i hd =>
    obtain rfl : i = .rdcr n := Except.ok.inj (hd.symm.trans hp)
    rfl
  | refuses _ hn => exact absurd hp (hn n)
  | illegal e hd => cases hd.symm.trans hp

theorem runPacket_halted {p : Packet} (hn : ∀ n, decode p ≠ .ok (.rdcr n)) {s : State} (h : s.flt ≠ 0) :
    runPacket p s = .next (refuseHalted s) := by
  have hcase := runPacket_case p s
  generalize runPacket p s = r at hcase ⊢
  cases hcase with
  | executes i hd hruns =>
    obtain h0 | ⟨n, rfl⟩ := hruns
    · exact absurd h0 h
    · exact absurd hd (hn n)
  | refuses => rfl
  | illegal e hd h0 => exact absurd h0 h

/-! ### The instruction, in every state -/

theorem readCtrl_flt (s : State) : readCtrl s .flt = BitVec.ofNat 64 s.flt.toNat := (BitVec.ofNat_toNat ..).symm

theorem readCtrl_finfo (s : State) : readCtrl s .finfo = BitVec.ofNat 64 s.finfo.toNat := (BitVec.ofNat_toNat ..).symm

theorem exec_rdcr_respond (n : CtrlReg) (s : State) : exec (.rdcr n) s = .next (respond s (readCtrl s n)) :=
  (exec_rdcr n s).trans (done_eq s _)

/-- Settles O53: what the unit does with a packet turns on whether it decodes to `RDCR`; the value read is the register's, register by
register. -/
theorem readControlRegister : Obligations.ReadControlRegister := by
  refine ⟨fun n s => ⟨fun x y => ⟨decodes_rdcr n x y, ?runs⟩, ?reads⟩, raisesIllegal_of_decode decode_rdcr_reserved, ?noRdcr,
    fun s p h hn => ?refused⟩
  case runs => rw [step_present, runPacket_rdcr (decodes_rdcr n x y)]
  case reads =>
    rw [exec_rdcr_respond]
    cases n with
    | flt => rw [readCtrl_flt, respond]
    | finfo => rw [readCtrl_finfo, respond]
    | cfg => rw [readCtrl_cfg, respond]
  case noRdcr =>
    intro x y n h
    cases (decode_rdcr_reserved x y).symm.trans h
  case refused => rw [step_present, runPacket_halted hn h, refuseHalted]

end Sys2Proof.Proofs

/-! ## Proofs: the encoder and the decoder are inverse (spec/30_encoding.md R71 to R76, R82) -/

namespace Sys2Proof.Proofs

open Sys2Proof.Machine Sys2Proof.Laws

/-! ### Decoding an encoded instruction -/

theorem decode_encode_eq (i : Instr) :
    decode (encode i) = decodeFields (encodeFields i) (payloadX i) (payloadY i) := by
  rw [decode, encode, encodeWord, unpackWord_packWord]

/-- The destinations of a well-formed combined divide-modulo differ as fields too. -/
theorem regBits_ne {rd re : Reg} (h : (rd != re) = true) : regBits rd ≠ regBits re := fun e =>
  bne_iff_ne.mp h (congrArg regOf e)

/-- `FL` of `FMT` as the encoder writes it. -/
def fmtFields (base : BitVec 2) (sg uc sb sp : Bool) : BitVec 8 := 0#2 ++ bit sp ++ bit sb ++ bit uc ++ bit sg ++ base

theorem fmtFields_parts : ∀ (base : BitVec 2) (sg uc sb sp : Bool),
    let fl := fmtFields base sg uc sb sp
    fl.extractLsb' 6 2 = 0#2 ∧ fl.extractLsb' 0 2 = base ∧
      fl.getLsbD 2 = sg ∧ fl.getLsbD 3 = uc ∧ fl.getLsbD 4 = sb ∧ fl.getLsbD 5 = sp := by decide

theorem decodeFields_fmtFields (ra : Reg) (base : Base) (sg uc sb sp : Bool) (x y : Limb) :
    decodeFields { opc := 0x50, ra := regBits ra, fl := fmtFields (baseBits base) sg uc sb sp } x y =
      .ok (.fmt ra base sg uc sb sp) := by
  obtain ⟨hz, hbase, hsg, huc, hsb, hsp⟩ := fmtFields_parts (baseBits base) sg uc sb sp
  refine (decodeFields_fmt ..).trans ?_
  rw [hz, hbase, hsg, huc, hsb, hsp, baseOf_baseBits]
  rfl

/-- Settles O1: cutting the packed word gives the fields back, and the row of each opcode reads its instruction from them. -/
theorem decodeOfEncodeIsInstruction : Obligations.DecodeOfEncodeIsInstruction := by
  intro i hw
  rw [decode_encode_eq]
  cases i with
  | divmodu rd re ra rb => exact (decodeFields_divmodu ..).trans (if_neg (regBits_ne hw))
  | divmods rd re ra rb => exact (decodeFields_divmods ..).trans (if_neg (regBits_ne hw))
  | ldc rd k => cases k <;> exact decodeFields_ldc ..
  | fromint rd wd sg => cases wd <;> cases sg <;> exact decodeFields_fromint ..
  | toint ra wd sg => cases wd <;> cases sg <;> exact decodeFields_toint ..
  | fromfu r fp => cases fp <;> exact decodeFields_fromfu ..
  | fromfs r fp => cases fp <;> exact decodeFields_fromfs ..
  | tofu r fp => cases fp <;> exact decodeFields_tofu ..
  | tofs r fp => cases fp <;> exact decodeFields_tofs ..
  | fmt ra base sg uc sb sp => exact decodeFields_fmtFields ra base sg uc sb sp 0 0
  | rdtxt k => revert k; decide
  | rdcr n => cases n <;> rfl
  | _ => rfl

/-! ### Encoding a decoded instruction -/

/-- The instruction is well-formed and its fields are `f`. -/
def Faithful (f : Fields) (i : Instr) : Prop := i.wellFormed = true ∧ encodeFields i = f

/-- A decoder of the fields `f` that answers nothing but instructions with these fields. -/
def Answers (f : Fields) (r : Except Illegal Instr) : Prop := ∀ i, r = .ok i → Faithful f i

section
variable {f : Fields} {zero : Bool} {i : Instr}

theorem answers_error (e : Illegal) : Answers f (.error e) := fun _ h => nomatch h

theorem answers_ok (h : Faithful f i) : Answers f (.ok i) := fun _ hi => Except.ok.inj hi ▸ h

theorem answers_needZero {r : Except Illegal Instr} (h : zero = true → Answers f r) : Answers f (needZero zero r) := by
  cases zero with
  | false => exact answers_error .mustBeZero
  | true => exact h rfl

/-- A row without a check past the must-be-zero bits. -/
theorem answers_plain (h : zero = true → encodeFields i = f) (hw : i.wellFormed = true := by rfl) :
    Answers f (needZero zero (.ok i)) :=
  answers_needZero fun hz => answers_ok ⟨hw, h hz⟩

/-- A row with a sub-field that has reserved values (R75 c). -/
theorem answers_named {α : Type} {o : Option α} {k : α → Instr}
    (h : zero = true → ∀ a, o = some a → encodeFields (k a) = f) (hw : ∀ a, (k a).wellFormed = true := by intros; rfl) :
    Answers f (needZero zero (needNamed o k)) := by
  refine answers_needZero fun hz => ?_
  cases o with
  | none => exact answers_error .reservedField
  | some a => exact answers_ok ⟨hw a, h hz a rfl⟩

/-- A row with two destinations (R75 d). -/
theorem answers_distinct {rd re : BitVec 3} (h : zero = true → encodeFields i = f)
    (hw : rd ≠ re → i.wellFormed = true := by exact fun h => bne_iff_ne.mpr fun e => h (congrArg regBits e)) :
    Answers f (needZero zero (needDistinct rd re i)) := by
  refine answers_needZero fun hz => ?_
  by_cases hd : rd = re
  · rw [needDistinct, if_pos hd]
    exact answers_error .equalDestinations
  · rw [needDistinct, if_neg hd]
    exact answers_ok ⟨hw hd, h hz⟩

end

/-! The fields that pass a must-be-zero check are the ones the row names, and zeros. -/

section
variable {f : Fields} {o n : Nat} {flHigh : BitVec n} (ho : f.opc.toNat = o)
include ho

theorem opc_eq_ofNat : f.opc = BitVec.ofNat 8 o := by
  rw [← ho, BitVec.ofNat_toNat, BitVec.setWidth_eq]

theorem fields_of_zeroButRd {fl : BitVec 8} (hfl : flHigh = 0#n → fl = f.fl) (h : zeroButRd f flHigh = true) :
    { opc := BitVec.ofNat 8 o, rd := f.rd, fl := fl } = f := by
  obtain ⟨opc, rd, ra, rb, re, flAll, z4⟩ := f
  simp only [zeroButRd, Bool.and_eq_true, beq_iff_eq] at h
  obtain ⟨⟨⟨⟨rfl, rfl⟩, rfl⟩, hhigh⟩, rfl⟩ := h
  rw [hfl hhigh, ← opc_eq_ofNat ho]

theorem fields_of_zeroButRa {fl : BitVec 8} (hfl : flHigh = 0#n → fl = f.fl) (h : zeroButRa f flHigh = true) :
    { opc := BitVec.ofNat 8 o, ra := f.ra, fl := fl } = f := by
  obtain ⟨opc, rd, ra, rb, re, flAll, z4⟩ := f
  simp only [zeroButRa, Bool.and_eq_true, beq_iff_eq] at h
  obtain ⟨⟨⟨⟨rfl, rfl⟩, rfl⟩, hhigh⟩, rfl⟩ := h
  rw [hfl hhigh, ← opc_eq_ofNat ho]

theorem fields_of_zeroButFl {fl : BitVec 8} (hfl : flHigh = 0#n → fl = f.fl) (h : zeroButFl f flHigh = true) :
    { opc := BitVec.ofNat 8 o, fl := fl } = f := by
  obtain ⟨opc, rd, ra, rb, re, flAll, z4⟩ := f
  simp only [zeroButFl, Bool.and_eq_true, beq_iff_eq] at h
  obtain ⟨⟨⟨⟨⟨rfl, rfl⟩, rfl⟩, rfl⟩, hhigh⟩, rfl⟩ := h
  rw [hfl hhigh, ← opc_eq_ofNat ho]

theorem fields_of_zeroButRdRa (h : zeroButRdRa f = true) : { opc := BitVec.ofNat 8 o, rd := f.rd, ra := f.ra } = f := by
  obtain ⟨opc, rd, ra, rb, re, flAll, z4⟩ := f
  simp only [zeroButRdRa, Bool.and_eq_true, beq_iff_eq] at h
  obtain ⟨⟨⟨rfl, rfl⟩, rfl⟩, rfl⟩ := h
  rw [← opc_eq_ofNat ho]

theorem fields_of_zeroButRaRb (h : zeroButRaRb f = true) : { opc := BitVec.ofNat 8 o, ra := f.ra, rb := f.rb } = f := by
  obtain ⟨opc, rd, ra, rb, re, flAll, z4⟩ := f
  simp only [zeroButRaRb, Bool.and_eq_true, beq_iff_eq] at h
  obtain ⟨⟨⟨rfl, rfl⟩, rfl⟩, rfl⟩ := h
  rw [← opc_eq_ofNat ho]

theorem fields_of_zeroButRdRaRb (h : zeroButRdRaRb f = true) :
    { opc := BitVec.ofNat 8 o, rd := f.rd, ra := f.ra, rb := f.rb } = f := by
  obtain ⟨opc, rd, ra, rb, re, flAll, z4⟩ := f
  simp only [zeroButRdRaRb, Bool.and_eq_true, beq_iff_eq] at h
  obtain ⟨⟨rfl, rfl⟩, rfl⟩ := h
  rw [← opc_eq_ofNat ho]

theorem fields_of_zeroButRegs (h : zeroButRegs f = true) :
    { opc := BitVec.ofNat 8 o, rd := f.rd, ra := f.ra, rb := f.rb, re := f.re } = f := by
  obtain ⟨opc, rd, ra, rb, re, flAll, z4⟩ := f
  simp only [zeroButRegs, Bool.and_eq_true, beq_iff_eq] at h
  obtain ⟨rfl, rfl⟩ := h
  rw [← opc_eq_ofNat ho]

end

/-! `FL` from its sub-fields, its other bits zero (R72). -/

theorem konstBits_of_konstOf : ∀ (b : BitVec 2) (k : Konst), konstOf b = some k → konstBits k = b := by
  intro b k; cases k <;> revert b <;> decide

theorem baseBits_of_baseOf : ∀ (b : BitVec 2) (base : Base), baseOf b = some base → baseBits base = b := by
  intro b k; cases k <;> revert b <;> decide

theorem ctrlRegBits_of_ctrlRegOf : ∀ (b : BitVec 2) (n : CtrlReg), ctrlRegOf b = some n → ctrlRegBits n = b := by
  intro b k; cases k <;> revert b <;> decide

theorem textWordBits_of_textWordOf : ∀ (b : BitVec 3) (k : TextWord), textWordOf b = some k → textWordBits k = b := by
  decide

theorem widthBits_widthOf : ∀ b : BitVec 2, widthBits (widthOf b) = b := by decide

theorem fpBit_fpOf : ∀ b : Bool, fpBit (fpOf b) = b := by decide

theorem fl_of_low2 : ∀ fl : BitVec 8, fl.extractLsb' 2 6 = 0#6 → 0#6 ++ fl.extractLsb' 0 2 = fl := by decide

theorem fl_of_low3 : ∀ fl : BitVec 8, fl.extractLsb' 3 5 = 0#5 → 0#5 ++ fl.extractLsb' 0 3 = fl := by decide

theorem fl_of_native : ∀ fl : BitVec 8, fl.extractLsb' 3 5 = 0#5 →
    0#5 ++ bit (fl.getLsbD 2) ++ widthBits (widthOf (fl.extractLsb' 0 2)) = fl := by decide

theorem fl_of_fp : ∀ fl : BitVec 8, fl.extractLsb' 1 7 = 0#7 → 0#7 ++ bit (fpBit (fpOf (fl.getLsbD 0))) = fl := by decide

theorem fl_of_fmt : ∀ fl : BitVec 8, fl.extractLsb' 6 2 = 0#2 →
    fmtFields (fl.extractLsb' 0 2) (fl.getLsbD 2) (fl.getLsbD 3) (fl.getLsbD 4) (fl.getLsbD 5) = fl := by decide

/-- The rows of R73 one by one, those of one shape together: what a row answers is encoded in the fields it has read. -/
theorem decodeFields_answers (f : Fields) (x y : Limb) : Answers f (decodeFields f x y) := by
  unfold decodeFields
  split
  -- `RD` and a payload, or `RA`, with the whole of `FL` zero
  case h_1 ho => exact answers_plain (fields_of_zeroButRd ho fun h => h.symm)
  case h_2 ho | h_3 ho => exact answers_plain (fields_of_zeroButRa ho fun h => h.symm)
  -- `LDC`, `RDTXT` and `RDCR`, whose sub-field has reserved values
  case h_4 ho =>
    exact answers_named fun hz k hk =>
      fields_of_zeroButRd ho (fun h => (konstBits_of_konstOf _ k hk) ▸ fl_of_low2 f.fl h) hz
  case h_43 ho =>
    exact answers_named fun hz k hk =>
      fields_of_zeroButFl ho (fun h => (textWordBits_of_textWordOf _ k hk) ▸ fl_of_low3 f.fl h) hz
  case h_44 ho =>
    exact answers_named fun hz n hn =>
      fields_of_zeroButFl ho (fun h => (ctrlRegBits_of_ctrlRegOf _ n hn) ▸ fl_of_low2 f.fl h) hz
  -- `FROMINT`, `TOINT` and the float conversions
  case h_6 ho => exact answers_plain (fields_of_zeroButRd ho (fl_of_native f.fl))
  case h_7 ho => exact answers_plain (fields_of_zeroButRa ho (fl_of_native f.fl))
  case h_38 ho | h_39 ho => exact answers_plain (fields_of_zeroButRd ho (fl_of_fp f.fl))
  case h_40 ho | h_41 ho => exact answers_plain (fields_of_zeroButRa ho (fl_of_fp f.fl))
  -- `FMT`
  case h_42 ho =>
    exact answers_named fun hz base hb =>
      fields_of_zeroButRa ho (fun h => (baseBits_of_baseOf _ base hb) ▸ fl_of_fmt f.fl h) hz
  -- `DIVMODU` and `DIVMODS`
  case h_15 ho | h_18 ho => exact answers_distinct (fields_of_zeroButRegs ho)
  -- no opcode of R73
  case h_45 => exact answers_error .unknownOpcode
  -- two registers
  case h_5 ho | h_11 ho | h_12 ho | h_19 ho | h_20 ho | h_21 ho | h_22 ho | h_23 ho | h_27 ho =>
    exact answers_plain (fields_of_zeroButRdRa ho)
  -- the comparisons
  case h_28 ho | h_29 ho | h_30 ho | h_31 ho | h_32 ho | h_33 ho | h_34 ho | h_35 ho | h_36 ho | h_37 ho =>
    exact answers_plain (fields_of_zeroButRaRb ho)
  -- three registers
  case h_8 ho | h_9 ho | h_10 ho | h_13 ho | h_14 ho | h_16 ho | h_17 ho | h_24 ho | h_25 ho | h_26 ho =>
    exact answers_plain (fields_of_zeroButRdRaRb ho)

theorem wellFormed_of_decode {p : Packet} {i : Instr} (h : decode p = .ok i) : i.wellFormed = true :=
  (decodeFields_answers _ _ _ i h).1

theorem encodeWord_of_decode {p : Packet} {i : Instr} (h : decode p = .ok i) : encodeWord i = p.cw := by
  rw [encodeWord, (decodeFields_answers _ _ _ i h).2, packWord_unpackWord]

/-- The payload operands are the payload words where the instruction uses any of their bits. -/
theorem payload_withPayload (x y : Limb) (i : Instr) :
    payloadX (withPayload x y i) = (if Spec.usedX (withPayload x y i) = 0 then 0 else x) ∧
      payloadY (withPayload x y i) = (if Spec.usedY (withPayload x y i) = 0 then 0 else y) := by
  cases i with
  | fromint rd wd => cases wd <;> exact ⟨rfl, rfl⟩
  | fromfu rd fp | fromfs rd fp => cases fp <;> exact ⟨rfl, rfl⟩
  | _ => exact ⟨rfl, rfl⟩

/-- Settles O2: the fields are the ones the row has read, and the payload words go into the operands that use them. -/
theorem decodedInstructionHasPacketsWordAndUsedPayload : Obligations.DecodedInstructionHasPacketsWordAndUsedPayload := by
  intro p i h
  obtain ⟨-, hd⟩ := decode_ok h
  have hi : withPayload p.x p.y i = i := Except.ok.inj ((hd p.x p.y).symm.trans h)
  have hp := payload_withPayload p.x p.y i
  rw [hi] at hp
  exact ⟨wellFormed_of_decode h, encodeWord_of_decode h, hp⟩

/-- Settles O5: every word is evaluated by the decoder. -/
theorem workedEncodingsDecode : Obligations.WorkedEncodingsDecode := by
  unfold Obligations.WorkedEncodingsDecode
  decide

end Sys2Proof.Proofs

/-! ## Proofs: packets, faults, the halt and reset (spec/10_state.md, 30_encoding.md R77, R81, 60_exceptions.md,
70_reset_and_hazards.md) -/

namespace Sys2Proof.Proofs

open Sys2Proof.Machine Sys2Proof.Laws

/-! ### What a step from `s` to `t` has done, each case with the next state whole -/

/-- The unit has executed the packet, refused it halted, or faulted it as illegal (R81). -/
inductive PacketTo (p : Packet) (s t : State) : Prop
  | executes (i : Instr) (hd : decode p = .ok i) (hrun : s.flt = 0 ∨ ∃ n, i = .rdcr n) (hx : exec i s = .next t)
  | refuses (hhalt : s.flt ≠ 0) (hn : ∀ n, decode p ≠ .ok (.rdcr n)) (ht : t = refuseHalted s)
  | illegal (e : Illegal) (hd : decode p = .error e) (hrun : s.flt = 0) (ht : t = raise .illegal p.cw s)

theorem packetTo_of_runPacket {p : Packet} {s t : State} (h : runPacket p s = .next t) : PacketTo p s t := by
  have hcase := runPacket_case p s
  generalize runPacket p s = r at hcase h
  cases hcase with
  | executes i hd hrun => exact .executes i hd hrun h
  | refuses hhalt hn => exact .refuses hhalt hn (Host.Outcome.next.inj h).symm
  | illegal e hd hrun => exact .illegal e hd hrun (Host.Outcome.next.inj h).symm

/-- The unit has waited, was reset, or has taken a packet. -/
inductive StepTo (s t : State) : Prop
  | waits (hin : s.inputs = []) (ht : t = s)
  | resets (o : Option Packet) (rest : List Input) (hin : s.inputs = .reset o :: rest)
      (ht : t = resetUnit { s with inputs := rest })
  | takes (p : Packet) (rest : List Input) (hin : s.inputs = .command p :: rest) (hp : PacketTo p { s with inputs := rest } t)

section
variable {s t : State} {rest : List Input}

theorem step_command {p : Packet} (hin : s.inputs = .command p :: rest) : step s = runPacket p { s with inputs := rest } :=
  takeInput_command hin

theorem step_reset {o : Option Packet} (hin : s.inputs = .reset o :: rest) :
    step s = .next (resetUnit { s with inputs := rest }) :=
  takeInput_reset hin

theorem packetTo_of_step {p : Packet} (hin : s.inputs = .command p :: rest) (h : step s = .next t) :
    PacketTo p { s with inputs := rest } t :=
  packetTo_of_runPacket ((step_command hin).symm.trans h)

theorem eq_resetUnit_of_step {o : Option Packet} (hin : s.inputs = .reset o :: rest) (h : step s = .next t) :
    t = resetUnit { s with inputs := rest } :=
  (Host.Outcome.next.inj ((step_reset hin).symm.trans h)).symm

theorem stepTo_of_step (h : step s = .next t) : StepTo s t := by
  cases hin : s.inputs with
  | nil => exact .waits hin (Host.Outcome.next.inj ((takeInput_idle hin).symm.trans h)).symm
  | cons x rest =>
    cases x with
    | command p => exact .takes p rest hin (packetTo_of_step hin h)
    | reset o => exact .resets o rest hin (eq_resetUnit_of_step hin h)

end

theorem execCase_of_exec {i : Instr} {s t : State} (h : exec i s = .next t) : ExecCase i s (.next t) := h ▸ exec_case i s

theorem exec_total (i : Instr) (s : State) : ∃ t, exec i s = .next t := by
  have hcase := exec_case i s
  generalize exec i s = r at hcase ⊢
  cases hcase <;> exact ⟨_, rfl⟩

theorem runPacket_total (p : Packet) (s : State) : ∃ t, runPacket p s = .next t := by
  have hcase := runPacket_case p s
  generalize runPacket p s = r at hcase ⊢
  cases hcase with
  | executes i => exact exec_total i s
  | refuses | illegal => exact ⟨_, rfl⟩

/-- Settles O17: waiting and reset answer a next state, and so does every packet. -/
theorem everyStepHasNextState : Obligations.EveryStepHasNextState := by
  intro s
  rcases hin : s.inputs with _ | ⟨p | o, rest⟩
  · exact ⟨s, takeInput_idle hin⟩
  · rw [step_command hin]
    exact runPacket_total p _
  · exact ⟨_, step_reset hin⟩

/-- Settles O13: nothing presented, nothing taken. -/
theorem idleUnitWaits : Obligations.IdleUnitWaits := fun _ hin => takeInput_idle hin

/-- Settles O11: the fields of the unit after reset are the reset values, and reset sends nothing. -/
theorem resetInputResetsUnit : Obligations.ResetInputResetsUnit := by
  intro s o rest hin
  exact ⟨_, step_reset hin, resetUnit_v _, resetUnit_t _, resetUnit_tlen _, resetUnit_flt _, resetUnit_finfo _,
    resetUnit_responses _⟩

/-! ### Running the decoded instruction (R81) -/

theorem runPacket_decoded {p : Packet} {i : Instr} {s : State} (h : s.flt = 0) (hd : decode p = .ok i) :
    runPacket p s = exec i s := by
  rw [runPacket_running p h, hd]

/-- Settles O7: the running unit executes every decoded instruction, and either unit executes `RDCR`. -/
theorem stepRunsDecodedInstruction : Obligations.StepRunsDecodedInstruction := by
  intro s p rest i hin hd
  rw [step_command hin]
  refine ⟨fun h => runPacket_decoded h hd, ?_⟩
  rintro n rfl
  exact runPacket_rdcr hd _

theorem decode_of_decodeTableWord {nbits w : Nat} {i : Instr} (h : decodeTableWord nbits w = some i) :
    decode (packetOfBits nbits w) = .ok i := by
  rw [decodeTableWord] at h
  split at h
  case h_1 j hd => rw [hd, Option.some.inj h]
  case h_2 => cases h

/-- Settles O8: the packet presented is the one the table word is read from. -/
theorem presentedTableWordRuns : Obligations.PresentedTableWordRuns := by
  intro s nbits w i h hi
  rw [State.withFetchWord, step_present, runPacket_decoded h (decode_of_decodeTableWord hi)]

/-- Settles O10: a legal `RDCR` reads a register and responds, any other packet is refused. -/
theorem haltedUnitRefuses : Obligations.HaltedUnitRefuses := by
  intro s p rest h hin
  rw [step_command hin]
  refine ⟨fun hn => runPacket_halted hn h, fun n hd => ⟨readCtrl { s with inputs := rest } n, ?_⟩⟩
  rw [runPacket_rdcr hd, exec_rdcr_respond, respond]

/-- Settles O16: the halted unit waits, refuses or reads a control register, and nothing of these touches its state. -/
theorem onlyResetClearsFault : Obligations.OnlyResetClearsFault := by
  intro s t h hstep
  refine ⟨fun hnr => ?command, fun o rest hin => ?reset⟩
  case reset =>
    rw [eq_resetUnit_of_step hin hstep]
    exact ⟨rfl, rfl, rfl, rfl, rfl⟩
  case command =>
    cases stepTo_of_step hstep with
    | waits hin ht =>
      rw [ht]
      exact ⟨rfl, rfl, rfl, rfl, rfl⟩
    | resets o rest hin => exact absurd hin (hnr o rest)
    | takes p rest hin hp =>
      cases hp with
      | executes i hd hrun hx =>
        obtain ⟨n, rfl⟩ := hrun.resolve_left h
        rw [exec_rdcr_respond] at hx
        rw [← Host.Outcome.next.inj hx]
        exact ⟨rfl, rfl, rfl, rfl, rfl⟩
      | refuses hhalt hn ht =>
        rw [ht]
        exact ⟨rfl, rfl, rfl, rfl, rfl⟩
      | illegal e hd hrun => exact absurd hrun h

/-! ### The frame of an instruction -/

theorem getElem_writeV_of_ne {s : State} {r q : Reg} (h : q ≠ r) (x : Value) : (writeV s r x).v[q] = s.v[q] :=
  readV_writeV_other x h

/-- Settles O20: case by case of what `exec` can do. -/
theorem instructionFrame : Obligations.InstructionFrame := by
  intro i s t h
  cases execCase_of_exec h with
  | reads z => exact ⟨fun _ _ => rfl, fun _ => ⟨rfl, rfl⟩, rfl, ⟨_, rfl⟩, .inl ⟨rfl, rfl⟩⟩
  | writes r x _ hd =>
    refine ⟨fun q hq => ?_, fun _ => ⟨rfl, rfl⟩, rfl, ⟨_, rfl⟩, .inl ⟨rfl, rfl⟩⟩
    rw [hd, List.mem_singleton] at hq
    exact getElem_writeV_of_ne hq x
  | writesBoth r r' x y _ hd =>
    refine ⟨fun q hq => ?_, fun _ => ⟨rfl, rfl⟩, rfl, ⟨_, rfl⟩, .inl ⟨rfl, rfl⟩⟩
    rw [hd, List.mem_pair, not_or] at hq
    exact (getElem_writeV_of_ne hq.2 y).trans (getElem_writeV_of_ne hq.1 x)
  | formats ra base sg uc sb sp hi =>
    subst hi
    exact ⟨fun _ _ => rfl, nofun, rfl, ⟨_, rfl⟩, .inl ⟨rfl, rfl⟩⟩
  | faults c hf => exact ⟨fun _ _ => rfl, fun _ => ⟨rfl, rfl⟩, rfl, ⟨_, rfl⟩, .inr ⟨hf, rfl, rfl⟩⟩

theorem inputs_of_exec {i : Instr} {s t : State} (h : exec i s = .next t) : t.inputs = s.inputs := by
  obtain ⟨-, -, hin, -⟩ := instructionFrame i s t h
  exact hin

theorem responses_of_exec {i : Instr} {s t : State} (h : exec i s = .next t) : ∃ r, t.responses = r :: s.responses := by
  obtain ⟨-, -, -, hr, -⟩ := instructionFrame i s t h
  exact hr

/-- Settles O18: `exec`, the refusal and fault entry send one response each, reset none, and only `takeInput` takes inputs. -/
theorem oneResponsePerCommand : Obligations.OneResponsePerCommand := by
  intro s t x rest hin h
  cases x with
  | command p =>
    have hp : t.inputs = rest ∧ ∃ r, t.responses = r :: s.responses := by
      cases packetTo_of_step hin h with
      | executes i hd hrun hx => exact ⟨inputs_of_exec hx, responses_of_exec (s := { s with inputs := rest }) hx⟩
      | refuses hhalt hn ht => exact ht ▸ ⟨rfl, _, rfl⟩
      | illegal e hd hrun ht => exact ht ▸ ⟨rfl, _, rfl⟩
    exact ⟨hp.1, fun _ _ => hp.2, nofun⟩
  | reset o =>
    rw [eq_resetUnit_of_step hin h]
    exact ⟨rfl, nofun, fun _ _ => rfl⟩

/-- A reading instruction answers what it reads in `v`, `t`, `tlen`, `flt` and `finfo`, which its response leaves alone. -/
theorem exec_again_of_readsOnly {i : Instr} (hi : Spec.readsOnly i = true) (s : State) :
    ∃ z, exec i s = .next (respond s z) ∧ exec i (respond s z) = .next (respond (respond s z) z) := by
  cases i with
  | gethi | getlo | toint | tofu | tofs | rdtxt | eq | ne | ltu | leu | gtu | geu | lts | les | gts | ges =>
    exact ⟨_, rfl, rfl⟩
  | rdcr n => cases n <;> exact ⟨_, rfl, rfl⟩
  | _ => cases hi

/-- Settles O22: the next state is the response alone, and reading it again gives that response again. -/
theorem readsChangeNothing : Obligations.ReadsChangeNothing := by
  intro i s t hi h
  obtain ⟨z, hz, hagain⟩ := exec_again_of_readsOnly hi s
  obtain rfl : t = respond s z := Host.Outcome.next.inj (h.symm.trans hz)
  exact ⟨_, rfl, hagain⟩

/-! ### Fault entry -/

theorem code_bounds (c : Cause) : 1 ≤ c.code.toNat ∧ c.code.toNat ≤ 7 := by cases c <;> decide

theorem code_ne_zero (c : Cause) : c.code ≠ 0 := by cases c <;> decide

theorem flt_of_neverFaults {i : Instr} {s t : State} (hi : Spec.neverFaults i = true) (h : exec i s = .next t) :
    t.flt = s.flt := by
  obtain ⟨-, -, -, -, hfault⟩ := instructionFrame i s t h
  rcases hfault with ⟨hflt, -⟩ | ⟨hf, -⟩
  · exact hflt
  · cases hi.symm.trans hf

/-- Settles O23: `exec` is total, and only an instruction outside the list changes `FLT`. -/
theorem neverFaultingInstructionsExecute : Obligations.NeverFaultingInstructionsExecute := by
  intro i s hi h
  obtain ⟨t, ht⟩ := exec_total i s
  exact ⟨t, ht, (flt_of_neverFaults hi ht).trans h⟩

/-- An instruction that leaves the running unit halted has done fault entry with its own word. -/
theorem raise_of_exec_flt {i : Instr} {s t : State} (h : s.flt = 0) (hx : exec i s = .next t) (hflt : t.flt ≠ 0) :
    ∃ c, t = raise c (encodeWord i) s := by
  cases execCase_of_exec hx with
  | faults c => exact ⟨c, rfl⟩
  | reads | writes | writesBoth | formats => exact absurd h hflt

/-- A packet that leaves the running unit halted has done fault entry with the packet's word. -/
theorem raise_of_packet_flt {p : Packet} {s t : State} (h : s.flt = 0) (hp : PacketTo p s t) (hflt : t.flt ≠ 0) :
    ∃ c, t = raise c p.cw s := by
  cases hp with
  | executes i hd hrun hx => exact encodeWord_of_decode hd ▸ raise_of_exec_flt h hx hflt
  | refuses hhalt => exact absurd h hhalt
  | illegal e hd hrun ht => exact ⟨_, ht⟩

/-- Settles O21: waiting and reset leave the unit running; a packet that does not has done fault entry. -/
theorem faultEntryHasNoOtherEffect : Obligations.FaultEntryHasNoOtherEffect := by
  intro s t h hstep hflt
  cases stepTo_of_step hstep with
  | waits hin ht => exact absurd (ht ▸ h) hflt
  | resets o rest hin ht => exact absurd (ht ▸ resetUnit_flt _) hflt
  | takes p rest hin hp =>
    obtain ⟨c, hc⟩ := raise_of_packet_flt (s := { s with inputs := rest }) h hp hflt
    obtain ⟨hlow, hhigh⟩ := code_bounds c
    exact ⟨p, rest, c.code, hin, hlow, hhigh, hc⟩

/-! ### `ST` (R77) -/

theorem status_respond : ∀ f : BitVec 8, f &&& 0x7F &&& 0x7F = f &&& 0x7F ∧ (f &&& 0x7F).msb ≠ true := by decide

theorem status_refuse : ∀ f : BitVec 8, (0x80 ||| f) &&& 0x7F = f &&& 0x7F ∧ (0x80 ||| f).msb = true := by decide

/-- What the response `r` to the packet `p`, taken in `s` and answered in `t`, says. -/
def Reports (p : Packet) (s t : State) (r : Response) : Prop :=
  r.st &&& 0x7F = t.flt &&& 0x7F ∧
    (r.st.msb = true ↔ (s.flt = 0 ∧ t.flt ≠ 0) ∨ (s.flt ≠ 0 ∧ ∀ n, decode p ≠ .ok (.rdcr n))) ∧
    (r.st.msb = true → r.z = 0) ∧
    (∀ i, decode p = .ok i → Spec.hasResult i = false → r.z = 0)

section
variable {p : Packet} {s t : State}

/-- The response of a command that completes. -/
theorem reports_respond {i : Instr} {z : Limb} (hd : decode p = .ok i) (hrun : s.flt = 0 ∨ ∃ n, i = .rdcr n)
    (hflt : t.flt = s.flt) (hz : Spec.hasResult i = false → z = 0) : Reports p s t ⟨s.flt &&& 0x7F, z⟩ := by
  obtain ⟨hlow, hmsb⟩ := status_respond s.flt
  refine ⟨hflt ▸ hlow, iff_of_false hmsb ?_, fun h => absurd h hmsb, fun j hj hr => hz ?_⟩
  · rintro (⟨h0, hne⟩ | ⟨hne, hn⟩)
    · exact hne (hflt.trans h0)
    · obtain ⟨n, rfl⟩ := hrun.resolve_left hne
      exact hn n hd
  · rwa [Except.ok.inj (hd.symm.trans hj)]

/-- The response of a command that faults in the running unit. -/
theorem reports_raise {c : Cause} (h0 : s.flt = 0) (hflt : t.flt = c.code) : Reports p s t ⟨0x80 ||| c.code, 0⟩ := by
  obtain ⟨hlow, hmsb⟩ := status_refuse c.code
  exact ⟨hflt ▸ hlow, iff_of_true hmsb (.inl ⟨h0, hflt ▸ code_ne_zero c⟩), fun _ => rfl, fun _ _ _ => rfl⟩

/-- The response of the halted unit to a command it refuses. -/
theorem reports_refuse (hhalt : s.flt ≠ 0) (hn : ∀ n, decode p ≠ .ok (.rdcr n)) (hflt : t.flt = s.flt) :
    Reports p s t ⟨0x80 ||| s.flt, 0⟩ := by
  obtain ⟨hlow, hmsb⟩ := status_refuse s.flt
  exact ⟨hflt ▸ hlow, iff_of_true hmsb (.inr ⟨hhalt, hn⟩), fun _ => rfl, fun _ _ _ => rfl⟩

theorem exists_reports_of_exec {i : Instr} (hd : decode p = .ok i) (hrun : s.flt = 0 ∨ ∃ n, i = .rdcr n)
    (hx : exec i s = .next t) : ∃ r, t.responses = r :: s.responses ∧ Reports p s t r := by
  cases execCase_of_exec hx with
  | reads z hreads =>
    exact ⟨_, rfl, reports_respond hd hrun rfl fun h => by rw [Spec.hasResult, hreads] at h; cases h⟩
  | writes | writesBoth => exact ⟨_, rfl, reports_respond hd hrun rfl fun _ => rfl⟩
  | formats ra base sg uc sb sp hi =>
    subst hi
    exact ⟨_, rfl, reports_respond hd hrun rfl nofun⟩
  | faults c hf =>
    have h0 : s.flt = 0 := hrun.resolve_right (by rintro ⟨n, rfl⟩; cases hf)
    exact ⟨_, rfl, reports_raise h0 rfl⟩

theorem exists_reports (hp : PacketTo p s t) : ∃ r, t.responses = r :: s.responses ∧ Reports p s t r := by
  cases hp with
  | executes i hd hrun hx => exact exists_reports_of_exec hd hrun hx
  | refuses hhalt hn ht =>
    subst ht
    exact ⟨_, rfl, reports_refuse hhalt hn rfl⟩
  | illegal e hd hrun ht =>
    subst ht
    exact ⟨_, rfl, reports_raise hrun rfl⟩

end

/-- Settles O19: the one response sent says it, whichever way the packet goes. -/
theorem responseReportsFault : Obligations.ResponseReportsFault := by
  intro s t p rest r hin h hr
  obtain ⟨r', hr', hreports⟩ := exists_reports (packetTo_of_step hin h)
  obtain rfl : r = r' := (List.cons.inj (hr.symm.trans hr')).1
  exact hreports

/-! ### The invariant -/

theorem ok_status_respond : ∀ f : BitVec 8, f.toNat ≤ 7 → (f &&& 0x7F &&& 0x7F).toNat ≤ 7 := by decide

theorem ok_status_refuse : ∀ f : BitVec 8, f.toNat ≤ 7 → f ≠ 0 →
    ((0x80 ||| f) &&& 0x7F).toNat ≤ 7 ∧ 0x80 ||| f ≠ 0x80 := by decide

/-- The response of a command that completes (R77). -/
theorem ok_respond {f : BitVec 8} (hf : f.toNat ≤ 7) (z : Limb) : Response.Ok ⟨f &&& 0x7F, z⟩ :=
  ⟨ok_status_respond f hf, fun h => absurd h (status_respond f).2⟩

/-- The response of a command that faults or is refused (R77). -/
theorem ok_refuse {f : BitVec 8} (hf : f.toNat ≤ 7) (h0 : f ≠ 0) : Response.Ok ⟨0x80 ||| f, 0⟩ := by
  obtain ⟨hlow, hne⟩ := ok_status_refuse f hf h0
  exact ⟨hlow, fun _ => ⟨hne, rfl⟩⟩

/-- A text of the formatter in the buffer: its characters, then zero bytes (R227, R229, R230). -/
theorem textOk_writeText (s : State) (base : Base) (sg uc sb sp : Bool) (v : Value) :
    (writeText s (formatText base sg uc sb sp v)).TextOk := by
  have hlen : (formatText base sg uc sb sp v).length ≤ 44 := by
    rw [formatText_eq]
    exact text_length_le base sg uc sb sp v
  have htlen : (BitVec.ofNat 8 (formatText base sg uc sb sp v).length).toNat = (formatText base sg uc sb sp v).length :=
    Nat.mod_eq_of_lt (by omega)
  refine ⟨htlen.trans_le hlen, fun k => ?_⟩
  have hk : (writeText s (formatText base sg uc sb sp v)).t[k] = _ := fillText_getElem _ k k.isLt
  rw [hk, writeText_tlen, htlen]
  by_cases hin : k.val < (formatText base sg uc sb sp v).length
  · rw [if_pos hin, dif_pos hin]
    exact formatText_ascii base sg uc sb sp v _ (List.getElem_mem hin)
  · rw [if_neg hin, dif_neg hin]

theorem textOk_zero {s : State} (ht : s.t = Vector.replicate 48 0) (hlen : s.tlen = 0) : s.TextOk := by
  refine ⟨by simp [hlen], fun k => ?_⟩
  rw [if_neg (by simp [hlen])]
  simp [ht]

section
variable {s : State} (h : s.Inv)
include h

theorem inv_respond (z : Limb) : (respond s z).Inv :=
  ⟨h.text, h.fault, List.forall_mem_cons.mpr ⟨ok_respond h.fault.1 z, h.answered⟩⟩

theorem inv_writeV (r : Reg) (x : Value) : (writeV s r x).Inv := ⟨h.text, h.fault, h.answered⟩

theorem inv_writeText (base : Base) (sg uc sb sp : Bool) (v : Value) :
    (writeText s (formatText base sg uc sb sp v)).Inv :=
  ⟨textOk_writeText s base sg uc sb sp v, h.fault, h.answered⟩

theorem inv_raise (c : Cause) (cw : CmdWord) : (raise c cw s).Inv :=
  ⟨h.text, ⟨(code_bounds c).2, fun h0 => absurd h0 (code_ne_zero c)⟩,
    List.forall_mem_cons.mpr ⟨ok_refuse (code_bounds c).2 (code_ne_zero c), h.answered⟩⟩

theorem inv_refuseHalted (hhalt : s.flt ≠ 0) : (refuseHalted s).Inv :=
  ⟨h.text, h.fault, List.forall_mem_cons.mpr ⟨ok_refuse h.fault.1 hhalt, h.answered⟩⟩

theorem inv_resetUnit : (resetUnit s).Inv :=
  ⟨textOk_zero (resetUnit_t s) (resetUnit_tlen s), ⟨by simp, fun _ => resetUnit_finfo s⟩, h.answered⟩

theorem inv_inputs (rest : List Input) : State.Inv { s with inputs := rest } := ⟨h.text, h.fault, h.answered⟩

theorem inv_exec {i : Instr} {t : State} (hx : exec i s = .next t) : t.Inv := by
  cases execCase_of_exec hx with
  | reads z => exact inv_respond h z
  | writes r x => exact inv_respond (inv_writeV h r x) 0
  | writesBoth r q x y => exact inv_respond (inv_writeV (inv_writeV h r x) q y) 0
  | formats ra base sg uc sb sp => exact inv_respond (inv_writeText h base sg uc sb sp _) _
  | faults c => exact inv_raise h c _

theorem inv_packet {p : Packet} {t : State} (hp : PacketTo p s t) : t.Inv := by
  cases hp with
  | executes i hd hrun hx => exact inv_exec h hx
  | refuses hhalt hn ht => exact ht ▸ inv_refuseHalted h hhalt
  | illegal e hd hrun ht => exact ht ▸ inv_raise h .illegal p.cw

end

/-- Settles O14: every operation on the state keeps it, so every packet does. -/
theorem stepKeepsInvariant : Obligations.StepKeepsInvariant := by
  intro s t h hstep
  cases stepTo_of_step hstep with
  | waits hin ht => exact ht ▸ h
  | resets o rest hin ht => exact ht ▸ inv_resetUnit (inv_inputs h rest)
  | takes p rest hin hp => exact inv_packet (inv_inputs h rest) hp

/-- Settles O15: no text, no fault, no response. -/
theorem resetMeetsInvariant : Obligations.ResetMeetsInvariant :=
  ⟨textOk_zero rfl rfl, ⟨by simp, fun _ => rfl⟩, nofun⟩

end Sys2Proof.Proofs

/-! ## Proofs: the causes of faults (spec/60_exceptions.md R301) -/

namespace Sys2Proof.Proofs

open Sys2Proof.Machine Sys2Proof.Laws

/-! ### What an instruction tests before it completes -/

/-- The operands whose values can stop an instruction (R301), and those of no other. -/
inductive Guard
  | nothing
  | negation (ra : Reg)
  | division (ra rb : Reg) (sg : Bool)
  | amount (x : Limb)
  | float (fp : FpFormat) (x : Limb) (sg : Bool)

def guard : Instr → Guard
  | .negs _ ra => .negation ra
  | .divu _ ra rb | .modu _ ra rb | .divmodu _ _ ra rb => .division ra rb false
  | .divs _ ra rb | .mods _ ra rb | .divmods _ _ ra rb => .division ra rb true
  | .shl _ _ x | .shr _ _ x | .sar _ _ x | .rol _ _ x | .ror _ _ x => .amount x
  | .fromfu _ fp x => .float fp x false
  | .fromfs _ fp x => .float fp x true
  | _ => .nothing

theorem divisor_eq_some_iff (i : Instr) (ra rb : Reg) (sg : Bool) :
    Spec.divisor i = some (ra, rb, sg) ↔ guard i = .division ra rb sg := by
  cases i <;> simp [Spec.divisor, guard]

theorem amount_eq_some_iff (i : Instr) (x : Limb) : Spec.amount i = some x ↔ guard i = .amount x := by
  cases i <;> simp [Spec.amount, guard]

theorem floatOperand_eq_some_iff (i : Instr) (fp : FpFormat) (x : Limb) (sg : Bool) :
    Spec.floatOperand i = some (fp, x, sg) ↔ guard i = .float fp x sg := by
  cases i <;> simp [Spec.floatOperand, guard]

theorem exists_negs_iff (i : Instr) (ra : Reg) : (∃ rd, i = .negs rd ra) ↔ guard i = .negation ra := by
  cases i <;> simp [guard]

open Classical in
/-- `FLT` after the test: the code of R301, or 0 where it passes. -/
noncomputable def Guard.flt (s : State) : Guard → BitVec 8
  | .nothing => 0
  | .negation ra => if s.v[ra].toInt = -2 ^ 127 then 0x04 else 0
  | .division ra rb sg =>
    if s.v[rb] = 0 then 0x02
    else if sg = true ∧ s.v[ra].toInt = -2 ^ 127 ∧ s.v[rb].toInt = -1 then 0x03 else 0
  | .amount x => if x.toInt < 0 ∨ 128 ≤ x.toInt then 0x05 else 0
  | .float fp x sg =>
    if Spec.IsNan fp x then 0x06
    else if Spec.IsInf fp x ∨ (Spec.IsFinite fp x ∧ Spec.OutOfRange fp sg x) then 0x07 else 0

/-! ### `FLT` after each group of instructions in the running unit -/

/-- The answer is a next state with `FLT = f`. -/
def EndsWith (r : Result) (f : BitVec 8) : Prop := ∃ t, r = .next t ∧ t.flt = f

theorem endsWith_float {s : State} {r : Result} {fp : FpFormat} {x : Limb} {sg : Bool} {w : CmdWord}
    (hnan : Spec.IsNan fp x → r = .next (Spec.faulted s 0x06 w)) (hinf : Spec.IsInf fp x → r = .next (Spec.faulted s 0x07 w))
    (hout : Spec.IsFinite fp x → Spec.OutOfRange fp sg x → r = .next (Spec.faulted s 0x07 w))
    (hdone : Spec.IsFinite fp x → ¬ Spec.OutOfRange fp sg x → EndsWith r 0) :
    EndsWith r ((Guard.float fp x sg).flt s) := by
  rw [Guard.flt]
  split
  case isTrue hn => exact ⟨_, hnan hn, rfl⟩
  case isFalse hn =>
    split
    case isTrue hr =>
      rcases hr with hi | ⟨hf, ho⟩
      · exact ⟨_, hinf hi, rfl⟩
      · exact ⟨_, hout hf ho, rfl⟩
    case isFalse hr =>
      have hf : Spec.IsFinite fp x := fun he => by
        by_cases h0 : Spec.fracField fp x = 0
        · exact hr (.inl ⟨he, h0⟩)
        · exact hn ⟨he, h0⟩
      exact hdone hf fun ho => hr (.inr ⟨hf, ho⟩)

section
variable {s : State} (h : s.flt = 0)
include h

theorem endsWith_negation (rd ra : Reg) : EndsWith (exec (.negs rd ra) s) ((Guard.negation ra).flt s) := by
  obtain ⟨hneg, hfault⟩ := (negateSigned rd ra).2 s h
  rw [Guard.flt]
  split
  case isTrue hmin => exact ⟨_, hfault hmin, rfl⟩
  case isFalse hne =>
    obtain ⟨x, hx, -⟩ := hneg hne
    exact ⟨_, hx, h⟩

theorem endsWith_amount {r : Result} {x : Limb} {w : CmdWord} {rd : Reg} {y : Value}
    (hfault : x.toInt < 0 ∨ 128 ≤ x.toInt → r = .next (Spec.faulted s 0x05 w))
    (hdone : 0 ≤ x.toInt → x.toInt < 128 → r = .next (Spec.wrote s rd y)) : EndsWith r ((Guard.amount x).flt s) := by
  rw [Guard.flt]
  split
  case isTrue hx => exact ⟨_, hfault hx, rfl⟩
  case isFalse hx => exact ⟨_, hdone (by omega) (by omega), h⟩

theorem endsWith_fromfu (rd : Reg) (fp : FpFormat) (x : Limb) :
    EndsWith (exec (.fromfu rd fp x) s) ((Guard.float fp x false).flt s) := by
  obtain ⟨hnan, hinf, hout, hdone⟩ := (fromFloatUnsigned rd fp x).2 s h
  refine endsWith_float hnan hinf hout fun hf hin => ?_
  simp only [Spec.OutOfRange, Bool.false_eq_true, if_false, not_or, not_lt, not_le] at hin
  exact ⟨_, hdone hf hin.1 hin.2, h⟩

theorem endsWith_fromfs (rd : Reg) (fp : FpFormat) (x : Limb) :
    EndsWith (exec (.fromfs rd fp x) s) ((Guard.float fp x true).flt s) := by
  obtain ⟨hnan, hinf, hout, hdone⟩ := (fromFloatSigned rd fp x).2 s h
  refine endsWith_float hnan hinf hout fun hf hin => ?_
  simp only [Spec.OutOfRange, if_true, not_or, not_le] at hin
  exact ⟨_, hdone hf hin.2 hin.1, h⟩

theorem endsWith_nothing {i : Instr} (hi : Spec.neverFaults i = true) : EndsWith (exec i s) (Guard.nothing.flt s) := by
  obtain ⟨t, ht⟩ := exec_total i s
  exact ⟨t, ht, (flt_of_neverFaults hi ht).trans h⟩

end

section
variable {s : State} {ra rb : Reg} {r : Result} {w : CmdWord}

theorem endsWith_unsignedDivision (hzero : s.v[rb] = 0 → r = .next (Spec.faulted s 0x02 w))
    (hdone : s.v[rb] ≠ 0 → EndsWith r 0) : EndsWith r ((Guard.division ra rb false).flt s) := by
  rw [Guard.flt]
  split
  case isTrue hb => exact ⟨_, hzero hb, rfl⟩
  case isFalse hb =>
    rw [if_neg (by simp)]
    exact hdone hb

theorem endsWith_signedDivision (hzero : s.v[rb] = 0 → r = .next (Spec.faulted s 0x02 w))
    (hover : s.v[rb] ≠ 0 → signedOverflowPair s.v[ra] s.v[rb] = true → r = .next (Spec.faulted s 0x03 w))
    (hdone : s.v[rb] ≠ 0 → signedOverflowPair s.v[ra] s.v[rb] = false → EndsWith r 0) :
    EndsWith r ((Guard.division ra rb true).flt s) := by
  simp only [Guard.flt, true_and, ← signedOverflowPair_iff]
  split
  case isTrue hb => exact ⟨_, hzero hb, rfl⟩
  case isFalse hb =>
    split
    case isTrue ho => exact ⟨_, hover hb ho, rfl⟩
    case isFalse ho => exact hdone hb (Bool.eq_false_iff.mpr ho)

end

/-- R301: the running unit ends a well-formed instruction with the code its guard gives. -/
theorem exec_endsWith_guard {i : Instr} {s : State} (h : s.flt = 0) (hw : i.wellFormed = true) :
    EndsWith (exec i s) ((guard i).flt s) := by
  cases i with
  | negs rd ra => exact endsWith_negation h rd ra
  | divu rd ra rb =>
    exact endsWith_unsignedDivision (exec_divu_divzero · rd ra) fun hb => ⟨_, exec_divu_running h hb rd, h⟩
  | modu rd ra rb =>
    exact endsWith_unsignedDivision (exec_modu_divzero · rd ra) fun hb => ⟨_, exec_modu_running h hb rd, h⟩
  | divmodu rd re ra rb =>
    have hne : rd ≠ re := bne_iff_ne.mp hw
    exact endsWith_unsignedDivision (exec_divmodu_divzero · ra hne) fun hb => ⟨_, exec_divmodu_running h hb hne, h⟩
  | divs rd ra rb =>
    exact endsWith_signedDivision (exec_divs_divzero · rd ra) (exec_divs_sdivovf · · rd)
      fun hb ho => ⟨_, exec_divs_running h hb ho rd, h⟩
  | mods rd ra rb =>
    exact endsWith_signedDivision (exec_mods_divzero · rd ra) (exec_mods_sdivovf · · rd)
      fun hb ho => ⟨_, exec_mods_running h hb ho rd, h⟩
  | divmods rd re ra rb =>
    have hne : rd ≠ re := bne_iff_ne.mp hw
    exact endsWith_signedDivision (exec_divmods_divzero · ra hne) (exec_divmods_sdivovf · · hne)
      fun hb ho => ⟨_, exec_divmods_running h hb ho hne, h⟩
  | shl rd ra x => exact endsWith_amount h (exec_shl_shamt · rd ra s) (exec_shl_running h · · rd ra)
  | shr rd ra x => exact endsWith_amount h (exec_shr_shamt · rd ra s) (exec_shr_running h · · rd ra)
  | sar rd ra x => exact endsWith_amount h (exec_sar_shamt · rd ra s) (exec_sar_running h · · rd ra)
  | rol rd ra x => exact endsWith_amount h (exec_rol_shamt · rd ra s) (exec_rol_running h · · rd ra)
  | ror rd ra x => exact endsWith_amount h (exec_ror_shamt · rd ra s) (exec_ror_running h · · rd ra)
  | fromfu rd fp x => exact endsWith_fromfu h rd fp x
  | fromfs rd fp x => exact endsWith_fromfs h rd fp x
  | _ => exact endsWith_nothing h rfl

/-! ### Each code exactly from its cause -/

section
variable {g : Guard} {s : State}

theorem flt_ne_illegal : g.flt s ≠ 0x01 := by
  cases g <;> simp [Guard.flt, ite_eq_iff]

theorem flt_eq_divzero_iff : g.flt s = 0x02 ↔ ∃ ra rb sg, g = .division ra rb sg ∧ s.v[rb] = 0 := by
  cases g <;> simp [Guard.flt, ite_eq_iff]

/-- A divisor of -1 is not zero, so the zero test lets it pass. -/
theorem flt_eq_sdivovf_iff : g.flt s = 0x03 ↔
    ∃ ra rb, g = .division ra rb true ∧ s.v[ra].toInt = -2 ^ 127 ∧ s.v[rb].toInt = -1 := by
  cases g with
  | division ra rb sg =>
    have hb : s.v[rb].toInt = -1 → s.v[rb] ≠ 0 := fun h h0 => by simp [h0] at h
    simp [Guard.flt, ite_eq_iff]
    tauto
  | _ => simp [Guard.flt, ite_eq_iff]

theorem flt_eq_snegovf_iff : g.flt s = 0x04 ↔ ∃ ra, g = .negation ra ∧ s.v[ra].toInt = -2 ^ 127 := by
  cases g <;> simp [Guard.flt, ite_eq_iff]

theorem flt_eq_shamt_iff : g.flt s = 0x05 ↔ ∃ x, g = .amount x ∧ (x.toInt < 0 ∨ 128 ≤ x.toInt) := by
  cases g with
  | amount x =>
    simp only [Guard.flt, Guard.amount.injEq, exists_eq_left']
    split <;> simp [*]
  | _ => simp [Guard.flt, ite_eq_iff]

theorem flt_eq_fnan_iff : g.flt s = 0x06 ↔ ∃ fp x sg, g = .float fp x sg ∧ Spec.IsNan fp x := by
  cases g <;> simp [Guard.flt, ite_eq_iff]

/-- An infinity and a finite pattern are no NaN, so the test for one lets them pass. -/
theorem flt_eq_frange_iff : g.flt s = 0x07 ↔ ∃ fp x sg, g = .float fp x sg ∧
    (Spec.IsInf fp x ∨ (Spec.IsFinite fp x ∧ Spec.OutOfRange fp sg x)) := by
  cases g with
  | float fp x sg =>
    have hn : Spec.IsInf fp x ∨ (Spec.IsFinite fp x ∧ Spec.OutOfRange fp sg x) → ¬ Spec.IsNan fp x := by
      rintro (⟨-, h0⟩ | ⟨hf, -⟩) ⟨hexp, hfrac⟩
      · exact hfrac h0
      · exact hf hexp
    simp only [Guard.flt, Guard.float.injEq, existsAndEq, true_and]
    split_ifs <;> simp <;> tauto
  | _ => simp [Guard.flt, ite_eq_iff]

end

/-- After a decoded packet in the running unit. -/
theorem flt_of_decode {p : Packet} {i : Instr} {s t : State} (h : s.flt = 0) (hd : decode p = .ok i)
    (hx : exec i s = .next t) : t.flt = (guard i).flt s := by
  obtain ⟨t', ht', hflt⟩ := exec_endsWith_guard h (wellFormed_of_decode hd)
  rw [Host.Outcome.next.inj (hx.symm.trans ht'), hflt]

/-- Settles O24: an illegal packet raises 0x01 and no other; after a legal one `FLT` is what the guard of its instruction gives. -/
theorem faultCauses : Obligations.FaultCauses := by
  intro s t p rest h hin hstep
  have hp := packetTo_of_step hin hstep
  have hentry : t.flt.toNat ≤ 7 ∧ (t.flt ≠ 0 → t.finfo = p.cw) := by
    by_cases hflt : t.flt = 0
    · exact ⟨by simp [hflt], fun hne => absurd hflt hne⟩
    · obtain ⟨c, rfl⟩ := raise_of_packet_flt (s := { s with inputs := rest }) h hp hflt
      exact ⟨(code_bounds c).2, fun _ => rfl⟩
  have hlegal := legalWordsAreTableWords p
  cases hp with
  | refuses hhalt => exact absurd h hhalt
  | illegal e hd hrun ht =>
    have hflt : t.flt = 0x01 := ht ▸ rfl
    rw [hflt]
    simp only [← hlegal, hd, reduceCtorEq, false_and, exists_false, not_false_eq_true, iff_false]
    rw [hflt] at hentry
    exact ⟨trivial, by decide, by decide, by decide, by decide, by decide, by decide, hentry⟩
  | executes i hd hrun hx =>
    have hflt : t.flt = (guard i).flt s := flt_of_decode (s := { s with inputs := rest }) h hd hx
    refine ⟨?legal, ?divzero, ?sdivovf, ?snegovf, ?shamt, ?fnan, ?frange, hentry⟩
    case legal => exact iff_of_false (hflt ▸ flt_ne_illegal) (fun hl => hl (hlegal.mp ⟨i, hd⟩))
    case divzero => simp only [hflt, flt_eq_divzero_iff, hd, Except.ok.injEq, existsAndEq, true_and, divisor_eq_some_iff]
    case sdivovf => simp only [hflt, flt_eq_sdivovf_iff, hd, Except.ok.injEq, existsAndEq, true_and, divisor_eq_some_iff]
    case snegovf =>
      rw [hflt, flt_eq_snegovf_iff, exists_comm]
      simp only [hd, Except.ok.injEq, exists_and_right, exists_negs_iff]
    case shamt => simp only [hflt, flt_eq_shamt_iff, hd, Except.ok.injEq, existsAndEq, true_and, amount_eq_some_iff]
    case fnan => simp only [hflt, flt_eq_fnan_iff, hd, Except.ok.injEq, existsAndEq, true_and, floatOperand_eq_some_iff]
    case frange => simp only [hflt, flt_eq_frange_iff, hd, Except.ok.injEq, existsAndEq, true_and, floatOperand_eq_some_iff]

end Sys2Proof.Proofs

/-! ## Proofs: laws that join several instructions or both views of a value (spec/40_construct_convert.md R102,
41_add_sub_mul.md R121 and R125, 42_shift_rotate.md R148, 43_compare.md R172, 45_divide.md R201) -/

namespace Sys2Proof.Proofs

open Sys2Proof.Machine Sys2Proof.Laws

/-- Settles O26: the halves of the register written are the halves of the pair. -/
theorem halvesRoundTrip : Obligations.HalvesRoundTrip := by
  intro rd x y s h
  have hv : (Spec.wrote s rd (pair x y)).v[rd] = pair x y := wrote_getElem_same s rd _
  refine ⟨_, exec_mkhl_running h rd x y, ?hi, ?lo⟩
  case hi => rw [exec_gethi_running (s := Spec.wrote s rd _) h, hv, hi_pair]
  case lo => rw [exec_getlo_running (s := Spec.wrote s rd _) h, hv, lo_pair]

/-! ### The signed view where nothing wraps -/

/-- A signed result in the range of the view is its own residue (R121, R125). -/
theorem bmod_eq_self {n : Int} (h0 : -2 ^ 127 ≤ n) (h1 : n < 2 ^ 127) : n.bmod (2 ^ 128) = n :=
  Int.bmod_eq_of_le (by omega) (by omega)

/-- Settles O31: each signed reading is the exact result modulo 2^128. -/
theorem signedArithmeticInRange : Obligations.SignedArithmeticInRange := by
  intro rd ra rb s h
  refine ⟨_, _, _, exec_add_running h rd ra rb, exec_sub_running h rd ra rb, exec_mul_running h rd ra rb, ?add, ?sub, ?mul⟩
  case add => exact fun h0 h1 => (BitVec.toInt_add _ _).trans (bmod_eq_self h0 h1)
  case sub => exact fun h0 h1 => BitVec.toInt_sub.trans (bmod_eq_self h0 h1)
  case mul => exact fun h0 h1 => (BitVec.toInt_mul _ _).trans (bmod_eq_self h0 h1)

/-! ### Shifting left and back (R148) -/

theorem shiftLeft_ushiftRight_of_lt {v : Value} {n : Nat} (hn : n < 128) (hv : v.toNat < 2 ^ (128 - n)) : v <<< n >>> n = v := by
  have hfit : v.toNat * 2 ^ n < 2 ^ 128 := by
    calc v.toNat * 2 ^ n < 2 ^ (128 - n) * 2 ^ n := Nat.mul_lt_mul_of_pos_right hv (by positivity)
      _ = 2 ^ 128 := by rw [← pow_add, Nat.sub_add_cancel hn.le]
  apply BitVec.eq_of_toNat_eq
  rw [BitVec.toNat_ushiftRight, BitVec.toNat_shiftLeft, Nat.shiftLeft_eq, Nat.mod_eq_of_lt hfit, Nat.shiftRight_eq_div_pow,
    Nat.mul_div_cancel _ (by positivity)]

/-- Settles O35: no bit leaves the register on the way up, so all come back on the way down. -/
theorem shiftLaw : Obligations.ShiftLaw := by
  intro rd ra x s h h0 h1 hv
  refine ⟨_, exec_shl_running h h0 h1 rd ra, ?_⟩
  rw [exec_shr_running (s := Spec.wrote s rd _) h h0 h1, wrote_getElem_same, shiftLeft_ushiftRight_of_lt (by omega) hv]

/-! ### The order laws (R172) -/

/-- Exactly one of below, equal and above is 1, and the other two orders are each of them with equality. -/
theorem truth_trichotomy {α : Type} [LinearOrder α] {a b : α} {p : Prop} [Decidable p] (hp : p ↔ a = b) :
    (if a < b then 1 else 0 : Limb).toNat + (if p then 1 else 0 : Limb).toNat + (if a > b then 1 else 0 : Limb).toNat = 1 ∧
      (if a ≤ b then 1 else 0 : Limb) = (if a < b then 1 else 0) ||| (if p then 1 else 0) ∧
      (if a ≥ b then 1 else 0 : Limb) = (if a > b then 1 else 0) ||| (if p then 1 else 0) := by
  simp only [hp]
  rcases lt_trichotomy a b with hab | rfl | hab
  · simp [hab, hab.le, hab.ne, hab.not_gt, hab.not_ge]
  · simp
  · simp [hab, hab.le, hab.ne', hab.not_gt, hab.not_ge]

theorem truth_eq_iff {p q : Prop} [Decidable p] [Decidable q] :
    (if p then 1 else 0 : Limb) = (if q then 1 else 0) ↔ (p ↔ q) := by
  by_cases hp : p <;> by_cases hq : q <;> simp [hp, hq]

/-- The orders of the two views agree exactly where both values have the same bit 127. -/
theorem orders_agree_iff (a b : Value) :
    ((a.toNat < b.toNat ↔ a.toInt < b.toInt) ∧ (a.toNat > b.toNat ↔ a.toInt > b.toInt)) ↔ a.msb = b.msb := by
  have ha := a.isLt
  have hb := b.isLt
  rw [BitVec.toInt_eq_msb_cond, BitVec.toInt_eq_msb_cond, BitVec.msb_eq_decide, BitVec.msb_eq_decide, decide_eq_decide]
  simp only [decide_eq_true_eq]
  split <;> split <;> omega

/-- Settles O39: the comparisons are the truth values of one linear order in each view. -/
theorem orderLaws : Obligations.OrderLaws := by
  intro ra rb s h
  obtain ⟨hu, hleu, hgeu⟩ := truth_trichotomy (BitVec.toNat_inj (x := s.v[ra]) (y := s.v[rb])).symm
  obtain ⟨hs, hles, hges⟩ := truth_trichotomy (BitVec.toInt_inj (x := s.v[ra]) (y := s.v[rb])).symm
  refine ⟨_, _, _, _, _, _, _, _, _, exec_eq_running h ra rb, exec_ltu_running h ra rb, exec_gtu_running h ra rb,
    exec_leu_running h ra rb, exec_geu_running h ra rb, exec_lts_running h ra rb, exec_gts_running h ra rb,
    exec_les_running h ra rb, exec_ges_running h ra rb, hu, hs, hleu, hgeu, hles, hges, ?_⟩
  rw [truth_eq_iff, truth_eq_iff]
  exact orders_agree_iff s.v[ra] s.v[rb]

/-! ### The division identity (R201) -/

/-! What a register reads after a write that responds, by register number. -/

section
variable (s : State) {r r' q : Reg} (x y : Value)

theorem wrote_getElem_other (h : q ≠ r) : (Spec.wrote s r x).v[q] = s.v[q] := readV_writeV_other x h

theorem wroteBoth_getElem_second : (Spec.wroteBoth s r x r' y).v[r'] = y := readV_writeV_same (writeV s r x) r' y

theorem wroteBoth_getElem_other (h : q ≠ r') : (Spec.wroteBoth s r x r' y).v[q] = (Spec.wrote s r x).v[q] :=
  readV_writeV_other (s := writeV s r x) y h

end

/-- The program after a division that leaves the quotient `q` and the remainder `r`: multiplying the quotient back and adding the
remainder gives the dividend. What holds of `r` holds of `V[3]`. -/
theorem exec_identity_program {i : Instr} {s : State} {q r : Value} {P : Value → Prop} (h : s.flt = 0)
    (hdiv : exec i s = .next (Spec.wroteBoth s 2 q 3 r)) (hqr : q * s.v[(1 : Reg)] + r = s.v[(0 : Reg)]) (hr : P r) :
    ∃ a b c, exec i s = .next a ∧ exec (.mul 4 2 1) a = .next b ∧ exec (.add 4 4 3) b = .next c ∧
      exec (.eq 4 0) c = .next (Spec.executed c 1) ∧ P a.v[(3 : Reg)] := by
  obtain ⟨a, ha⟩ : ∃ a, a = Spec.wroteBoth s 2 q 3 r := ⟨_, rfl⟩
  have a0 : a.v[(0 : Reg)] = s.v[(0 : Reg)] := by
    rw [ha, wroteBoth_getElem_other s q r (by decide), wrote_getElem_other s q (by decide)]
  have a1 : a.v[(1 : Reg)] = s.v[(1 : Reg)] := by
    rw [ha, wroteBoth_getElem_other s q r (by decide), wrote_getElem_other s q (by decide)]
  have a2 : a.v[(2 : Reg)] = q := by rw [ha, wroteBoth_getElem_other s q r (by decide), wrote_getElem_same]
  have a3 : a.v[(3 : Reg)] = r := by rw [ha, wroteBoth_getElem_second]
  have hf : a.flt = 0 := ha ▸ h
  rw [← ha] at hdiv
  refine ⟨a, _, _, hdiv, exec_mul_running hf 4 2 1, exec_add_running (s := Spec.wrote a 4 _) hf 4 4 3,
    (exec_eq_running (s := Spec.wrote (Spec.wrote a 4 _) 4 _) hf 4 0).trans ?_, a3.symm ▸ hr⟩
  have h43 : (3 : Reg) ≠ 4 := by decide
  have h40 : (0 : Reg) ≠ 4 := by decide
  rw [wrote_getElem_same, wrote_getElem_same, wrote_getElem_other _ _ h43, wrote_getElem_other _ _ h40,
    wrote_getElem_other _ _ h40, a0, a1, a2, a3, if_pos hqr]

theorem udiv_mul_add_umod (a b : Value) : a / b * b + a % b = a := by
  apply BitVec.eq_of_toNat_eq
  rw [BitVec.toNat_add, BitVec.toNat_mul, BitVec.toNat_udiv, BitVec.toNat_umod, Nat.mod_add_mod, Nat.div_add_mod',
    Nat.mod_eq_of_lt a.isLt]

/-- A value is its signed reading modulo 2^128, so the identity of the readings is one of the values. -/
theorem mul_add_eq_of_toInt {a b q r : Value} (h : q.toInt * b.toInt + r.toInt = a.toInt) : q * b + r = a := by
  rw [← BitVec.ofInt_toInt (x := a), ← h, BitVec.ofInt_add, BitVec.ofInt_mul, BitVec.ofInt_toInt, BitVec.ofInt_toInt,
    BitVec.ofInt_toInt]

theorem abs_tmod_lt (a : Int) {b : Int} (hb : b ≠ 0) : |a.tmod b| < |b| := by
  rw [Int.abs_eq_natAbs, Int.abs_eq_natAbs, Int.natAbs_tmod]
  exact_mod_cast Nat.mod_lt _ (Int.natAbs_pos.mpr hb)

/-- The remainder of a truncated division has the dividend's sign, or is zero. -/
theorem tmod_mul_nonneg (a b : Int) : 0 ≤ a.tmod b * a := by
  rcases le_total 0 a with ha | ha
  · exact mul_nonneg (Int.tmod_nonneg b ha) ha
  · have hneg := Int.tmod_nonneg b (neg_nonneg.mpr ha)
    rw [Int.neg_tmod] at hneg
    exact mul_nonneg_of_nonpos_of_nonpos (neg_nonneg.mp hneg) ha

/-- Settles O42: the four commands run from the pair either division writes, whose quotient and remainder satisfy the identity. -/
theorem divisionIdentity : Obligations.DivisionIdentity := by
  intro s h hb
  have hne : (2 : Reg) ≠ 3 := by decide
  refine ⟨?unsigned, fun hfit => ?signed⟩
  case unsigned =>
    have hr : (s.v[0] % s.v[1]).toNat < s.v[1].toNat := by
      rw [BitVec.toNat_umod]
      exact Nat.mod_lt _ (Nat.pos_of_ne_zero (BitVec.toNat_ne.mp hb))
    exact exec_identity_program (P := fun r => r.toNat < s.v[1].toNat) h
      (exec_divmodu_running (ra := 0) (rb := 1) h hb hne) (udiv_mul_add_umod s.v[0] s.v[1]) hr
  case signed =>
    have ho : signedOverflowPair s.v[0] s.v[1] = false := Bool.eq_false_iff.mpr (mt (signedOverflowPair_iff ..).mp hfit)
    obtain ⟨hq, hr⟩ := sdivmod128_toInt s.v[0] s.v[1] hb ho
    have hqr : (sdivmod128 s.v[0] s.v[1] hb ho).1 * s.v[1] + (sdivmod128 s.v[0] s.v[1] hb ho).2 = s.v[0] :=
      mul_add_eq_of_toInt (by rw [hq, hr, Int.tdiv_mul_add_tmod])
    have hrem : |(sdivmod128 s.v[0] s.v[1] hb ho).2.toInt| < |s.v[1].toInt| ∧
        0 ≤ (sdivmod128 s.v[0] s.v[1] hb ho).2.toInt * s.v[0].toInt := by
      rw [hr]
      exact ⟨abs_tmod_lt _ (BitVec.toInt_ne.mpr hb), tmod_mul_nonneg _ _⟩
    exact exec_identity_program (P := fun r => |r.toInt| < |s.v[1].toInt| ∧ 0 ≤ r.toInt * s.v[0].toInt) h
      (exec_divmods_running (ra := 0) (rb := 1) h hb ho hne) hqr hrem

end Sys2Proof.Proofs

/-! ## Proofs: texts as numerals, and their lengths (spec/46_format.md R230, R231) -/

namespace Sys2Proof.Proofs

open Sys2Proof.Machine Sys2Proof.Laws

/-! ### Reading a numeral back (R231) -/

theorem digitValue_digitByte : ∀ (uc : Bool) (d : Fin 16), Spec.digitValue (Spec.digitByte uc d) = d := by decide

/-- A digit of a base of AU128 reads back as itself. -/
theorem digitValue_digitByte_of_lt (uc : Bool) {base : Base} {d : Nat} (hd : d < Spec.baseRadix base) :
    Spec.digitValue (Spec.digitByte uc d) = d :=
  digitValue_digitByte uc ⟨d, hd.trans_le (by cases base <;> decide)⟩

theorem baseRadix_gt_one (base : Base) : 1 < Spec.baseRadix base := by cases base <;> decide

/-- Reading from the most significant digit on is evaluating the digits at the radix. -/
theorem foldl_reverse_eq_ofDigits (r : Nat) (l : List Nat) : l.reverse.foldl (fun n d => n * r + d) 0 = Nat.ofDigits r l := by
  rw [List.foldl_reverse, Nat.ofDigits_eq_foldr]
  simp only [Nat.mul_comm, Nat.add_comm, Nat.cast_id]

theorem foldl_numeral (r n : Nat) : (Spec.numeral r n).foldl (fun n d => n * r + d) 0 = n := by
  rw [Spec.numeral]
  split
  case isTrue h0 => simp [h0]
  case isFalse => rw [foldl_reverse_eq_ofDigits, Nat.ofDigits_digits]

theorem lt_of_mem_numeral {base : Base} {n d : Nat} (hd : d ∈ Spec.numeral (Spec.baseRadix base) n) : d < Spec.baseRadix base :=
  numeralOf_lt (baseRadix_gt_one base) hd

theorem readNumeral_map_digitByte (base : Base) (uc : Bool) (n : Nat) :
    Spec.readNumeral (Spec.baseRadix base) ((Spec.numeral (Spec.baseRadix base) n).map (Spec.digitByte uc)) = n := by
  rw [Spec.readNumeral, List.foldl_map]
  refine Eq.trans (List.foldl_ext _ _ _ fun m d hd => ?_) (foldl_numeral (Spec.baseRadix base) n)
  rw [digitValue_digitByte_of_lt uc (lt_of_mem_numeral hd)]

/-- The text of an unsigned value, its radix unmarked, is its digits. -/
theorem text_unsigned (base : Base) (uc sp : Bool) (v : Value) :
    Spec.text base false uc false sp v = (Spec.numeral (Spec.baseRadix base) v.toNat).map (Spec.digitByte uc) := by
  simp [Spec.text, Spec.printed]

/-- The text is the first `TLEN` bytes of the buffer it was written to (R227). -/
theorem take_fillText {text : List Byte} (h : text.length ≤ 48) : (fillText text).toList.take text.length = text := by
  have htake : (fillText text).toList = (text ++ List.replicate 48 0).take 48 := rfl
  rw [htake, List.take_take, min_eq_left h, List.take_left]

theorem tlen_of_length {text : List Byte} (h : text.length ≤ 48) : (BitVec.ofNat 8 text.length).toNat = text.length :=
  Nat.mod_eq_of_lt (by omega)

/-- `FMT` in the running unit: a state with the text in the buffer. -/
theorem exec_fmt_text {s : State} (h : s.flt = 0) (ra : Reg) (base : Base) (sg uc sb sp : Bool) :
    ∃ t, exec (.fmt ra base sg uc sb sp) s = .next t ∧ t.tlen.toNat = (Spec.text base sg uc sb sp s.v[ra]).length ∧
      t.t.toList.take t.tlen.toNat = Spec.text base sg uc sb sp s.v[ra] := by
  have hlen : (Spec.text base sg uc sb sp s.v[ra]).length ≤ 48 := (text_length_le ..).trans (by decide)
  refine ⟨_, exec_fmt_running h ra base sg uc sb sp, tlen_of_length hlen, ?_⟩
  exact (congrArg (List.take · _) (tlen_of_length hlen)).trans (take_fillText hlen)

/-- Settles O44: the buffer holds the digits of the value, and they read back as it. -/
theorem textRoundTrip : Obligations.TextRoundTrip := by
  intro ra base uc sp s h
  obtain ⟨t, ht, -, htext⟩ := exec_fmt_text h ra base false uc false sp
  refine ⟨t, ht, ?_⟩
  rw [htext, text_unsigned, readNumeral_map_digitByte]

/-! ### The lengths (R230) -/

/-- A number in `[r^k, r^(k+1))` has `k + 1` digits. -/
theorem numeral_length {r k n : Nat} (hr : 1 < r) (hlow : r ^ k ≤ n) (hhigh : n < r ^ (k + 1)) :
    (Spec.numeral r n).length = k + 1 := by
  have h0 : n ≠ 0 := by
    have : 0 < r ^ k := by positivity
    omega
  rw [Spec.numeral, if_neg h0, List.length_reverse]
  exact le_antisymm ((Nat.digits_length_le_iff hr n).mpr hhigh) ((Nat.lt_digits_length_iff hr n).mpr hlow)

/-- `TLEN` after `FMT` of a value whose text has length `k`. -/
theorem exec_fmt_tlen {s : State} (h : s.flt = 0) {ra : Reg} {base : Base} {sg uc sb sp : Bool} {k : Nat}
    (hk : (Spec.text base sg uc sb sp s.v[ra]).length = k) :
    ∃ t, exec (.fmt ra base sg uc sb sp) s = .next t ∧ t.tlen = BitVec.ofNat 8 k := by
  obtain ⟨t, ht, hlen, -⟩ := exec_fmt_text h ra base sg uc sb sp
  exact ⟨t, ht, by rw [← hk, ← hlen, BitVec.ofNat_toNat, BitVec.setWidth_eq]⟩

/-- The sign and 39 digits. -/
theorem length_text_signedMin : (Spec.text .dec true false false false (BitVec.ofInt 128 (-2 ^ 127))).length = 40 := by
  have hmin : (BitVec.ofInt 128 (-2 ^ 127)).toInt = -2 ^ 127 := by decide
  have hdigits : (Spec.numeral 10 (2 ^ 127)).length = 39 := numeral_length (by decide) (by decide) (by decide)
  simpa [Spec.text, Spec.printed, Spec.baseRadix, Spec.ascii, hmin] using hdigits

/-- The mark `0` and 43 digits. -/
theorem length_text_oct : (Spec.text .oct false false true false (BitVec.ofNat 128 (2 ^ 126))).length = 44 := by
  have hdigits : (Spec.numeral 8 (2 ^ 126)).length = 43 := numeral_length (by decide) (by decide) (by decide)
  simpa [Spec.text, Spec.printed, Spec.baseRadix, Spec.ascii] using hdigits

/-- The mark `0x` and 32 digits. -/
theorem length_text_hex : (Spec.text .hex false false true false (BitVec.ofNat 128 (2 ^ 128 - 1))).length = 34 := by
  have hdigits : (Spec.numeral 16 (2 ^ 128 - 1)).length = 32 := numeral_length (by decide) (by decide) (by decide)
  simpa [Spec.text, Spec.printed, Spec.baseRadix, Spec.ascii] using hdigits

/-- Settles O45: the bounds are those of the formatter's text, and the three values reach them. -/
theorem textLength : Obligations.TextLength := by
  refine ⟨fun ra base sg uc sb sp s h => ?bounds, fun ra s h => ⟨fun hv => ?dec, fun hv => ?oct, fun hv => ?hex⟩⟩
  case bounds =>
    obtain ⟨t, ht, hlen, -⟩ := exec_fmt_text h ra base sg uc sb sp
    refine ⟨t, ht, ?_⟩
    rw [hlen, ← formatText_eq]
    exact formatText_length base sg uc sb sp s.v[ra]
  case dec => exact exec_fmt_tlen h (hv ▸ length_text_signedMin)
  case oct => exact exec_fmt_tlen h (hv ▸ length_text_oct)
  case hex => exact exec_fmt_tlen h (hv ▸ length_text_hex)

end Sys2Proof.Proofs

/-! ## Proofs: floats from values (spec/47_float.md R263 to R265) -/

namespace Sys2Proof.Proofs

open Sys2Proof.Machine Sys2Proof.Laws

/-! ### The words -/

theorem decodes_tofu (ra : Reg) (fp : FpFormat) :
    Spec.Decodes (Spec.word 0x42 0 ra 0 0 (Spec.fpCode fp)) (.tofu ra fp) := by
  intro x y
  cases fp <;> exact (decode_word_reg 0x42 0 ra 0 0 (by decide) x y).trans (decodeFields_tofu ..)

theorem decodes_tofs (ra : Reg) (fp : FpFormat) :
    Spec.Decodes (Spec.word 0x43 0 ra 0 0 (Spec.fpCode fp)) (.tofs ra fp) := by
  intro x y
  cases fp <;> exact (decode_word_reg 0x43 0 ra 0 0 (by decide) x y).trans (decodeFields_tofs ..)

/-! ### The conversions -/

/-- The rounded number moved up 64 places: an infinity from the end of the format on (R265). -/
theorem scalbFp_fin (fp : FpFormat) (m : ℕ) (e k : ℤ) : scalbFp fp (.fin false m e) k =
    if (2 : ℚ) ^ (bias fp + 1) ≤ m * 2 ^ (e + k) then .inf false else .fin false m (e + k) := by
  simp only [scalbFp, pastLargest_iff]

/-- The conversion is the composition of R263: both halves rounded, the high one scaled, the sum rounded. -/
theorem composed_toFloatUnsigned (fp : FpFormat) (v : Value) : Spec.Composed fp v.toNat (toFloatUnsigned fp v) := by
  obtain ⟨ml, ql, hl, hql, vl, rl⟩ := cvtFp_cases fp (lo v)
  obtain ⟨mh, qh, hh, hqh, vh, rh⟩ := cvtFp_cases fp (hi v)
  rw [toNat_lo] at rl
  rw [toNat_hi] at rh
  refine ⟨_, _, rl, rh, ?_⟩
  have hscaled : (mh : ℚ) * 2 ^ qh * 2 ^ 64 = mh * 2 ^ (qh + 64) := by
    rw [zpow_split, mul_assoc]
    rfl
  have hz : toFloatUnsigned fp v =
      packFp fp (faddFp fp .tiesToEven (.fin false ml ql) (scalbFp fp (.fin false mh qh) 64)) := by rw [← hl, ← hh]; rfl
  rw [hz, scalbFp_fin, vl, vh, hscaled, expBias_eq]
  split
  case isTrue => exact packFp_inf fp
  case isFalse => exact packFp_faddFp fp ml mh hql (by omega)

section
variable {s : State} (h : s.flt = 0) (ra : Reg) (fp : FpFormat)
include h

theorem exec_tofu_running : exec (.tofu ra fp) s = .next (Spec.executed s (toFloatUnsigned fp s.v[ra])) :=
  (exec_tofu ra fp s).trans (done_running h _)

theorem exec_tofs_running : exec (.tofs ra fp) s = .next (Spec.executed s (toFloatSigned fp s.v[ra])) :=
  (exec_tofs ra fp s).trans (done_running h _)

end

theorem signBit_eq (fp : FpFormat) : 1#64 <<< signPlace fp = Spec.signBit fp := by cases fp <;> decide

/-- R264: the magnitude by TOFU, then the sign bit. -/
theorem toFloatSigned_eq (fp : FpFormat) (v : Value) : toFloatSigned fp v =
    if v.toInt < 0 then toFloatUnsigned fp (abs128 v) ||| Spec.signBit fp else toFloatUnsigned fp (abs128 v) := by
  simp only [toFloatSigned, abs128, signBit_eq, msb_iff]
  split <;> rfl

/-- Settles O50: the word by its row of the decoder; the model's conversion is R263's composition. -/
theorem toFloatUnsigned : Obligations.ToFloatUnsigned := fun ra fp =>
  ⟨decodes_tofu ra fp, fun s h => ⟨_, composed_toFloatUnsigned fp s.v[ra], exec_tofu_running h ra fp⟩⟩

/-- Settles O51: the magnitude is the absolute value of the signed reading. -/
theorem toFloatSigned : Obligations.ToFloatSigned := by
  intro ra fp
  refine ⟨decodes_tofs ra fp, fun s h => ⟨Machine.toFloatUnsigned fp (abs128 s.v[ra]), ?composed, ?runs⟩⟩
  case composed =>
    rw [← abs128_toNat]
    exact composed_toFloatUnsigned fp (abs128 s.v[ra])
  case runs => rw [exec_tofs_running h, toFloatSigned_eq]

/-! ### Patterns and their numbers in order -/

section
variable {fp : FpFormat} {x y : Limb} (hx : Spec.Magnitude fp x) (hy : Spec.Magnitude fp y)
include hx hy

theorem toNat_le_of_val_le (h : Spec.val fp x ≤ Spec.val fp y) : x.toNat ≤ y.toNat :=
  not_lt.mp fun hlt => (val_lt_of_lt hy hx hlt).not_ge h

theorem val_le_of_toNat_le (h : x.toNat ≤ y.toNat) : Spec.val fp x ≤ Spec.val fp y := by
  rcases h.lt_or_eq with hlt | heq
  · exact (val_lt_of_lt hx hy hlt).le
  · rw [BitVec.eq_of_toNat_eq heq]

theorem eq_of_val_eq (h : Spec.val fp x = Spec.val fp y) : x = y :=
  not_not.mp fun hne => val_ne_of_ne hx hy hne h

end

theorem isFinite_of_magnitude {fp : FpFormat} {x : Limb} (h : Spec.Magnitude fp x) : Spec.IsFinite fp x := by
  have hlt : x.toNat / 2 ^ Spec.fracWidth fp < Spec.expMax fp :=
    Nat.div_lt_of_lt_mul (by rwa [Nat.mul_comm])
  exact ((Nat.mod_le _ _).trans_lt hlt).ne

theorem not_magnitude_infinity (fp : FpFormat) : ¬ Spec.Magnitude fp (Spec.infinity fp) := by
  unfold Spec.Magnitude
  cases fp <;> decide

/-! ### What rounding below the overflow threshold gives -/

section
variable {fp : FpFormat} {q : ℚ} {z : Limb} (hr : Spec.Rounds fp q z) (hq : q < Spec.overflowAt fp)
include hr hq

theorem rounds_nearest : Spec.Magnitude fp z ∧ ∀ y, Spec.Magnitude fp y → y ≠ z →
    |Spec.val fp z - q| < |Spec.val fp y - q| ∨ (|Spec.val fp z - q| = |Spec.val fp y - q| ∧ z.toNat % 2 = 0) := by
  rwa [Spec.Rounds, if_neg (not_le.mpr hq)] at hr

theorem rounds_magnitude : Spec.Magnitude fp z := (rounds_nearest hr hq).1

theorem rounds_abs_le {y : Limb} (hy : Spec.Magnitude fp y) : |Spec.val fp z - q| ≤ |Spec.val fp y - q| := by
  by_cases hyz : y = z
  · rw [hyz]
  · rcases (rounds_nearest hr hq).2 y hy hyz with hlt | ⟨heq, -⟩
    · exact hlt.le
    · exact heq.le

/-- A number the format holds is not changed. -/
theorem rounds_val_eq {y : Limb} (hy : Spec.Magnitude fp y) (hval : Spec.val fp y = q) : Spec.val fp z = q := by
  have h := rounds_abs_le hr hq hy
  rw [hval, sub_self, abs_zero] at h
  exact sub_eq_zero.mp (abs_nonpos_iff.mp h)

/-- Rounding does not pass a number the format holds. -/
theorem rounds_val_le {y : Limb} (hy : Spec.Magnitude fp y) (hval : q ≤ Spec.val fp y) : Spec.val fp z ≤ Spec.val fp y := by
  have h := rounds_abs_le hr hq hy
  rw [abs_of_nonneg (sub_nonneg.mpr hval)] at h
  linarith [le_abs_self (Spec.val fp z - q)]

end

/-! ### Numbers with few significant bits -/

/-- `n` has at most `p` significant bits: it is a number below `2^p` with zeros after it. -/
def Fits (fp : FpFormat) (n : ℕ) : Prop := ∃ m k, n = m * 2 ^ k ∧ m < 2 ^ (fracBits fp + 1)

theorem two_pow_128_le (fp : FpFormat) : (2 : ℚ) ^ 128 ≤ 2 ^ (bias fp + 1) :=
  pow_le_pow_right₀ (by norm_num) (by cases fp <;> decide)

/-- The format holds every such number below 2^128. -/
theorem Fits.exists_magnitude {fp : FpFormat} {n : ℕ} (hn : Fits fp n) (hlt : n < 2 ^ 128) :
    ∃ y, Spec.Magnitude fp y ∧ Spec.val fp y = n := by
  obtain ⟨m, k, rfl, hm⟩ := hn
  have htop : m ≠ 0 → (k : ℤ) + Nat.log2 m ≤ bias fp := by
    intro h0
    have hpow : 2 ^ (Nat.log2 m + k) < 2 ^ 128 := by
      rw [pow_add]
      exact (Nat.mul_le_mul_right _ (log2_bounds h0).1).trans_lt hlt
    have h128 := (Nat.pow_lt_pow_iff_right (by decide)).mp hpow
    have hbias : 127 ≤ bias fp := by cases fp <;> decide
    omega
  obtain ⟨hy, hval, -⟩ := packFp_val fp (e := k) (Int.natCast_nonneg k) hm.le htop
  exact ⟨_, hy, by rw [hval]; push_cast; rw [zpow_natCast]⟩

theorem fits_zero (fp : FpFormat) : Fits fp 0 := ⟨0, 0, by simp, by positivity⟩

theorem fits_two_pow (fp : FpFormat) (k : ℕ) : Fits fp (2 ^ k) :=
  ⟨1, k, by simp, Nat.one_lt_two_pow (by omega)⟩

/-- Dropping low bits leaves no more significant bits. -/
theorem Fits.div {fp : FpFormat} {n : ℕ} (hn : Fits fp n) (j : ℕ) : Fits fp (n / 2 ^ j) := by
  obtain ⟨m, k, rfl, hm⟩ := hn
  rcases le_total j k with hjk | hkj
  · refine ⟨m, k - j, ?_, hm⟩
    rw [← Nat.sub_add_cancel hjk, pow_add, ← mul_assoc, Nat.mul_div_cancel _ (by positivity), Nat.sub_add_cancel hjk]
  · refine ⟨m / 2 ^ (j - k), 0, ?_, (Nat.div_le_self _ _).trans_lt hm⟩
    rw [pow_zero, mul_one, ← Nat.sub_add_cancel hkj, pow_add, Nat.mul_div_mul_right _ _ (by positivity), Nat.sub_add_cancel hkj]

/-- Nor do the bits dropped have more. -/
theorem Fits.mod {fp : FpFormat} {n : ℕ} (hn : Fits fp n) (j : ℕ) : Fits fp (n % 2 ^ j) := by
  obtain ⟨m, k, rfl, hm⟩ := hn
  rcases le_total j k with hjk | hkj
  · have h0 : m * 2 ^ k % 2 ^ j = 0 := Nat.mod_eq_zero_of_dvd ((Nat.pow_dvd_pow 2 hjk).mul_left m)
    exact h0 ▸ fits_zero fp
  · refine ⟨m % 2 ^ (j - k), k, ?_, (Nat.mod_le _ _).trans_lt hm⟩
    rw [← Nat.sub_add_cancel hkj, pow_add, Nat.mul_mod_mul_right, Nat.sub_add_cancel hkj]

/-! ### Exactness and overflow of the composition (R263) -/

/-- A significand of `p` bits at the largest exponent or below is below the threshold. -/
theorem scaled_lt_overflowAt (fp : FpFormat) {m : ℕ} {e : ℤ} (hm : m < 2 ^ (fracBits fp + 1)) (he : e ≤ bias fp - fracBits fp) :
    (m : ℚ) * 2 ^ e < Spec.overflowAt fp := by
  have hm' : (m : ℚ) + 1 ≤ 2 ^ (fracBits fp + 1) := by exact_mod_cast hm
  rw [overflowAt_eq_mul]
  calc (m : ℚ) * 2 ^ e ≤ m * 2 ^ ((bias fp : ℤ) - fracBits fp) := mul_le_mul_of_nonneg_left (zpow_mono he) m.cast_nonneg
    _ < _ := mul_lt_mul_of_pos_right (by linarith) (by positivity)

theorem val_lt_overflowAt {fp : FpFormat} {y : Limb} (hy : Spec.Magnitude fp y) : Spec.val fp y < Spec.overflowAt fp := by
  obtain ⟨e, f, hnat, hf, he⟩ := magnitude_fields hy
  have hmax : 1 ≤ bias fp ∧ expOnes fp = 2 * bias fp + 1 := by cases fp <;> decide
  rw [(val_of_toNat hnat hf he).2]
  split
  · exact scaled_lt_overflowAt fp (by rw [pow_succ]; omega) (by omega)
  · exact scaled_lt_overflowAt fp (by rw [pow_succ]; omega) (by omega)

theorem rounds_val_eq_of_fits {fp : FpFormat} {n : ℕ} {z : Limb} (hn : Fits fp n) (hlt : n < 2 ^ 128)
    (hr : Spec.Rounds fp n z) : Spec.Magnitude fp z ∧ Spec.val fp z = n := by
  obtain ⟨y, hy, hval⟩ := hn.exists_magnitude hlt
  have hq : (n : ℚ) < Spec.overflowAt fp := hval ▸ val_lt_overflowAt hy
  exact ⟨rounds_magnitude hr hq, rounds_val_eq hr hq hy hval⟩

/-- A number with few significant bits is composed to itself: its halves are exact, and so is their sum. -/
theorem composed_val_eq_of_fits {fp : FpFormat} {n : ℕ} {z : Limb} (hn : Fits fp n) (hlt : n < 2 ^ 128)
    (hz : Spec.Composed fp n z) : Spec.Magnitude fp z ∧ Spec.val fp z = n := by
  obtain ⟨l, h, hl, hh, hz⟩ := hz
  obtain ⟨-, vl⟩ := rounds_val_eq_of_fits (hn.mod 64) (by omega) hl
  obtain ⟨-, vh⟩ := rounds_val_eq_of_fits (hn.div 64) (by omega) hh
  have hsum : ((n % 2 ^ 64 : ℕ) : ℚ) + (n / 2 ^ 64 : ℕ) * 2 ^ 64 = n := by
    exact_mod_cast Nat.mod_add_div' n (2 ^ 64)
  have hfit : ¬ (2 : ℚ) ^ (Spec.expBias fp + 1) ≤ (n / 2 ^ 64 : ℕ) * 2 ^ 64 := by
    have hle : ((n / 2 ^ 64 : ℕ) * 2 ^ 64 : ℚ) ≤ n := by exact_mod_cast Nat.div_mul_le_self n (2 ^ 64)
    have hn' : (n : ℚ) < 2 ^ 128 := by exact_mod_cast hlt
    rw [expBias_eq]
    linarith [two_pow_128_le fp]
  rw [vl, vh, if_neg hfit, hsum] at hz
  exact rounds_val_eq_of_fits hn hlt hz

/-- A half rounds to at most 2^64. -/
theorem rounds_half_le {fp : FpFormat} {n : ℕ} {z : Limb} (hlt : n < 2 ^ 64) (hr : Spec.Rounds fp n z) :
    Spec.val fp z ≤ 2 ^ 64 := by
  obtain ⟨y, hy, hval⟩ := (fits_two_pow fp 64).exists_magnitude (by norm_num)
  rw [Nat.cast_pow, Nat.cast_ofNat] at hval
  have hn : (n : ℚ) < 2 ^ 64 := by exact_mod_cast hlt
  rw [← hval]
  exact rounds_val_le hr (by linarith [val_lt_overflowAt hy]) hy (by linarith)

/-- Below the threshold the composition is no infinity. -/
theorem composed_ne_infinity {fp : FpFormat} {n : ℕ} {z : Limb} (hz : Spec.Composed fp n z)
    (hfit : ∀ l h, Spec.Rounds fp (n % 2 ^ 64 : ℕ) l → Spec.Rounds fp (n / 2 ^ 64 : ℕ) h →
      Spec.val fp h * 2 ^ 64 < 2 ^ (Spec.expBias fp + 1) ∧ Spec.val fp l + Spec.val fp h * 2 ^ 64 < Spec.overflowAt fp) :
    z ≠ Spec.infinity fp := by
  obtain ⟨l, h, hl, hh, hz⟩ := hz
  obtain ⟨hscaled, hsum⟩ := hfit l h hl hh
  rw [if_neg (not_le.mpr hscaled)] at hz
  rintro rfl
  exact not_magnitude_infinity fp (rounds_magnitude hz hsum)

/-! In binary64 the composition stays far below the threshold. -/

theorem overflowAt_binary64 : (2 : ℚ) ^ 129 < Spec.overflowAt .binary64 := by
  have h := scaled_lt_overflowAt .binary64 (m := 1) (e := 129) (by decide) (by decide)
  rw [Nat.cast_one, one_mul] at h
  exact_mod_cast h

theorem composed_binary64_ne_infinity {n : ℕ} {z : Limb} (hlt : n < 2 ^ 128) (hz : Spec.Composed .binary64 n z) :
    z ≠ Spec.infinity .binary64 := by
  refine composed_ne_infinity hz fun l h hl hh => ?_
  have hvl := rounds_half_le (by omega) hl
  have hvh := rounds_half_le (by omega) hh
  have hend : (2 : ℚ) ^ 129 ≤ 2 ^ (Spec.expBias .binary64 + 1) := pow_le_pow_right₀ (by norm_num) (by decide)
  have hover := overflowAt_binary64
  exact ⟨by linarith, by linarith⟩

/-! In binary32 the numbers next to each other at 2^64 are 2^64 - 2^40 and 2^64, and the high half rounds to the upper one from the
middle on, `0xFFFFFF8000000000`: the lower pattern is odd. -/

theorem val_two_pow_64 : Spec.Magnitude .binary32 0x5F800000 ∧ Spec.val .binary32 0x5F800000 = 2 ^ 64 := by
  obtain ⟨hmag, hval⟩ := val_of_toNat (fp := .binary32) (x := 0x5F800000) (e := 191) (f := 0) rfl (by decide) (by decide)
  exact ⟨hmag, hval.trans (by norm_num [fracBits, bias])⟩

theorem val_below_two_pow_64 : Spec.Magnitude .binary32 0x5F7FFFFF ∧ Spec.val .binary32 0x5F7FFFFF = 2 ^ 64 - 2 ^ 40 := by
  obtain ⟨hmag, hval⟩ := val_of_toNat (fp := .binary32) (x := 0x5F7FFFFF) (e := 190) (f := 0x7FFFFF) rfl (by decide) (by decide)
  exact ⟨hmag, hval.trans (by norm_num [fracBits, bias])⟩

/-- The middle between them. -/
theorem cast_middle : ((0xFFFFFF8000000000 : ℕ) : ℚ) = 2 ^ 64 - 2 ^ 39 := by norm_num

theorem half_lt_overflowAt {n : ℕ} (hlt : n < 2 ^ 64) : (n : ℚ) < Spec.overflowAt .binary32 := by
  have hn : (n : ℚ) < 2 ^ 64 := by exact_mod_cast hlt
  have h := val_lt_overflowAt val_two_pow_64.1
  rw [val_two_pow_64.2] at h
  linarith

section
variable {n : ℕ} {z : Limb} (hlt : n < 2 ^ 64) (hr : Spec.Rounds .binary32 n z)
include hlt hr

/-- Every pattern is at or below the lower of the two, or at or above the upper. -/
theorem rounds_half_cases : Spec.val .binary32 z ≤ 2 ^ 64 - 2 ^ 40 ∨ 2 ^ 64 ≤ Spec.val .binary32 z := by
  obtain ⟨hup, vup⟩ := val_two_pow_64
  obtain ⟨hlow, vlow⟩ := val_below_two_pow_64
  have hz := rounds_magnitude hr (half_lt_overflowAt hlt)
  rcases Nat.lt_or_ge z.toNat 0x5F800000 with h | h
  · exact .inl (vlow ▸ val_le_of_toNat_le hz hlow (Nat.le_of_lt_succ h))
  · exact .inr (vup ▸ val_le_of_toNat_le hup hz h)

theorem rounds_half_up (hn : 0xFFFFFF8000000000 ≤ n) : 2 ^ 64 ≤ Spec.val .binary32 z := by
  obtain ⟨hup, vup⟩ := val_two_pow_64
  obtain ⟨hlow, vlow⟩ := val_below_two_pow_64
  have hq := half_lt_overflowAt hlt
  have hn0 : (2 : ℚ) ^ 64 - 2 ^ 39 ≤ n := by
    rw [← cast_middle]
    exact_mod_cast hn
  have hn1 : (n : ℚ) < 2 ^ 64 := by exact_mod_cast hlt
  refine (rounds_half_cases hlt hr).resolve_left fun hle => ?_
  have hdist := (rounds_nearest hr hq).2 _ hup (by rintro rfl; rw [vup] at hle; linarith)
  rw [vup, abs_of_nonpos (by linarith : Spec.val .binary32 z - n ≤ 0), abs_of_nonneg (by linarith : (0 : ℚ) ≤ 2 ^ 64 - n)] at hdist
  rcases hdist with hcloser | ⟨htie, heven⟩
  · linarith
  · have hz : z = 0x5F7FFFFF := eq_of_val_eq (rounds_magnitude hr hq) hlow (by rw [vlow]; linarith)
    rw [hz] at heven
    exact absurd heven (by decide)

theorem rounds_half_down (hn : n < 0xFFFFFF8000000000) : Spec.val .binary32 z ≤ 2 ^ 64 - 2 ^ 40 := by
  obtain ⟨hlow, vlow⟩ := val_below_two_pow_64
  have hn0 : (n : ℚ) < 2 ^ 64 - 2 ^ 39 := by
    rw [← cast_middle]
    exact_mod_cast hn
  refine (rounds_half_cases hlt hr).resolve_right fun hge => ?_
  have hdist := rounds_abs_le hr (half_lt_overflowAt hlt) hlow
  rw [vlow, abs_of_nonneg (by linarith : 0 ≤ Spec.val .binary32 z - n)] at hdist
  rcases abs_cases ((2 : ℚ) ^ 64 - 2 ^ 40 - n) with ⟨ha, -⟩ | ⟨ha, -⟩ <;> rw [ha] at hdist <;> linarith

end

theorem overflowAt_binary32 : Spec.overflowAt .binary32 = 2 ^ 128 - 2 ^ 103 := by
  norm_num [overflowAt_eq, bias, fracBits]

/-- R263's threshold. -/
theorem composed_binary32_eq_infinity_iff {n : ℕ} {z : Limb} (hlt : n < 2 ^ 128) (hz : Spec.Composed .binary32 n z) :
    z = Spec.infinity .binary32 ↔ 0xFFFFFF8000000000 ≤ n / 2 ^ 64 := by
  constructor
  · intro hinf
    by_contra hn
    refine composed_ne_infinity hz (fun l h hl hh => ?_) hinf
    have hvl := rounds_half_le (by omega) hl
    have hvh := rounds_half_down (by omega) hh (by omega)
    rw [overflowAt_binary32]
    exact ⟨by norm_num [Spec.expBias]; linarith, by linarith⟩
  · intro hn
    obtain ⟨l, h, -, hh, hz⟩ := hz
    have hvh := rounds_half_up (by omega) hh hn
    rwa [if_pos (by norm_num [Spec.expBias]; linarith)] at hz

/-- Settles O52: both sentences follow from the composition, the second by the format. -/
theorem toFloatExactAndOverflow : Obligations.ToFloatExactAndOverflow := by
  intro ra fp s h
  have hz := composed_toFloatUnsigned fp s.v[ra]
  refine ⟨_, exec_tofu_running h ra fp, fun m k hn hm => ?exact, ?overflow⟩
  case exact =>
    rw [fracWidth_eq] at hm
    obtain ⟨hmag, hval⟩ := composed_val_eq_of_fits ⟨m, k, hn, hm⟩ s.v[ra].isLt hz
    exact ⟨isFinite_of_magnitude hmag, hval⟩
  case overflow =>
    cases fp with
    | binary32 => simpa using composed_binary32_eq_infinity_iff s.v[ra].isLt hz
    | binary64 => simpa using composed_binary64_ne_infinity s.v[ra].isLt hz

end Sys2Proof.Proofs

/-! ## Proofs: the split of FROMFU and FROMFS (spec/47_float.md R261, R266) -/

namespace Sys2Proof.Proofs

open Sys2Proof.Machine Sys2Proof.Laws

/-! ### The number of a pattern that unpacks -/

theorem isFinite_of_unpackFp {fp : FpFormat} {x : Limb} {neg : Bool} {m : ℕ} {e : ℤ}
    (h : unpackFp fp x = some (.fin neg m e)) : Spec.IsFinite fp x := by
  intro hexp
  by_cases hfrac : Spec.fracField fp x = 0
  · cases (unpackFp_inf ⟨hexp, hfrac⟩).symm.trans h
  · cases (unpackFp_nan ⟨hexp, hfrac⟩).symm.trans h

/-- A number that is not negative is its magnitude, zero under either sign. -/
theorem val_of_unpackFp {fp : FpFormat} {x : Limb} {neg : Bool} {m : ℕ} {e : ℤ} (h : unpackFp fp x = some (.fin neg m e))
    (h0 : 0 ≤ Spec.val fp x) : Spec.val fp x = m * 2 ^ e := by
  obtain ⟨m', e', ⟨hu, hv⟩ | ⟨hu, hv⟩⟩ := unpackFp_sign_cases (isFinite_of_unpackFp h)
  · cases hu.symm.trans h
    exact hv
  · cases hu.symm.trans h
    linarith [scaled_nonneg m e]

/-- A pattern's significand has at most `p` bits and its exponent is at or above that of the smallest numbers (R260). -/
theorem unpackFp_bounds {fp : FpFormat} {x : Limb} {neg : Bool} {m : ℕ} {e : ℤ} (h : unpackFp fp x = some (.fin neg m e)) :
    m < 2 ^ (fracBits fp + 1) ∧ 1 - (bias fp : ℤ) - fracBits fp ≤ e := by
  have hfrac : fraction fp x < 2 ^ fracBits fp := by
    rw [fraction_eq, Spec.fracField, fracWidth_eq]
    exact Nat.mod_lt _ (by positivity)
  rw [unpackFp] at h
  split at h
  · split at h <;> cases h
  · rw [pow_succ]
    split at h <;> cases h
    · exact ⟨by omega, le_refl _⟩
    · exact ⟨by omega, by omega⟩

/-! ### Rounding a number the format holds (R265) -/

theorem not_pastLargest {fp : FpFormat} {m : ℕ} {e : ℤ} (h : (m : ℚ) * 2 ^ e < 2 ^ 128) : pastLargest fp m e = false := by
  rw [← Bool.not_eq_true, pastLargest_iff, not_le]
  exact h.trans_le (two_pow_128_le fp)

theorem roundsUp_zero (a unit : ℕ) (hu : 0 < unit) : roundsUp .tiesToEven false a 0 unit = false := by
  simp [roundsUp, hu.ne]

theorem log2_le_of_lt {n k : ℕ} (h : n < 2 ^ (k + 1)) : Nat.log2 n ≤ k := by
  by_cases h0 : n = 0
  · simp [h0]
  · exact Nat.le_of_lt_succ ((Nat.log2_lt h0).mpr h)

theorem scaled_shift (r k : ℕ) (e : ℤ) : ((r * 2 ^ k : ℕ) : ℚ) * 2 ^ e = r * 2 ^ (e + k) := by
  rw [zpow_split, zpow_natCast]
  push_cast
  ring

/-- Of two ways to write a number, the one with the smaller exponent has the significand moved up. -/
theorem eq_shift_of_scaled_eq {n r : ℕ} {e e₁ : ℤ} (h : (n : ℚ) * 2 ^ e = r * 2 ^ e₁) (hle : e ≤ e₁) :
    n = r * 2 ^ (e₁ - e).toNat := by
  have hshift := scaled_shift r (e₁ - e).toNat e
  rw [show e + ((e₁ - e).toNat : ℤ) = e₁ by omega, ← h] at hshift
  exact_mod_cast (mul_right_cancel₀ (by positivity) hshift).symm

/-- `r` units of `2^e₁`, with `r` of at most `p` bits, lose nothing in rounding, however they are written: the unit in the last place
is `2^e₁` or divides it. -/
theorem roundFp_exact {fp : FpFormat} {n r : ℕ} {e e₁ : ℤ} (hr : r < 2 ^ (fracBits fp + 1))
    (he : 1 - (bias fp : ℤ) - fracBits fp ≤ e₁) (heq : (n : ℚ) * 2 ^ e = r * 2 ^ e₁) (hlt : (n : ℚ) * 2 ^ e < 2 ^ 128) :
    ∃ m q, roundFp fp .tiesToEven false n e = .fin false m q ∧ (m : ℚ) * 2 ^ q = n * 2 ^ e := by
  obtain ⟨q, hq⟩ : ∃ q, q = max (e + Nat.log2 n - fracBits fp) (1 - (bias fp : ℤ) - fracBits fp) := ⟨_, rfl⟩
  rw [roundFp, ← hq]
  by_cases hqe : q ≤ e
  · exact ⟨n, e, by simp only [if_pos hqe, not_pastLargest hlt, Bool.false_eq_true, if_false], rfl⟩
  have hle : e ≤ e₁ := by
    by_contra hgt
    have hnr : n ≤ r := by
      rw [eq_shift_of_scaled_eq heq.symm (by omega)]
      exact Nat.le_mul_of_pos_right n (by positivity)
    have hlog := log2_le_of_lt (hnr.trans_lt hr)
    omega
  obtain ⟨k, hk⟩ : ∃ k : ℕ, e₁ = e + k := ⟨(e₁ - e).toNat, by omega⟩
  have hn : n = r * 2 ^ k := by
    rw [eq_shift_of_scaled_eq heq hle, hk]
    simp
  have hlog : Nat.log2 n ≤ fracBits fp + k := by
    apply log2_le_of_lt
    rw [hn, Nat.add_right_comm, pow_add]
    exact Nat.mul_lt_mul_of_pos_right hr (by positivity)
  obtain ⟨j, hj⟩ : ∃ j : ℕ, q = e + j := ⟨(q - e).toNat, by omega⟩
  obtain ⟨i, rfl⟩ : ∃ i, k = i + j := ⟨k - j, by omega⟩
  have hdiv : n / 2 ^ j = r * 2 ^ i := by
    rw [hn, pow_add, ← mul_assoc, Nat.mul_div_cancel _ (by positivity)]
  have hmod : n % 2 ^ j = 0 := by rw [hn, pow_add, ← mul_assoc, Nat.mul_mod_left]
  have hval : ((r * 2 ^ i : ℕ) : ℚ) * 2 ^ q = n * 2 ^ e := by
    rw [scaled_shift, heq, hk, hj]
    congr 2
    push_cast
    ring
  refine ⟨r * 2 ^ i, q, ?_, hval⟩
  have hunit : (q - e).toNat = j := by omega
  simp only [if_neg hqe, hunit, hdiv, hmod, roundsUp_zero _ _ (Nat.two_pow_pos j), Bool.false_eq_true, if_false, Nat.add_zero,
    not_pastLargest (hval.trans_lt hlt)]

/-! ### The primitives on numbers the format holds -/

theorem trunc64_of_lt {m : ℕ} {e : ℤ} (h : scaleFloor m e < 2 ^ 64) :
    trunc64 (.fin false m e) = some (BitVec.ofNat 64 (scaleFloor m e)) := by
  simpa [trunc64] using h

theorem scalbFp_of_lt {fp : FpFormat} {m : ℕ} {e k : ℤ} (h : (m : ℚ) * 2 ^ (e + k) < 2 ^ 128) :
    scalbFp fp (.fin false m e) k = .fin false m (e + k) := by
  simp [scalbFp, not_pastLargest h]

theorem alignedInt_scaled (neg : Bool) (m : ℕ) {e e₀ : ℤ} (h : e₀ ≤ e) :
    (alignedInt neg m e e₀ : ℚ) * 2 ^ e₀ = (if neg then -1 else 1) * (m * 2 ^ e) := by
  have hshift : (m : ℚ) * 2 ^ e = m * 2 ^ (e - e₀).toNat * 2 ^ e₀ := by
    rw [← zpow_natCast, mul_assoc, ← zpow_split]
    congr 2
    omega
  rw [hshift, alignedInt]
  cases neg <;> simp

/-- A difference that is a number the format holds is exact. -/
theorem fsubFp_exact {fp : FpFormat} {m₁ m₂ r : ℕ} {e₁ e₂ e₃ : ℤ} (hr : r < 2 ^ (fracBits fp + 1))
    (he : 1 - (bias fp : ℤ) - fracBits fp ≤ e₃) (heq : (m₁ : ℚ) * 2 ^ e₁ - m₂ * 2 ^ e₂ = r * 2 ^ e₃)
    (hlt : (r : ℚ) * 2 ^ e₃ < 2 ^ 128) :
    ∃ m q, fsubFp fp .tiesToEven (.fin false m₁ e₁) (.fin false m₂ e₂) = .fin false m q ∧ (m : ℚ) * 2 ^ q = r * 2 ^ e₃ := by
  rw [fsubFp, negateNum, faddFp]
  obtain ⟨e₀, he₀⟩ : ∃ e₀, e₀ = min e₁ e₂ := ⟨_, rfl⟩
  obtain ⟨n, hn⟩ : ∃ n, n = alignedInt false m₁ e₁ e₀ + alignedInt true m₂ e₂ e₀ := ⟨_, rfl⟩
  have hval : (n : ℚ) * 2 ^ e₀ = r * 2 ^ e₃ := by
    rw [hn, Int.cast_add, add_mul, alignedInt_scaled false m₁ (by omega), alignedInt_scaled true m₂ (by omega), ← heq]
    simp [sub_eq_add_neg]
  have hpos : 0 ≤ n := by
    have h0 : (0 : ℚ) ≤ n := nonneg_of_mul_nonneg_left (hval ▸ scaled_nonneg r e₃) (by positivity)
    exact_mod_cast h0
  simp only [Bool.not_false, ← he₀, ← hn]
  by_cases h0 : n = 0
  · rw [if_pos h0]
    refine ⟨0, 0, rfl, ?_⟩
    rw [← hval, h0]
    simp
  · obtain ⟨a, rfl⟩ := Int.eq_ofNat_of_zero_le hpos
    rw [Int.cast_natCast] at hval
    obtain ⟨m, q, hround, hmq⟩ := roundFp_exact hr he hval (hval.trans_lt hlt)
    rw [if_neg h0, decide_eq_false (by omega), Int.natAbs_natCast]
    exact ⟨m, q, hround, hmq.trans hval⟩

/-- A word with few significant bits is exact as a float. -/
theorem cvtFp_exact {fp : FpFormat} {h : Limb} {r k : ℕ} (hr : r < 2 ^ (fracBits fp + 1)) (hh : h.toNat = r * 2 ^ k) :
    ∃ m q, cvtFp fp .tiesToEven h = .fin false m q ∧ (m : ℚ) * 2 ^ q = h.toNat := by
  have hone : (h.toNat : ℚ) * 2 ^ (0 : ℤ) = h.toNat := by simp
  have hbias : 0 < bias fp := by cases fp <;> simp [bias]
  rw [cvtFp, ← hone]
  refine roundFp_exact (e₁ := k) hr (by omega) ?_ ?_
  · rw [hone, hh, zpow_natCast]
    push_cast
    rfl
  · have hlt : h.toNat < 2 ^ 128 := h.isLt.trans (by norm_num)
    rw [hone]
    exact_mod_cast hlt

/-! ### The high part and the low remainder (R261) -/

theorem scaleFloor_lt_iff (n m : ℕ) (e : ℤ) : scaleFloor m e < n ↔ (m : ℚ) * 2 ^ e < n := by
  rw [← not_le, le_scaleFloor_iff, not_le]

theorem scaled_sub_64 (m : ℕ) (e : ℤ) : (m : ℚ) * 2 ^ (e - 64) * 2 ^ 64 = m * 2 ^ e := by
  rw [mul_assoc]
  congr 1
  rw [← zpow_natCast, ← zpow_split]
  congr 1
  omega

/-- Exponent shifting and truncation give the high half of the truncation. -/
theorem scaleFloor_sub_64 (m : ℕ) (e : ℤ) : scaleFloor m (e - 64) = scaleFloor m e / 2 ^ 64 := by
  refine eq_of_forall_le_iff fun n => ?_
  have hmul := mul_le_mul_iff_left₀ (b := (n : ℚ)) (c := m * 2 ^ (e - 64)) (show (0 : ℚ) < 2 ^ 64 by positivity)
  rw [scaled_sub_64] at hmul
  rw [le_scaleFloor_iff, Nat.le_div_iff_mul_le (by positivity), le_scaleFloor_iff, ← hmul]
  push_cast
  rfl

/-- The high part is a number with few significant bits, and so is the remainder, in units of `2^e`. -/
theorem split_exists (m : ℕ) (e : ℤ) :
    ∃ r k r' : ℕ, scaleFloor m (e - 64) = r * 2 ^ k ∧ r ≤ m ∧ r' ≤ m ∧
      (m : ℚ) * 2 ^ e - scaleFloor m (e - 64) * 2 ^ 64 = r' * 2 ^ e := by
  rcases le_or_gt 64 e with hle | hgt
  · obtain ⟨k, hk⟩ := Int.eq_ofNat_of_zero_le (sub_nonneg.mpr hle)
    have hfloor : scaleFloor m (e - 64) = m * 2 ^ k := by
      rw [hk, scaleFloor, if_pos (by omega)]
      simp
    refine ⟨m, k, 0, hfloor, le_refl m, Nat.zero_le m, ?_⟩
    rw [hfloor, ← scaled_sub_64, hk]
    push_cast
    rw [zpow_natCast]
    ring
  · obtain ⟨k, hk⟩ : ∃ k : ℕ, e = 64 - k := ⟨(64 - e).toNat, by omega⟩
    have hfloor : scaleFloor m (e - 64) = m / 2 ^ k := by
      rw [scaleFloor, if_neg (by omega), show (-(e - 64)).toNat = k by omega]
    refine ⟨m / 2 ^ k, 0, m % 2 ^ k, by rw [hfloor]; simp, Nat.div_le_self _ _, Nat.mod_le _ _, ?_⟩
    have hm : (m : ℚ) = (m / 2 ^ k : ℕ) * 2 ^ k + (m % 2 ^ k : ℕ) := by exact_mod_cast (Nat.div_add_mod' m (2 ^ k)).symm
    have hpow : (2 : ℚ) ^ 64 = 2 ^ k * 2 ^ e := by
      rw [← zpow_natCast, ← zpow_natCast, ← zpow_split]
      congr 1
      omega
    rw [hfloor, hpow]
    linear_combination (2 : ℚ) ^ e * hm

/-- `{h, l}` of the halves of a number. -/
theorem pair_halves {n : ℕ} (h : n < 2 ^ 128) :
    pair (BitVec.ofNat 64 (n / 2 ^ 64)) (BitVec.ofNat 64 (n % 2 ^ 64)) = BitVec.ofNat 128 n := by
  rw [pair_eq_ofNat, BitVec.toNat_ofNat, BitVec.toNat_ofNat]
  congr 1
  omega

/-- What is left of a number after its high part, truncated, is the low half of its truncation. -/
theorem scaleFloor_remainder {m a : ℕ} {e b : ℤ}
    (h : (a : ℚ) * 2 ^ b = m * 2 ^ e - (scaleFloor m e / 2 ^ 64 : ℕ) * 2 ^ 64) : scaleFloor a b = scaleFloor m e % 2 ^ 64 := by
  have hcast : ((scaleFloor m e / 2 ^ 64 : ℕ) : ℚ) * 2 ^ 64 = ((scaleFloor m e / 2 ^ 64 * 2 ^ 64 : ℕ) : ℚ) := by push_cast; rfl
  have hfloor : (scaleFloor a b : ℤ) = scaleFloor m e - (scaleFloor m e / 2 ^ 64 * 2 ^ 64 : ℕ) := by
    rw [scaleFloor_eq, h, hcast, Int.floor_sub_natCast, scaleFloor_eq]
  omega

/-- From 2^63 on: the high part is exact, the format holds it and the remainder, and together they are the truncation. -/
theorem splitConvert_high {fp : FpFormat} {m : ℕ} {e : ℤ} (hm : m < 2 ^ (fracBits fp + 1))
    (he : 1 - (bias fp : ℤ) - fracBits fp ≤ e) (hlt : (m : ℚ) * 2 ^ e < 2 ^ 128) (hhigh : 2 ^ 63 ≤ scaleFloor m e) :
    splitConvert fp m e = some (BitVec.ofNat 128 (scaleFloor m e)) := by
  have hN : scaleFloor m e < 2 ^ 128 := by
    rw [scaleFloor_lt_iff]
    exact_mod_cast hlt
  obtain ⟨r, k, r', hr, hrm, hrm', hrem⟩ := split_exists m e
  have hfloor := scaleFloor_sub_64 m e
  rw [hfloor] at hr hrem
  -- the high part
  have hscaled : scalbFp fp (.fin false m e) (-64) = .fin false m (e - 64) := by
    refine scalbFp_of_lt (k := -64) ?_
    have hsub := scaled_sub_64 m e
    rw [← sub_eq_add_neg]
    linarith [scaled_nonneg m (e - 64)]
  have htrunc : trunc64 (.fin false m (e - 64)) = some (BitVec.ofNat 64 (scaleFloor m e / 2 ^ 64)) :=
    hfloor ▸ trunc64_of_lt (by omega)
  -- the high part as a float again, and back in its place
  have hnat : (BitVec.ofNat 64 (scaleFloor m e / 2 ^ 64)).toNat = scaleFloor m e / 2 ^ 64 := Nat.mod_eq_of_lt (by omega)
  have hhi : ((scaleFloor m e / 2 ^ 64 : ℕ) : ℚ) * 2 ^ 64 < 2 ^ 128 := by
    exact_mod_cast (Nat.div_mul_le_self (scaleFloor m e) (2 ^ 64)).trans_lt hN
  obtain ⟨m', q, hcvt, hmq⟩ := cvtFp_exact (hrm.trans_lt hm) (hnat.trans hr)
  rw [hnat] at hmq
  have hback : (m' : ℚ) * 2 ^ (q + 64) = (scaleFloor m e / 2 ^ 64 : ℕ) * 2 ^ 64 := by
    rw [zpow_split, ← mul_assoc, hmq]
    rfl
  have hrescaled : scalbFp fp (.fin false m' q) 64 = .fin false m' (q + 64) := scalbFp_of_lt (hback ▸ hhi)
  -- the remainder
  have hrle : (r' : ℚ) * 2 ^ e ≤ m * 2 ^ e := by
    rw [← hrem]
    exact sub_le_self _ (by positivity)
  obtain ⟨a, b, hsub, hab⟩ := fsubFp_exact (m₁ := m) (e₁ := e) (hrm'.trans_lt hm) he (hback ▸ hrem) (hrle.trans_lt hlt)
  have hlow := scaleFloor_remainder (hab.trans hrem.symm)
  have htruncLow : trunc64 (.fin false a b) = some (BitVec.ofNat 64 (scaleFloor m e % 2 ^ 64)) :=
    hlow ▸ trunc64_of_lt (by omega)
  have hround : config.fpRound = .tiesToEven := rfl
  simp only [splitConvert, if_pos hhigh, hscaled, htrunc, hround, hcvt, hrescaled, hsub, htruncLow, pair_halves hN]

theorem splitConvert_low {fp : FpFormat} {m : ℕ} {e : ℤ} (hlow : scaleFloor m e < 2 ^ 63) :
    splitConvert fp m e = some (BitVec.ofNat 128 (scaleFloor m e)) := by
  have hhalves := pair_halves (n := scaleFloor m e) (by omega)
  rw [show scaleFloor m e / 2 ^ 64 = 0 by omega, show scaleFloor m e % 2 ^ 64 = scaleFloor m e by omega] at hhalves
  simp only [splitConvert, if_neg (not_le.mpr hlow), trunc64_of_lt (show scaleFloor m e < 2 ^ 64 by omega)]
  exact congrArg some hhalves

/-- Settles O49: the number of the pattern is its magnitude, whose split gives its truncation. -/
theorem splitIsTruncation : Obligations.SplitIsTruncation := by
  intro fp x neg m e h h0 hlt
  have hval := val_of_unpackFp h h0
  rw [hval] at hlt ⊢
  rw [← scaleFloor_eq, BitVec.ofInt_natCast]
  obtain ⟨hm, he⟩ := unpackFp_bounds h
  rcases le_or_gt (2 ^ 63) (scaleFloor m e) with hhigh | hlow
  · exact splitConvert_high hm he hlt hhigh
  · exact splitConvert_low hlow

end Sys2Proof.Proofs
